-- ==== Sys2Proof/Word.lean ====
section
/-! DEFINITION. The fixed sizes of the core (R7): words, halfwords, bytes, register numbers.
Bit 31 is the most significant bit of a word, bit 0 the least (R16). -/

namespace Sys2Proof

/-- A 32-bit register value, address or instruction word; it carries no sign of its own (R7, R16):
`u(v)` is `v.toNat` and `s(v)` is `v.toInt`. -/
abbrev Word := BitVec 32

/-- The addressable unit, 8 bits (R7, R50). -/
abbrev Byte := BitVec 8

/-- A general register number, 0 to 31; a number outside that range cannot be written down (R21). -/
abbrev RegIdx := Fin 32

end Sys2Proof
end

