-- ==== Sys2Proof/Machine/Flags.lean ====
section
/-! DEFINITION. The core has no flags (R30): a comparison writes 0 or 1 into a general register or steers a
branch. These are the comparisons. -/

namespace Sys2Proof.Machine

/-- `s(a) < s(b)` (R119). -/
def lessSigned (a b : Word) : Bool := decide (a.toInt < b.toInt)

/-- `u(a) < u(b)` (R120). -/
def lessUnsigned (a b : Word) : Bool := decide (a.toNat < b.toNat)

/-- The result of a comparison, exactly 0x00000001 or 0x00000000 (R129). -/
def flagWord (c : Bool) : Word := if c then 1#32 else 0#32

/-- The condition of `beq`; `bne` has its negation (R172, R173). -/
def condEq (a b : Word) : Bool := a == b

/-- The condition of `blez`, `s(a) <= 0` (R174). -/
def condLez (a : Word) : Bool := decide (a.toInt ≤ 0)

/-- The condition of `bgtz`, `s(a) > 0` (R175). -/
def condGtz (a : Word) : Bool := decide (0 < a.toInt)

/-- The condition of `bltz` and `bltzal`, `s(a) < 0` (R176, R178). -/
def condLtz (a : Word) : Bool := decide (a.toInt < 0)

/-- The condition of `bgez` and `bgezal`, `s(a) >= 0` (R177, R179). -/
def condGez (a : Word) : Bool := decide (0 ≤ a.toInt)

end Sys2Proof.Machine
end

