-- ==== Sys2Proof/Syntax.lean ====
section
/-! DEFINITION. The instructions (one constructor per row of spec/opcode_table.json) and the raw R, I and
J records a word is taken apart into before it is known to be an instruction (R81 to R85). -/

namespace Sys2Proof

/-- The fields of an R-format word, `opcode, rs, rt, rd, shamt, funct` (R82). -/
structure RFields where
  opcode : BitVec 6
  rs : RegIdx
  rt : RegIdx
  rd : RegIdx
  shamt : BitVec 5
  funct : BitVec 6
deriving DecidableEq, Repr

/-- The fields of an I-format word, `opcode, rs, rt, immediate`; the immediate is kept raw (R83). -/
structure IFields where
  opcode : BitVec 6
  rs : RegIdx
  rt : RegIdx
  imm : BitVec 16
deriving DecidableEq, Repr

/-- The fields of a J-format word, `opcode, address` (R84). -/
structure JFields where
  opcode : BitVec 6
  address : BitVec 26
deriving DecidableEq, Repr

/-- The shape of a word: every 32-bit pattern has one (R85). -/
inductive Shape where
  | r (f : RFields)
  | i (f : IFields)
  | j (f : JFields)
deriving DecidableEq, Repr

/-- The 58 instructions (R95). The operands stand in the order of R93; a field that an instruction ignores
(R90) is no operand of it. An operand's type admits exactly the values its field can hold. -/
inductive Instr where
  /-- `add rd, rs, rt` (R111). -/
  | add (rd rs rt : RegIdx)
  /-- `addu rd, rs, rt` (R112). -/
  | addu (rd rs rt : RegIdx)
  /-- `sub rd, rs, rt` (R113). -/
  | sub (rd rs rt : RegIdx)
  /-- `subu rd, rs, rt` (R114). -/
  | subu (rd rs rt : RegIdx)
  /-- `and rd, rs, rt` (R115). -/
  | and (rd rs rt : RegIdx)
  /-- `or rd, rs, rt` (R116). -/
  | or (rd rs rt : RegIdx)
  /-- `xor rd, rs, rt` (R117). -/
  | xor (rd rs rt : RegIdx)
  /-- `nor rd, rs, rt` (R118). -/
  | nor (rd rs rt : RegIdx)
  /-- `slt rd, rs, rt` (R119). -/
  | slt (rd rs rt : RegIdx)
  /-- `sltu rd, rs, rt` (R120). -/
  | sltu (rd rs rt : RegIdx)
  /-- `addi rt, rs, imm` (R121). -/
  | addi (rt rs : RegIdx) (imm : BitVec 16)
  /-- `addiu rt, rs, imm` (R122). -/
  | addiu (rt rs : RegIdx) (imm : BitVec 16)
  /-- `slti rt, rs, imm` (R123). -/
  | slti (rt rs : RegIdx) (imm : BitVec 16)
  /-- `sltiu rt, rs, imm` (R124). -/
  | sltiu (rt rs : RegIdx) (imm : BitVec 16)
  /-- `andi rt, rs, imm` (R125). -/
  | andi (rt rs : RegIdx) (imm : BitVec 16)
  /-- `ori rt, rs, imm` (R126). -/
  | ori (rt rs : RegIdx) (imm : BitVec 16)
  /-- `xori rt, rs, imm` (R127). -/
  | xori (rt rs : RegIdx) (imm : BitVec 16)
  /-- `lui rt, imm` (R128). -/
  | lui (rt : RegIdx) (imm : BitVec 16)
  /-- `sll rd, rt, shamt` (R141). -/
  | sll (rd rt : RegIdx) (shamt : BitVec 5)
  /-- `srl rd, rt, shamt` (R142). -/
  | srl (rd rt : RegIdx) (shamt : BitVec 5)
  /-- `sra rd, rt, shamt` (R143). -/
  | sra (rd rt : RegIdx) (shamt : BitVec 5)
  /-- `sllv rd, rt, rs` (R144): `rt` is the value, `rs` the amount. -/
  | sllv (rd rt rs : RegIdx)
  /-- `srlv rd, rt, rs` (R145): `rt` is the value, `rs` the amount. -/
  | srlv (rd rt rs : RegIdx)
  /-- `srav rd, rt, rs` (R146): `rt` is the value, `rs` the amount. -/
  | srav (rd rt rs : RegIdx)
  /-- `mult rs, rt` (R151). -/
  | mult (rs rt : RegIdx)
  /-- `multu rs, rt` (R152). -/
  | multu (rs rt : RegIdx)
  /-- `div rs, rt` (R153). -/
  | div (rs rt : RegIdx)
  /-- `divu rs, rt` (R154). -/
  | divu (rs rt : RegIdx)
  /-- `mfhi rd` (R155). -/
  | mfhi (rd : RegIdx)
  /-- `mflo rd` (R156). -/
  | mflo (rd : RegIdx)
  /-- `mthi rs` (R157). -/
  | mthi (rs : RegIdx)
  /-- `mtlo rs` (R158). -/
  | mtlo (rs : RegIdx)
  /-- `j target` (R168); `address` is bits 27:2 of the target. -/
  | j (address : BitVec 26)
  /-- `jal target` (R169); `address` is bits 27:2 of the target. -/
  | jal (address : BitVec 26)
  /-- `jr rs` (R170). -/
  | jr (rs : RegIdx)
  /-- `jalr rd, rs` (R171); `rd` is the field as encoded, 0 included. -/
  | jalr (rd rs : RegIdx)
  /-- `beq rs, rt, offset` (R172). -/
  | beq (rs rt : RegIdx) (imm : BitVec 16)
  /-- `bne rs, rt, offset` (R173). -/
  | bne (rs rt : RegIdx) (imm : BitVec 16)
  /-- `blez rs, offset` (R174). -/
  | blez (rs : RegIdx) (imm : BitVec 16)
  /-- `bgtz rs, offset` (R175). -/
  | bgtz (rs : RegIdx) (imm : BitVec 16)
  /-- `bltz rs, offset` (R176). -/
  | bltz (rs : RegIdx) (imm : BitVec 16)
  /-- `bgez rs, offset` (R177). -/
  | bgez (rs : RegIdx) (imm : BitVec 16)
  /-- `bltzal rs, offset` (R178). -/
  | bltzal (rs : RegIdx) (imm : BitVec 16)
  /-- `bgezal rs, offset` (R179). -/
  | bgezal (rs : RegIdx) (imm : BitVec 16)
  /-- `lb rt, imm(rs)` (R191). -/
  | lb (rt : RegIdx) (imm : BitVec 16) (rs : RegIdx)
  /-- `lbu rt, imm(rs)` (R192). -/
  | lbu (rt : RegIdx) (imm : BitVec 16) (rs : RegIdx)
  /-- `lh rt, imm(rs)` (R193). -/
  | lh (rt : RegIdx) (imm : BitVec 16) (rs : RegIdx)
  /-- `lhu rt, imm(rs)` (R194). -/
  | lhu (rt : RegIdx) (imm : BitVec 16) (rs : RegIdx)
  /-- `lw rt, imm(rs)` (R195). -/
  | lw (rt : RegIdx) (imm : BitVec 16) (rs : RegIdx)
  /-- `sb rt, imm(rs)` (R196). -/
  | sb (rt : RegIdx) (imm : BitVec 16) (rs : RegIdx)
  /-- `sh rt, imm(rs)` (R197). -/
  | sh (rt : RegIdx) (imm : BitVec 16) (rs : RegIdx)
  /-- `sw rt, imm(rs)` (R198). -/
  | sw (rt : RegIdx) (imm : BitVec 16) (rs : RegIdx)
  /-- `lwl rt, imm(rs)` (R206). -/
  | lwl (rt : RegIdx) (imm : BitVec 16) (rs : RegIdx)
  /-- `lwr rt, imm(rs)` (R207). -/
  | lwr (rt : RegIdx) (imm : BitVec 16) (rs : RegIdx)
  /-- `swl rt, imm(rs)` (R208). -/
  | swl (rt : RegIdx) (imm : BitVec 16) (rs : RegIdx)
  /-- `swr rt, imm(rs)` (R209). -/
  | swr (rt : RegIdx) (imm : BitVec 16) (rs : RegIdx)
  /-- `syscall` (R215). -/
  | syscall
  /-- `break` (R216); the bits 25:6 are ignored. -/
  | brk
deriving DecidableEq, Repr

/-- The name of an instruction in spec/opcode_table.json. -/
def Instr.mnemonic : Instr → String
  | .add .. => "add"
  | .addu .. => "addu"
  | .sub .. => "sub"
  | .subu .. => "subu"
  | .and .. => "and"
  | .or .. => "or"
  | .xor .. => "xor"
  | .nor .. => "nor"
  | .slt .. => "slt"
  | .sltu .. => "sltu"
  | .addi .. => "addi"
  | .addiu .. => "addiu"
  | .slti .. => "slti"
  | .sltiu .. => "sltiu"
  | .andi .. => "andi"
  | .ori .. => "ori"
  | .xori .. => "xori"
  | .lui .. => "lui"
  | .sll .. => "sll"
  | .srl .. => "srl"
  | .sra .. => "sra"
  | .sllv .. => "sllv"
  | .srlv .. => "srlv"
  | .srav .. => "srav"
  | .mult .. => "mult"
  | .multu .. => "multu"
  | .div .. => "div"
  | .divu .. => "divu"
  | .mfhi .. => "mfhi"
  | .mflo .. => "mflo"
  | .mthi .. => "mthi"
  | .mtlo .. => "mtlo"
  | .j .. => "j"
  | .jal .. => "jal"
  | .jr .. => "jr"
  | .jalr .. => "jalr"
  | .beq .. => "beq"
  | .bne .. => "bne"
  | .blez .. => "blez"
  | .bgtz .. => "bgtz"
  | .bltz .. => "bltz"
  | .bgez .. => "bgez"
  | .bltzal .. => "bltzal"
  | .bgezal .. => "bgezal"
  | .lb .. => "lb"
  | .lbu .. => "lbu"
  | .lh .. => "lh"
  | .lhu .. => "lhu"
  | .lw .. => "lw"
  | .sb .. => "sb"
  | .sh .. => "sh"
  | .sw .. => "sw"
  | .lwl .. => "lwl"
  | .lwr .. => "lwr"
  | .swl .. => "swl"
  | .swr .. => "swr"
  | .syscall => "syscall"
  | .brk => "break"

/-- One row of the opcode table (R90): the word `w` is that instruction when `w &&& mask = pattern`. -/
structure Row where
  mnemonic : String
  mask : Word
  pattern : Word
deriving DecidableEq, Repr

/-- Why the decoder turns bytes down. -/
inductive Reject where
  /-- Fewer than the 4 bytes of an instruction word are given (R80); `n` bytes were. -/
  | tooShort (n : Nat)
  /-- The word selects no instruction (R91). -/
  | unimplementedOpcode (word : Word)
deriving DecidableEq, Repr

end Sys2Proof
end

