-- ==== Sys2Proof/Decode.lean ====
section
/-! DEFINITION. The instruction decoder and the encoder (30_encoding.md). Decoding is a function of the word
alone and is total (R85): classify (R81), take the fields out (R82 to R84), select (R95). -/

namespace Sys2Proof

/-- The general register that a 5-bit field names (R21, R86). -/
def regOf (b : BitVec 5) : RegIdx := ⟨b.toNat, b.isLt⟩

/-- `word[31:26]` (R81). -/
def opcodeField (w : Word) : BitVec 6 := w.extractLsb' 26 6

/-- The fields of `w` read as an R-format word (R82). -/
def rFields (w : Word) : RFields where
  opcode := opcodeField w
  rs := regOf (w.extractLsb' 21 5)
  rt := regOf (w.extractLsb' 16 5)
  rd := regOf (w.extractLsb' 11 5)
  shamt := w.extractLsb' 6 5
  funct := w.extractLsb' 0 6

/-- The fields of `w` read as an I-format word (R83). -/
def iFields (w : Word) : IFields where
  opcode := opcodeField w
  rs := regOf (w.extractLsb' 21 5)
  rt := regOf (w.extractLsb' 16 5)
  imm := w.extractLsb' 0 16

/-- The fields of `w` read as a J-format word (R84). -/
def jFields (w : Word) : JFields where
  opcode := opcodeField w
  address := w.extractLsb' 0 26

/-- Classification by the top 6 bits alone (R81): opcode 0 is R, opcodes 2 and 3 are J, all others are I. -/
def classify (w : Word) : Shape :=
  if opcodeField w = 0x00#6 then .r (rFields w)
  else if opcodeField w = 0x02#6 ∨ opcodeField w = 0x03#6 then .j (jFields w)
  else .i (iFields w)

/-- `SPECIAL_table[funct]` (R88); `none` is `Unimplemented`. -/
def selectSpecial (f : RFields) : Option Instr :=
  match f.funct with
  | 0x00#6 => some (.sll f.rd f.rt f.shamt)
  | 0x02#6 => some (.srl f.rd f.rt f.shamt)
  | 0x03#6 => some (.sra f.rd f.rt f.shamt)
  | 0x04#6 => some (.sllv f.rd f.rt f.rs)
  | 0x06#6 => some (.srlv f.rd f.rt f.rs)
  | 0x07#6 => some (.srav f.rd f.rt f.rs)
  | 0x08#6 => some (.jr f.rs)
  | 0x09#6 => some (.jalr f.rd f.rs)
  | 0x0C#6 => some .syscall
  | 0x0D#6 => some .brk
  | 0x10#6 => some (.mfhi f.rd)
  | 0x11#6 => some (.mthi f.rs)
  | 0x12#6 => some (.mflo f.rd)
  | 0x13#6 => some (.mtlo f.rs)
  | 0x18#6 => some (.mult f.rs f.rt)
  | 0x19#6 => some (.multu f.rs f.rt)
  | 0x1A#6 => some (.div f.rs f.rt)
  | 0x1B#6 => some (.divu f.rs f.rt)
  | 0x20#6 => some (.add f.rd f.rs f.rt)
  | 0x21#6 => some (.addu f.rd f.rs f.rt)
  | 0x22#6 => some (.sub f.rd f.rs f.rt)
  | 0x23#6 => some (.subu f.rd f.rs f.rt)
  | 0x24#6 => some (.and f.rd f.rs f.rt)
  | 0x25#6 => some (.or f.rd f.rs f.rt)
  | 0x26#6 => some (.xor f.rd f.rs f.rt)
  | 0x27#6 => some (.nor f.rd f.rs f.rt)
  | 0x2A#6 => some (.slt f.rd f.rs f.rt)
  | 0x2B#6 => some (.sltu f.rd f.rs f.rt)
  | _ => none

/-- `REGIMM_table[rt]` (R89); `none` is `Unimplemented`. -/
def selectRegimm (f : IFields) : Option Instr :=
  match f.rt with
  | 0 => some (.bltz f.rs f.imm)
  | 1 => some (.bgez f.rs f.imm)
  | 16 => some (.bltzal f.rs f.imm)
  | 17 => some (.bgezal f.rs f.imm)
  | _ => none

/-- The I-format part of `PRIMARY_table[opcode]` (R87); `none` is `Unimplemented`. -/
def selectPrimary (f : IFields) : Option Instr :=
  match f.opcode with
  | 0x04#6 => some (.beq f.rs f.rt f.imm)
  | 0x05#6 => some (.bne f.rs f.rt f.imm)
  | 0x06#6 => some (.blez f.rs f.imm)
  | 0x07#6 => some (.bgtz f.rs f.imm)
  | 0x08#6 => some (.addi f.rt f.rs f.imm)
  | 0x09#6 => some (.addiu f.rt f.rs f.imm)
  | 0x0A#6 => some (.slti f.rt f.rs f.imm)
  | 0x0B#6 => some (.sltiu f.rt f.rs f.imm)
  | 0x0C#6 => some (.andi f.rt f.rs f.imm)
  | 0x0D#6 => some (.ori f.rt f.rs f.imm)
  | 0x0E#6 => some (.xori f.rt f.rs f.imm)
  | 0x0F#6 => some (.lui f.rt f.imm)
  | 0x20#6 => some (.lb f.rt f.imm f.rs)
  | 0x21#6 => some (.lh f.rt f.imm f.rs)
  | 0x22#6 => some (.lwl f.rt f.imm f.rs)
  | 0x23#6 => some (.lw f.rt f.imm f.rs)
  | 0x24#6 => some (.lbu f.rt f.imm f.rs)
  | 0x25#6 => some (.lhu f.rt f.imm f.rs)
  | 0x26#6 => some (.lwr f.rt f.imm f.rs)
  | 0x28#6 => some (.sb f.rt f.imm f.rs)
  | 0x29#6 => some (.sh f.rt f.imm f.rs)
  | 0x2A#6 => some (.swl f.rt f.imm f.rs)
  | 0x2B#6 => some (.sw f.rt f.imm f.rs)
  | 0x2E#6 => some (.swr f.rt f.imm f.rs)
  | _ => none

/-- The J-format part of `PRIMARY_table[opcode]` (R87); `none` is `Unimplemented`. -/
def selectJump (f : JFields) : Option Instr :=
  match f.opcode with
  | 0x02#6 => some (.j f.address)
  | 0x03#6 => some (.jal f.address)
  | _ => none

/-- The instruction a record stands for (R95), if it stands for one. -/
def select : Shape → Option Instr
  | .r f => if f.opcode = 0x00#6 then selectSpecial f else none
  | .i f => if f.opcode = 0x01#6 then selectRegimm f else selectPrimary f
  | .j f => selectJump f

/-- The instruction a word selects (R95); `none` where it selects none (R91). -/
def decodeWord (w : Word) : Option Instr := select (classify w)

/-- The word whose bits 31:24 are the first byte given, 23:16 the second, and so on (R58, R80). -/
def wordOfBytes (b0 b1 b2 b3 : Byte) : Word := b0 ++ b1 ++ b2 ++ b3

/-- The four bytes of a word, the most significant first, as memory holds them in ascending order (R58). -/
def wordBytes (w : Word) : List Byte :=
  [w.extractLsb' 24 8, w.extractLsb' 16 8, w.extractLsb' 8 8, w.extractLsb' 0 8]

/-- Decoding a sequence of bytes: the instruction of the first four and the bytes after them, or why there
is none. -/
def decodeBytes : List Byte → Except Reject (Instr × List Byte)
  | b0 :: b1 :: b2 :: b3 :: rest =>
    match decodeWord (wordOfBytes b0 b1 b2 b3) with
    | some i => .ok (i, rest)
    | none => .error (.unimplementedOpcode (wordOfBytes b0 b1 b2 b3))
  | bs => .error (.tooShort bs.length)

/-- The instruction that the decoder reads from a word given as the opcode table numbers its bits, laid out
in memory's byte order. -/
def decodeTableWord (nbits w : Nat) : Option Instr :=
  match decodeBytes (wordBytes (BitVec.ofNat 32 (w % 2 ^ nbits))) with
  | .ok (i, _) => some i
  | .error _ => none

/-- The 5-bit field that names a general register. -/
def fieldOf (r : RegIdx) : BitVec 5 := BitVec.ofNat 5 r.val

/-- The R-format word with opcode 0 and these fields (R82). -/
def encodeR (rs rt rd : RegIdx) (shamt : BitVec 5) (funct : BitVec 6) : Word :=
  0x00#6 ++ fieldOf rs ++ fieldOf rt ++ fieldOf rd ++ shamt ++ funct

/-- The I-format word with these fields (R83). -/
def encodeI (opcode : BitVec 6) (rs rt : RegIdx) (imm : BitVec 16) : Word :=
  opcode ++ fieldOf rs ++ fieldOf rt ++ imm

/-- The J-format word with these fields (R84). -/
def encodeJ (opcode : BitVec 6) (address : BitVec 26) : Word :=
  opcode ++ address

/-- The word of an instruction (R82 to R84, R87 to R89), with 0 in the fields it ignores (R90). -/
def encode : Instr → Word
  | .add rd rs rt => encodeR rs rt rd 0#5 0x20#6
  | .addu rd rs rt => encodeR rs rt rd 0#5 0x21#6
  | .sub rd rs rt => encodeR rs rt rd 0#5 0x22#6
  | .subu rd rs rt => encodeR rs rt rd 0#5 0x23#6
  | .and rd rs rt => encodeR rs rt rd 0#5 0x24#6
  | .or rd rs rt => encodeR rs rt rd 0#5 0x25#6
  | .xor rd rs rt => encodeR rs rt rd 0#5 0x26#6
  | .nor rd rs rt => encodeR rs rt rd 0#5 0x27#6
  | .slt rd rs rt => encodeR rs rt rd 0#5 0x2A#6
  | .sltu rd rs rt => encodeR rs rt rd 0#5 0x2B#6
  | .addi rt rs imm => encodeI 0x08#6 rs rt imm
  | .addiu rt rs imm => encodeI 0x09#6 rs rt imm
  | .slti rt rs imm => encodeI 0x0A#6 rs rt imm
  | .sltiu rt rs imm => encodeI 0x0B#6 rs rt imm
  | .andi rt rs imm => encodeI 0x0C#6 rs rt imm
  | .ori rt rs imm => encodeI 0x0D#6 rs rt imm
  | .xori rt rs imm => encodeI 0x0E#6 rs rt imm
  | .lui rt imm => encodeI 0x0F#6 0 rt imm
  | .sll rd rt shamt => encodeR 0 rt rd shamt 0x00#6
  | .srl rd rt shamt => encodeR 0 rt rd shamt 0x02#6
  | .sra rd rt shamt => encodeR 0 rt rd shamt 0x03#6
  | .sllv rd rt rs => encodeR rs rt rd 0#5 0x04#6
  | .srlv rd rt rs => encodeR rs rt rd 0#5 0x06#6
  | .srav rd rt rs => encodeR rs rt rd 0#5 0x07#6
  | .mult rs rt => encodeR rs rt 0 0#5 0x18#6
  | .multu rs rt => encodeR rs rt 0 0#5 0x19#6
  | .div rs rt => encodeR rs rt 0 0#5 0x1A#6
  | .divu rs rt => encodeR rs rt 0 0#5 0x1B#6
  | .mfhi rd => encodeR 0 0 rd 0#5 0x10#6
  | .mflo rd => encodeR 0 0 rd 0#5 0x12#6
  | .mthi rs => encodeR rs 0 0 0#5 0x11#6
  | .mtlo rs => encodeR rs 0 0 0#5 0x13#6
  | .j address => encodeJ 0x02#6 address
  | .jal address => encodeJ 0x03#6 address
  | .jr rs => encodeR rs 0 0 0#5 0x08#6
  | .jalr rd rs => encodeR rs 0 rd 0#5 0x09#6
  | .beq rs rt imm => encodeI 0x04#6 rs rt imm
  | .bne rs rt imm => encodeI 0x05#6 rs rt imm
  | .blez rs imm => encodeI 0x06#6 rs 0 imm
  | .bgtz rs imm => encodeI 0x07#6 rs 0 imm
  | .bltz rs imm => encodeI 0x01#6 rs 0 imm
  | .bgez rs imm => encodeI 0x01#6 rs 1 imm
  | .bltzal rs imm => encodeI 0x01#6 rs 16 imm
  | .bgezal rs imm => encodeI 0x01#6 rs 17 imm
  | .lb rt imm rs => encodeI 0x20#6 rs rt imm
  | .lbu rt imm rs => encodeI 0x24#6 rs rt imm
  | .lh rt imm rs => encodeI 0x21#6 rs rt imm
  | .lhu rt imm rs => encodeI 0x25#6 rs rt imm
  | .lw rt imm rs => encodeI 0x23#6 rs rt imm
  | .sb rt imm rs => encodeI 0x28#6 rs rt imm
  | .sh rt imm rs => encodeI 0x29#6 rs rt imm
  | .sw rt imm rs => encodeI 0x2B#6 rs rt imm
  | .lwl rt imm rs => encodeI 0x22#6 rs rt imm
  | .lwr rt imm rs => encodeI 0x26#6 rs rt imm
  | .swl rt imm rs => encodeI 0x2A#6 rs rt imm
  | .swr rt imm rs => encodeI 0x2E#6 rs rt imm
  | .syscall => encodeR 0 0 0 0#5 0x0C#6
  | .brk => encodeR 0 0 0 0#5 0x0D#6

/-- The bits of a word that matter to the instruction it selects: the bits that select it and its operand
fields. The others are ignored (R90). -/
def usedBits : Instr → Word
  | .add .. => 0xFFFFF83F#32
  | .addu .. => 0xFFFFF83F#32
  | .sub .. => 0xFFFFF83F#32
  | .subu .. => 0xFFFFF83F#32
  | .and .. => 0xFFFFF83F#32
  | .or .. => 0xFFFFF83F#32
  | .xor .. => 0xFFFFF83F#32
  | .nor .. => 0xFFFFF83F#32
  | .slt .. => 0xFFFFF83F#32
  | .sltu .. => 0xFFFFF83F#32
  | .addi .. => 0xFFFFFFFF#32
  | .addiu .. => 0xFFFFFFFF#32
  | .slti .. => 0xFFFFFFFF#32
  | .sltiu .. => 0xFFFFFFFF#32
  | .andi .. => 0xFFFFFFFF#32
  | .ori .. => 0xFFFFFFFF#32
  | .xori .. => 0xFFFFFFFF#32
  | .lui .. => 0xFC1FFFFF#32
  | .sll .. => 0xFC1FFFFF#32
  | .srl .. => 0xFC1FFFFF#32
  | .sra .. => 0xFC1FFFFF#32
  | .sllv .. => 0xFFFFF83F#32
  | .srlv .. => 0xFFFFF83F#32
  | .srav .. => 0xFFFFF83F#32
  | .mult .. => 0xFFFF003F#32
  | .multu .. => 0xFFFF003F#32
  | .div .. => 0xFFFF003F#32
  | .divu .. => 0xFFFF003F#32
  | .mfhi .. => 0xFC00F83F#32
  | .mflo .. => 0xFC00F83F#32
  | .mthi .. => 0xFFE0003F#32
  | .mtlo .. => 0xFFE0003F#32
  | .j .. => 0xFFFFFFFF#32
  | .jal .. => 0xFFFFFFFF#32
  | .jr .. => 0xFFE0003F#32
  | .jalr .. => 0xFFE0F83F#32
  | .beq .. => 0xFFFFFFFF#32
  | .bne .. => 0xFFFFFFFF#32
  | .blez .. => 0xFFE0FFFF#32
  | .bgtz .. => 0xFFE0FFFF#32
  | .bltz .. => 0xFFFFFFFF#32
  | .bgez .. => 0xFFFFFFFF#32
  | .bltzal .. => 0xFFFFFFFF#32
  | .bgezal .. => 0xFFFFFFFF#32
  | .lb .. => 0xFFFFFFFF#32
  | .lbu .. => 0xFFFFFFFF#32
  | .lh .. => 0xFFFFFFFF#32
  | .lhu .. => 0xFFFFFFFF#32
  | .lw .. => 0xFFFFFFFF#32
  | .sb .. => 0xFFFFFFFF#32
  | .sh .. => 0xFFFFFFFF#32
  | .sw .. => 0xFFFFFFFF#32
  | .lwl .. => 0xFFFFFFFF#32
  | .lwr .. => 0xFFFFFFFF#32
  | .swl .. => 0xFFFFFFFF#32
  | .swr .. => 0xFFFFFFFF#32
  | .syscall => 0xFC00003F#32
  | .brk => 0xFC00003F#32

/-- The rows of the ALU instructions, register form (R111 to R120). -/
def aluRows : List Row :=
  [⟨"add", 0xFC00003F#32, 0x00000020#32⟩,
   ⟨"addu", 0xFC00003F#32, 0x00000021#32⟩,
   ⟨"sub", 0xFC00003F#32, 0x00000022#32⟩,
   ⟨"subu", 0xFC00003F#32, 0x00000023#32⟩,
   ⟨"and", 0xFC00003F#32, 0x00000024#32⟩,
   ⟨"or", 0xFC00003F#32, 0x00000025#32⟩,
   ⟨"xor", 0xFC00003F#32, 0x00000026#32⟩,
   ⟨"nor", 0xFC00003F#32, 0x00000027#32⟩,
   ⟨"slt", 0xFC00003F#32, 0x0000002A#32⟩,
   ⟨"sltu", 0xFC00003F#32, 0x0000002B#32⟩]

/-- The rows of the ALU instructions, immediate form (R121 to R128). -/
def immRows : List Row :=
  [⟨"addi", 0xFC000000#32, 0x20000000#32⟩,
   ⟨"addiu", 0xFC000000#32, 0x24000000#32⟩,
   ⟨"slti", 0xFC000000#32, 0x28000000#32⟩,
   ⟨"sltiu", 0xFC000000#32, 0x2C000000#32⟩,
   ⟨"andi", 0xFC000000#32, 0x30000000#32⟩,
   ⟨"ori", 0xFC000000#32, 0x34000000#32⟩,
   ⟨"xori", 0xFC000000#32, 0x38000000#32⟩,
   ⟨"lui", 0xFC000000#32, 0x3C000000#32⟩]

/-- The rows of the shift instructions (R141 to R146). -/
def shiftRows : List Row :=
  [⟨"sll", 0xFC00003F#32, 0x00000000#32⟩,
   ⟨"srl", 0xFC00003F#32, 0x00000002#32⟩,
   ⟨"sra", 0xFC00003F#32, 0x00000003#32⟩,
   ⟨"sllv", 0xFC00003F#32, 0x00000004#32⟩,
   ⟨"srlv", 0xFC00003F#32, 0x00000006#32⟩,
   ⟨"srav", 0xFC00003F#32, 0x00000007#32⟩]

/-- The rows of the multiply, divide and HI/LO moves (R151 to R158). -/
def mulDivRows : List Row :=
  [⟨"mult", 0xFC00003F#32, 0x00000018#32⟩,
   ⟨"multu", 0xFC00003F#32, 0x00000019#32⟩,
   ⟨"div", 0xFC00003F#32, 0x0000001A#32⟩,
   ⟨"divu", 0xFC00003F#32, 0x0000001B#32⟩,
   ⟨"mfhi", 0xFC00003F#32, 0x00000010#32⟩,
   ⟨"mflo", 0xFC00003F#32, 0x00000012#32⟩,
   ⟨"mthi", 0xFC00003F#32, 0x00000011#32⟩,
   ⟨"mtlo", 0xFC00003F#32, 0x00000013#32⟩]

/-- The rows of the jumps and branches (R168 to R179). -/
def jumpRows : List Row :=
  [⟨"j", 0xFC000000#32, 0x08000000#32⟩,
   ⟨"jal", 0xFC000000#32, 0x0C000000#32⟩,
   ⟨"jr", 0xFC00003F#32, 0x00000008#32⟩,
   ⟨"jalr", 0xFC00003F#32, 0x00000009#32⟩,
   ⟨"beq", 0xFC000000#32, 0x10000000#32⟩,
   ⟨"bne", 0xFC000000#32, 0x14000000#32⟩,
   ⟨"blez", 0xFC000000#32, 0x18000000#32⟩,
   ⟨"bgtz", 0xFC000000#32, 0x1C000000#32⟩,
   ⟨"bltz", 0xFC1F0000#32, 0x04000000#32⟩,
   ⟨"bgez", 0xFC1F0000#32, 0x04010000#32⟩,
   ⟨"bltzal", 0xFC1F0000#32, 0x04100000#32⟩,
   ⟨"bgezal", 0xFC1F0000#32, 0x04110000#32⟩]

/-- The rows of the loads and stores (R191 to R198, R206 to R209). -/
def memoryRows : List Row :=
  [⟨"lb", 0xFC000000#32, 0x80000000#32⟩,
   ⟨"lbu", 0xFC000000#32, 0x90000000#32⟩,
   ⟨"lh", 0xFC000000#32, 0x84000000#32⟩,
   ⟨"lhu", 0xFC000000#32, 0x94000000#32⟩,
   ⟨"lw", 0xFC000000#32, 0x8C000000#32⟩,
   ⟨"sb", 0xFC000000#32, 0xA0000000#32⟩,
   ⟨"sh", 0xFC000000#32, 0xA4000000#32⟩,
   ⟨"sw", 0xFC000000#32, 0xAC000000#32⟩,
   ⟨"lwl", 0xFC000000#32, 0x88000000#32⟩,
   ⟨"lwr", 0xFC000000#32, 0x98000000#32⟩,
   ⟨"swl", 0xFC000000#32, 0xA8000000#32⟩,
   ⟨"swr", 0xFC000000#32, 0xB8000000#32⟩]

/-- The rows of the system instructions (R215, R216). -/
def systemRows : List Row :=
  [⟨"syscall", 0xFC00003F#32, 0x0000000C#32⟩,
   ⟨"break", 0xFC00003F#32, 0x0000000D#32⟩]

/-- spec/opcode_table.json: its 58 rows with the masks of R90. The decoder does not use it; it is there
for the decoder to be checked against. -/
def opcodeTable : List Row :=
  aluRows ++ immRows ++ shiftRows ++ mulDivRows ++ jumpRows ++ memoryRows ++ systemRows

/-- The row matches the word (R90). -/
def Row.matches (r : Row) (w : Word) : Bool := w &&& r.mask == r.pattern

end Sys2Proof
end

