-- ==== Sys2Proof/Config.lean ====
section
/-! DEFINITION. What is fixed from outside the core: the system-call bridge (an oracle, R215) and the
values the loader and the command line hand over at reset (R8, R11). -/

namespace Sys2Proof

/-- Memory as data (R35, R69): the bytes that are not 0, each with its address, in ascending order of
address. An address that is not listed holds 0 (R63). -/
abbrev Memory := List Host.Cell

/-- What the core hands the bridge at a `syscall` (R13, R215): the call number `x[2]`, the four argument
registers `x[4]` to `x[7]`, and the memory as it stands. -/
structure BridgeQuery where
  callNumber : Word
  arg0 : Word
  arg1 : Word
  arg2 : Word
  arg3 : Word
  mem : Memory
deriving DecidableEq, Repr

/-- What the bridge answers (R215): `Return(v, mem')` or `Exit`. The possibly changed memory `mem'` is
given by the bytes the bridge writes, in order; every `mem'` can be given so (log entry 3). -/
inductive BridgeAnswer where
  /-- `Return(v, mem')`. -/
  | ret (value : Word) (writes : List (Word × Byte))
  /-- `Exit`: the run is over. -/
  | exit
deriving DecidableEq, Repr, Inhabited

/-- One known row of the bridge: it answers every query whose given parts are as written; a part left
out (`none`) matches anything. A list of rows is a bridge as plain data (log entry 4). -/
structure BridgeRow where
  callNumber : Option Word
  args : Option (Word × Word × Word × Word)
  mem : Option Memory
  answer : BridgeAnswer
deriving DecidableEq, Repr

/-- The bridge of R8 and R215, wherever no row of `State.bridge` says otherwise: a function of call
number, arguments and memory about which nothing is known (free value, log entry 4). -/
opaque Config.bridge : BridgeQuery → BridgeAnswer

/-- The inputs sampled once at reset (R8, R11). -/
structure ResetInputs where
  /-- `ENTRY`. -/
  entry : Word
  /-- `GP`. -/
  gp : Word
  /-- `SP`. -/
  sp : Word
  /-- `INIT_MEM`: the bytes the loader placed, 0 elsewhere. -/
  initMem : Memory
  /-- `BUDGET`. -/
  budget : Nat
  /-- `STRICT_MEM` with its set of present addresses (R243): `none` is the tolerant mode. -/
  present : Option (List Nat)
  /-- The known rows of `Bridge`. -/
  bridge : List BridgeRow
deriving DecidableEq, Repr

/-- `ENTRY` of `State.reset`. DESIGN CHOICE (log entry 1): the common start state of 95_test_vectors.md §3. -/
def Config.entry : Word := 0x00400000#32

/-- `GP` of `State.reset`. DESIGN CHOICE (log entry 1): as `Config.entry`. -/
def Config.gp : Word := 0x10008000#32

/-- `SP` of `State.reset`. DESIGN CHOICE (log entry 1): as `Config.entry`. -/
def Config.sp : Word := 0x7FFFEFFC#32

/-- `BUDGET` of `State.reset`. DESIGN CHOICE (log entry 2): a large number, 2^31 - 1. -/
def Config.budget : Nat := 2147483647

/-- The inputs `State.reset` takes. Memory lists nothing, memory is tolerant (`STRICT_MEM = false`, R63),
and no row of the bridge is known. -/
def Config.resetInputs : ResetInputs where
  entry := Config.entry
  gp := Config.gp
  sp := Config.sp
  initMem := []
  budget := Config.budget
  present := none
  bridge := []

end Sys2Proof
end

