-- ==== Sys2Proof/Machine/State.lean ====
section
/-! DEFINITION. The architectural state of the core (R20) and its value after reset (R36, R270). -/

namespace Sys2Proof.Machine

/-- The causes that end a run, as the halt record names them (R33, R240); the source numbers none. -/
inductive Cause where
  /-- The control unit finds the budget at 0 (R245). A normal end. -/
  | instructionBudgetExceeded
  /-- The bridge answers `Exit` to a `syscall` (R246). A normal end. -/
  | exit
  /-- A `break` is executed (R244). A designed stop. -/
  | breakpoint
  /-- A word that selects no instruction is executed (R241). A fault. -/
  | unimplementedOpcode
  /-- `div` or `divu` with a divisor of 0 (R242). A fault. -/
  | arithmeticEdgeCase
  /-- A byte that is not present is read; only in strict mode (R243). A fault. -/
  | memoryFault
deriving DecidableEq, Repr

/-- The halt record (R33): why the run stopped, the `pc` it stopped at (the record's `at`) and the
instruction word, absent where no instruction is associated with the stop. -/
structure HaltRecord where
  cause : Cause
  haltPc : Word
  word : Option Word
deriving DecidableEq, Repr

/-- The run state (R33, R225); the halt record is there exactly when the core is halted. -/
inductive RunState where
  | running
  | halted (record : HaltRecord)
deriving DecidableEq, Repr

/-- The reasons for which a step would stop outside the machine's own rules. There are none: every stop the
spec gives the core is a transition to `Halted` that the state records (R250), and nothing in this core
hangs or is undefined (93_implementation_defined.md §1). Raised by nobody; the claim is safe to use, since
it says only that this model never stops a step with a fault. -/
inductive Fault : Type
deriving DecidableEq, Repr

/-- The reasons for which the model would give an instruction no meaning. -/
inductive Refusal where
  /-- Raised by an arm of `exec` whose instruction has no meaning yet; no arm does. Safe: the run stops. -/
  | notModelled (mnemonic : String)
deriving DecidableEq, Repr

/-- The state of the core (R20): the first seven fields are the spec's six items (`x`, `HI`/`LO`, `pc`,
`mem`, `run`, `budget`), and the last two hold parameters of a run as data (R8). -/
structure State where
  /-- `x[0..31]` (R21). Slot 0 is never read and never written (R22). -/
  gpr : Vector Word 32
  /-- `HI`, slot 32 of the source's register file (R25). -/
  hi : Word
  /-- `LO`, slot 33 of the source's register file (R25). -/
  lo : Word
  /-- The program counter (R26). -/
  pc : Word
  /-- The memory (R35). -/
  mem : Memory
  /-- The run state with the halt record (R33). -/
  run : RunState
  /-- The number of instructions the core may still execute (R34). -/
  budget : Nat
  /-- `STRICT_MEM` and, when it is true, the set of present addresses in ascending order (R8, R243).
  `none` is the tolerant mode, which is this hardware's (R63). -/
  present : Option (List Nat)
  /-- What is known of the parameter `Bridge` (R8, R215); constant during a run (log entry 4). -/
  bridge : List BridgeRow
deriving DecidableEq, Repr

/-- The state right after reset with the inputs `p` (R36, R270). -/
def State.resetWith (p : ResetInputs) : State where
  gpr := (((Vector.replicate 32 0#32).set 28 p.gp).set 29 p.sp).set 31 p.entry
  hi := 0#32
  lo := 0#32
  pc := p.entry
  mem := p.initMem
  run := .running
  budget := p.budget
  present := p.present
  bridge := p.bridge

/-- The machine right after reset (R270), with the inputs that `Config.resetInputs` names for want of a
loader (log entries 1 and 2). -/
def State.reset : State := State.resetWith Config.resetInputs

end Sys2Proof.Machine
end

