-- ==== Sys2Proof/Machine/Ops.lean ====
section
/-! DEFINITION. The named operations over memory and registers that every meaning is built from
(20_memory.md §2, 10_state.md §2), the end of an instruction (R226, R227), and the one way a run ends (R250). -/

namespace Sys2Proof

/-! ### Memory -/

/-- The byte at an address; 0 where none is listed (R51, R63). -/
def Memory.read : Memory → Nat → Byte
  | [], _ => 0#8
  | (k, b) :: m, a => if k = a then b else Memory.read m a

/-- The memory without what it lists at an address. -/
def Memory.eraseCell (m : Memory) (a : Nat) : Memory :=
  m.filter fun c => c.1 != a

/-- A cell put in its place by address. -/
def Memory.insertCell : Memory → Nat → Byte → Memory
  | [], a, b => [(a, b)]
  | (k, c) :: m, a, b => if a < k then (a, b) :: (k, c) :: m else (k, c) :: Memory.insertCell m a b

/-- The byte at one address replaced (R52). The form stays canonical: a 0 is not listed. -/
def Memory.write (m : Memory) (a : Nat) (b : Byte) : Memory :=
  if b = 0#8 then m.eraseCell a else (m.eraseCell a).insertCell a b

/-- The canonical form: addresses strictly rising and below 2^32, no byte listed that is 0 (R35, R63). -/
abbrev Memory.wf (m : Memory) : Prop :=
  m.Pairwise (fun x y => x.1 < y.1) ∧ ∀ c ∈ m, c.1 < 2 ^ 32 ∧ c.2 ≠ 0#8

/-- `readByte(addr)` (R51). -/
def Memory.readByte (m : Memory) (a : Word) : Byte := m.read a.toNat

/-- `writeByte(addr, byte)` (R52). -/
def Memory.writeByte (m : Memory) (a : Word) (b : Byte) : Memory := m.write a.toNat b

/-- `MemRead(addr, n)`: the bytes at `addr`, `addr+1`, … `mod 2^32`, the most significant at the lowest
address, as an unsigned number (R55, R57, R58). -/
def Memory.memRead (m : Memory) (a : Word) : Nat → Nat
  | 0 => 0
  | n + 1 => (m.readByte a).toNat * 256 ^ n + m.memRead (a + 1#32) n

/-- `MemWrite(addr, n, v)`: byte `i` of the write is `v[8(n-i)-1 : 8(n-1-i)]`, in ascending order of
address (R56, R57, R58). -/
def Memory.memWrite (m : Memory) (a : Word) : Nat → Nat → Memory
  | 0, _ => m
  | n + 1, v => (m.writeByte a (BitVec.ofNat 8 (v / 256 ^ n))).memWrite (a + 1#32) n v

/-- `readWord(addr)`, which is `MemRead(addr, 4)` (R53, R55). -/
def Memory.readWord (m : Memory) (a : Word) : Word := BitVec.ofNat 32 (m.memRead a 4)

end Sys2Proof

namespace Sys2Proof.Machine

/-! ### The set of present addresses, strict mode only (R243) -/

/-- An address put in its place in a list in ascending order. -/
def insertAddress : List Nat → Nat → List Nat
  | [], a => [a]
  | k :: p, a => if a < k then a :: k :: p else if a = k then k :: p else k :: insertAddress p a

/-- The set with the `n` addresses from `a` on, `mod 2^32`, added: a write adds its addresses (R243). -/
def markPresent (p : List Nat) (a : Word) : Nat → List Nat
  | 0 => p
  | n + 1 => markPresent (insertAddress p a.toNat) (a + 1#32) n

/-- Each of the `n` addresses from `a` on, `mod 2^32`, is in the set. -/
def allPresent (p : List Nat) (a : Word) : Nat → Bool
  | 0 => true
  | n + 1 => p.contains a.toNat && allPresent p (a + 1#32) n

/-- A read of the `n` bytes at `a` raises no `MemoryFault`: always in tolerant mode (R63), and in strict
mode when every byte is present (R243). -/
def State.canRead (s : State) (a : Word) (n : Nat) : Bool :=
  match s.present with
  | none => true
  | some p => allPresent p a n

/-- `MemWrite(addr, n, v)` on the state; in strict mode the addresses become present (R56, R243). -/
def State.store (s : State) (a : Word) (n : Nat) (v : Nat) : State :=
  { s with mem := s.mem.memWrite a n v, present := s.present.map fun p => markPresent p a n }

/-! ### Registers -/

/-- `x[i]`: register 0 reads as 0 (R17, R22). -/
def State.readReg (s : State) (i : RegIdx) : Word :=
  if i = 0 then 0#32 else s.gpr[i]

/-- `x[i] <- v`: a write to register 0 is discarded (R17, R22). -/
def State.writeReg (s : State) (i : RegIdx) (v : Word) : State :=
  if i = 0 then s else { s with gpr := s.gpr.set i v }

/-- `HI <- h ; LO <- l` (R25). -/
def State.writeHiLo (s : State) (h l : Word) : State := { s with hi := h, lo := l }

/-- `HI <- h` (R25, R157). -/
def State.writeHi (s : State) (h : Word) : State := { s with hi := h }

/-- `LO <- l` (R25, R158). -/
def State.writeLo (s : State) (l : Word) : State := { s with lo := l }

/-- The link register, general register 31 (R23). -/
def linkReg : RegIdx := 31

/-! ### The end of an instruction -/

/-- The control-flow directive an instruction hands the control unit (R17, R19). -/
inductive Directive where
  | noJump
  | jumpTo (target : Word)
deriving DecidableEq, Repr

/-- The one update of `pc` that a completed instruction makes, and its unit of budget (R226 to R228). -/
def State.retire (s : State) (d : Directive) : State :=
  { s with
    pc := match d with
      | .noJump => s.pc + 4#32
      | .jumpTo t => t
    budget := s.budget - 1 }

/-- An instruction that writes one general register and does not jump. -/
def State.writeBack (s : State) (rd : RegIdx) (v : Word) : Host.Outcome State Fault Refusal :=
  .next ((s.writeReg rd v).retire .noJump)

/-! ### The halt transition -/

/-- What the core does on any cause, its only "trap entry" (R250): `run` becomes `Halted` with the halt
record, and nothing else changes (R251). There is no return from it; only reset runs the core again
(R252), and no instruction returns from a trap (R218). -/
def State.halt (s : State) (c : Cause) (word : Option Word) : State :=
  { s with run := .halted ⟨c, s.pc, word⟩ }

/-- The instruction word at `pc`, which is the word the running instruction was fetched from (R27, R233). -/
def State.fetchWord (s : State) : Word := s.mem.readWord s.pc

/-- `raise <cause>(pc, word)` (R17, R250): the halt transition of the instruction at `pc`. -/
def State.raise (s : State) (c : Cause) : State := s.halt c (some s.fetchWord)

/-! ### Loads -/

/-- The common form of a load: the `n` bytes at `a` are read, all of them checked before any effect
(R243), and `x[rt]` becomes `f` of the number read. A load into register 0 reads all the same (R199). -/
def State.load (s : State) (a : Word) (n : Nat) (rt : RegIdx) (f : Nat → Word) : Host.Outcome State Fault Refusal :=
  if s.canRead a n then s.writeBack rt (f (s.mem.memRead a n)) else .next (s.raise .memoryFault)

end Sys2Proof.Machine
end

