-- ==== Sys2Proof/Machine/Operands.lean ====
section
/-! DEFINITION. How each operand is built from instruction bits and registers (R86, R166, R167, R190, R205). -/

namespace Sys2Proof.Machine

/-- `simm = sext_16(imm)` (R17, R86). -/
def sext16 (imm : BitVec 16) : Word := imm.signExtend 32

/-- `sext_8(v)` for an 8-bit number (R17). -/
def sext8Nat (v : Nat) : Word := (BitVec.ofNat 8 v).signExtend 32

/-- `zext_8(v)` for an 8-bit number (R17). -/
def zext8Nat (v : Nat) : Word := (BitVec.ofNat 8 v).setWidth 32

/-- `sext_16(v)` for a 16-bit number (R17). -/
def sext16Nat (v : Nat) : Word := (BitVec.ofNat 16 v).signExtend 32

/-- `zext_16(v)` for a 16-bit number (R17). -/
def zext16Nat (v : Nat) : Word := (BitVec.ofNat 16 v).setWidth 32

/-- `imm ++ 0x0000`, the operand of `lui` (R86, R128). -/
def upperImm (imm : BitVec 16) : Word := imm ++ 0#16

/-- The amount of a variable shift, `x[rs] & 0x1F` (R86, R140). -/
def shiftAmount (v : Word) : Nat := (v &&& 0x1F#32).toNat

/-- The target of a taken branch at `pc` (R166). -/
def branchTarget (pc : Word) (imm : BitVec 16) : Word := pc + 4#32 + (sext16 imm <<< 2)

/-- The target of `j` and `jal` at `pc` (R167): the top 4 bits are those of the jump's own address. -/
def jumpTarget (pc : Word) (address : BitVec 26) : Word :=
  (pc &&& 0xF0000000#32) ||| (address.setWidth 32 <<< 2)

/-- The register that `jalr` links: `rd`, or register 31 when the field is 0 (R171). -/
def jalrDest (rd : RegIdx) : RegIdx := if rd = 0 then linkReg else rd

/-- The effective address `x[rs] + sext_16(imm)` of every load and store (R190, R205). -/
def State.effAddr (s : State) (rs : RegIdx) (imm : BitVec 16) : Word := s.readReg rs + sext16 imm

/-- `off = addr mod 4` (R205). -/
def wordOffset (a : Word) : Nat := a.toNat % 4

/-- `base = addr - off` (R205). -/
def wordBase (a : Word) : Word := a - BitVec.ofNat 32 (wordOffset a)

end Sys2Proof.Machine
end

