-- ==== Sys2Proof/Machine/Alu.lean ====
section
/-! DEFINITION. The 18 ALU instructions (40_alu.md). Each computes one 32-bit result, writes it to its destination
register and does not jump (R110). -/

namespace Sys2Proof.Machine

/-- `x[rd] <- (x[rs] + x[rt]) mod 2^32` (R111); overflow is neither detected nor trapped (R129). -/
def execAdd (rd rs rt : RegIdx) (s : State) : Host.Outcome State Fault Refusal :=
  s.writeBack rd (s.readReg rs + s.readReg rt)

/-- `x[rd] <- (x[rs] + x[rt]) mod 2^32` (R112). -/
def execAddu (rd rs rt : RegIdx) (s : State) : Host.Outcome State Fault Refusal :=
  s.writeBack rd (s.readReg rs + s.readReg rt)

/-- `x[rd] <- (x[rs] - x[rt]) mod 2^32` (R113); overflow is neither detected nor trapped (R129). -/
def execSub (rd rs rt : RegIdx) (s : State) : Host.Outcome State Fault Refusal :=
  s.writeBack rd (s.readReg rs - s.readReg rt)

/-- `x[rd] <- (x[rs] - x[rt]) mod 2^32` (R114). -/
def execSubu (rd rs rt : RegIdx) (s : State) : Host.Outcome State Fault Refusal :=
  s.writeBack rd (s.readReg rs - s.readReg rt)

/-- `x[rd] <- x[rs] & x[rt]` (R115). -/
def execAnd (rd rs rt : RegIdx) (s : State) : Host.Outcome State Fault Refusal :=
  s.writeBack rd (s.readReg rs &&& s.readReg rt)

/-- `x[rd] <- x[rs] | x[rt]` (R116). -/
def execOr (rd rs rt : RegIdx) (s : State) : Host.Outcome State Fault Refusal :=
  s.writeBack rd (s.readReg rs ||| s.readReg rt)

/-- `x[rd] <- x[rs] ^ x[rt]` (R117). -/
def execXor (rd rs rt : RegIdx) (s : State) : Host.Outcome State Fault Refusal :=
  s.writeBack rd (s.readReg rs ^^^ s.readReg rt)

/-- `x[rd] <- ~(x[rs] | x[rt])` (R118). -/
def execNor (rd rs rt : RegIdx) (s : State) : Host.Outcome State Fault Refusal :=
  s.writeBack rd (~~~(s.readReg rs ||| s.readReg rt))

/-- `x[rd] <- if s(x[rs]) < s(x[rt]) then 1 else 0` (R119). -/
def execSlt (rd rs rt : RegIdx) (s : State) : Host.Outcome State Fault Refusal :=
  s.writeBack rd (flagWord (lessSigned (s.readReg rs) (s.readReg rt)))

/-- `x[rd] <- if u(x[rs]) < u(x[rt]) then 1 else 0` (R120). -/
def execSltu (rd rs rt : RegIdx) (s : State) : Host.Outcome State Fault Refusal :=
  s.writeBack rd (flagWord (lessUnsigned (s.readReg rs) (s.readReg rt)))

/-- `x[rt] <- (x[rs] + simm) mod 2^32` (R121); no overflow trap (R129). -/
def execAddi (rt rs : RegIdx) (imm : BitVec 16) (s : State) : Host.Outcome State Fault Refusal :=
  s.writeBack rt (s.readReg rs + sext16 imm)

/-- `x[rt] <- (x[rs] + simm) mod 2^32` (R122). -/
def execAddiu (rt rs : RegIdx) (imm : BitVec 16) (s : State) : Host.Outcome State Fault Refusal :=
  s.writeBack rt (s.readReg rs + sext16 imm)

/-- `x[rt] <- if s(x[rs]) < s(simm) then 1 else 0` (R123). -/
def execSlti (rt rs : RegIdx) (imm : BitVec 16) (s : State) : Host.Outcome State Fault Refusal :=
  s.writeBack rt (flagWord (lessSigned (s.readReg rs) (sext16 imm)))

/-- `x[rt] <- if u(x[rs]) < u(simm) then 1 else 0` (R124): the immediate is sign-extended first. -/
def execSltiu (rt rs : RegIdx) (imm : BitVec 16) (s : State) : Host.Outcome State Fault Refusal :=
  s.writeBack rt (flagWord (lessUnsigned (s.readReg rs) (sext16 imm)))

/-- `x[rt] <- x[rs] & simm` (R125): the immediate is sign-extended, not zero-extended (90_conflicts.md C5). -/
def execAndi (rt rs : RegIdx) (imm : BitVec 16) (s : State) : Host.Outcome State Fault Refusal :=
  s.writeBack rt (s.readReg rs &&& sext16 imm)

/-- `x[rt] <- x[rs] | simm` (R126): the immediate is sign-extended, not zero-extended (90_conflicts.md C5). -/
def execOri (rt rs : RegIdx) (imm : BitVec 16) (s : State) : Host.Outcome State Fault Refusal :=
  s.writeBack rt (s.readReg rs ||| sext16 imm)

/-- `x[rt] <- x[rs] ^ simm` (R127): the immediate is sign-extended, not zero-extended (90_conflicts.md C5). -/
def execXori (rt rs : RegIdx) (imm : BitVec 16) (s : State) : Host.Outcome State Fault Refusal :=
  s.writeBack rt (s.readReg rs ^^^ sext16 imm)

/-- `x[rt] <- imm ++ 0x0000` (R128). -/
def execLui (rt : RegIdx) (imm : BitVec 16) (s : State) : Host.Outcome State Fault Refusal :=
  s.writeBack rt (upperImm imm)

end Sys2Proof.Machine
end

