-- ==== Sys2Proof/Machine/Jump.lean ====
section
/-! DEFINITION. The 12 jump and branch instructions (43_jump_branch.md). There is no delay slot and the link is
`pc + 4` (R165). -/

namespace Sys2Proof.Machine

/-- A branch: to its target when the condition holds, to the next instruction when not (R165, R166). -/
def State.branchIf (s : State) (c : Bool) (imm : BitVec 16) : Host.Outcome State Fault Refusal :=
  .next (s.retire (if c then .jumpTo (branchTarget s.pc imm) else .noJump))

/-- A branch that links: register 31 takes `pc + 4`, only when the branch is taken (R178, R179). -/
def State.branchLinkIf (s : State) (c : Bool) (imm : BitVec 16) : Host.Outcome State Fault Refusal :=
  if c then .next ((s.writeReg linkReg (s.pc + 4#32)).retire (.jumpTo (branchTarget s.pc imm)))
  else .next (s.retire .noJump)

/-- `pc <- (pc & 0xF0000000) | (address << 2)` (R168). -/
def execJ (address : BitVec 26) (s : State) : Host.Outcome State Fault Refusal :=
  .next (s.retire (.jumpTo (jumpTarget s.pc address)))

/-- `x[31] <- pc + 4 ; pc <- (pc & 0xF0000000) | (address << 2)` (R169). -/
def execJal (address : BitVec 26) (s : State) : Host.Outcome State Fault Refusal :=
  .next ((s.writeReg linkReg (s.pc + 4#32)).retire (.jumpTo (jumpTarget s.pc address)))

/-- `pc <- x[rs]`, all 32 bits of it (R170, R180). -/
def execJr (rs : RegIdx) (s : State) : Host.Outcome State Fault Refusal :=
  .next (s.retire (.jumpTo (s.readReg rs)))

/-- `x[d] <- pc + 4 ; pc <- x[rs]`, where `d` is `rd`, or 31 when the field is 0, and `x[rs]` is read before the
link is written (R171). -/
def execJalr (rd rs : RegIdx) (s : State) : Host.Outcome State Fault Refusal :=
  .next ((s.writeReg (jalrDest rd) (s.pc + 4#32)).retire (.jumpTo (s.readReg rs)))

/-- `if x[rs] == x[rt] then pc <- target` (R172). -/
def execBeq (rs rt : RegIdx) (imm : BitVec 16) (s : State) : Host.Outcome State Fault Refusal :=
  s.branchIf (condEq (s.readReg rs) (s.readReg rt)) imm

/-- `if x[rs] != x[rt] then pc <- target` (R173). -/
def execBne (rs rt : RegIdx) (imm : BitVec 16) (s : State) : Host.Outcome State Fault Refusal :=
  s.branchIf (!condEq (s.readReg rs) (s.readReg rt)) imm

/-- `if s(x[rs]) <= 0 then pc <- target` (R174). -/
def execBlez (rs : RegIdx) (imm : BitVec 16) (s : State) : Host.Outcome State Fault Refusal :=
  s.branchIf (condLez (s.readReg rs)) imm

/-- `if s(x[rs]) > 0 then pc <- target` (R175). -/
def execBgtz (rs : RegIdx) (imm : BitVec 16) (s : State) : Host.Outcome State Fault Refusal :=
  s.branchIf (condGtz (s.readReg rs)) imm

/-- `if s(x[rs]) < 0 then pc <- target` (R176). -/
def execBltz (rs : RegIdx) (imm : BitVec 16) (s : State) : Host.Outcome State Fault Refusal :=
  s.branchIf (condLtz (s.readReg rs)) imm

/-- `if s(x[rs]) >= 0 then pc <- target` (R177). -/
def execBgez (rs : RegIdx) (imm : BitVec 16) (s : State) : Host.Outcome State Fault Refusal :=
  s.branchIf (condGez (s.readReg rs)) imm

/-- `if s(x[rs]) < 0 then x[31] <- pc + 4 ; pc <- target` (R178), the condition tested on the old registers. -/
def execBltzal (rs : RegIdx) (imm : BitVec 16) (s : State) : Host.Outcome State Fault Refusal :=
  s.branchLinkIf (condLtz (s.readReg rs)) imm

/-- `if s(x[rs]) >= 0 then x[31] <- pc + 4 ; pc <- target` (R179), the condition tested on the old registers. -/
def execBgezal (rs : RegIdx) (imm : BitVec 16) (s : State) : Host.Outcome State Fault Refusal :=
  s.branchLinkIf (condGez (s.readReg rs)) imm

end Sys2Proof.Machine
end

