-- ==== Sys2Proof/Machine/LoadStore.lean ====
section
/-! DEFINITION. The 8 byte, halfword and word loads and stores (44_load_store.md): one addressing mode (R190),
big-endian (R58), no alignment (R59), addresses `mod 2^32` (R57). -/

namespace Sys2Proof.Machine

/-- `x[rt] <- sext_8(MemRead(addr, 1))` (R191). -/
def execLb (rt : RegIdx) (imm : BitVec 16) (rs : RegIdx) (s : State) : Host.Outcome State Fault Refusal :=
  s.load (s.effAddr rs imm) 1 rt sext8Nat

/-- `x[rt] <- zext_8(MemRead(addr, 1))` (R192). -/
def execLbu (rt : RegIdx) (imm : BitVec 16) (rs : RegIdx) (s : State) : Host.Outcome State Fault Refusal :=
  s.load (s.effAddr rs imm) 1 rt zext8Nat

/-- `x[rt] <- sext_16(MemRead(addr, 2))`, at any address (R193). -/
def execLh (rt : RegIdx) (imm : BitVec 16) (rs : RegIdx) (s : State) : Host.Outcome State Fault Refusal :=
  s.load (s.effAddr rs imm) 2 rt sext16Nat

/-- `x[rt] <- zext_16(MemRead(addr, 2))`, at any address (R194). -/
def execLhu (rt : RegIdx) (imm : BitVec 16) (rs : RegIdx) (s : State) : Host.Outcome State Fault Refusal :=
  s.load (s.effAddr rs imm) 2 rt zext16Nat

/-- `x[rt] <- MemRead(addr, 4)`, at any address (R195). -/
def execLw (rt : RegIdx) (imm : BitVec 16) (rs : RegIdx) (s : State) : Host.Outcome State Fault Refusal :=
  s.load (s.effAddr rs imm) 4 rt (BitVec.ofNat 32)

/-- `MemWrite(addr, 1, x[rt][7:0])` (R196). -/
def execSb (rt : RegIdx) (imm : BitVec 16) (rs : RegIdx) (s : State) : Host.Outcome State Fault Refusal :=
  .next ((s.store (s.effAddr rs imm) 1 ((s.readReg rt).extractLsb' 0 8).toNat).retire .noJump)

/-- `MemWrite(addr, 2, x[rt][15:0])`, at any address (R197). -/
def execSh (rt : RegIdx) (imm : BitVec 16) (rs : RegIdx) (s : State) : Host.Outcome State Fault Refusal :=
  .next ((s.store (s.effAddr rs imm) 2 ((s.readReg rt).extractLsb' 0 16).toNat).retire .noJump)

/-- `MemWrite(addr, 4, x[rt])`, at any address (R198). -/
def execSw (rt : RegIdx) (imm : BitVec 16) (rs : RegIdx) (s : State) : Host.Outcome State Fault Refusal :=
  .next ((s.store (s.effAddr rs imm) 4 (s.readReg rt).toNat).retire .noJump)

end Sys2Proof.Machine
end

