-- ==== Sys2Proof/Machine/MulDiv.lean ====
section
/-! DEFINITION. The 8 multiply, divide and HI/LO move instructions (42_muldiv.md). The arithmetic is exact on
integers and narrowed at the end (R150); nothing waits for a result (R160). -/

namespace Sys2Proof.Machine

/-- `HI <- p[63:32]`, `LO <- p[31:0]` of a 64-bit product `p` (R159), and no jump. -/
def State.writeProduct (s : State) (p : BitVec 64) : Host.Outcome State Fault Refusal :=
  .next ((s.writeHiLo (p.extractLsb' 32 32) (p.extractLsb' 0 32)).retire .noJump)

/-- `LO` takes the quotient and `HI` the remainder (R159), each `mod 2^32`, and no jump. -/
def State.writeQuotient (s : State) (q r : Int) : Host.Outcome State Fault Refusal :=
  .next ((s.writeHiLo (BitVec.ofInt 32 r) (BitVec.ofInt 32 q)).retire .noJump)

/-- `p = (s(x[rs]) * s(x[rt])) mod 2^64 ; HI <- p[63:32] ; LO <- p[31:0]` (R151). -/
def execMult (rs rt : RegIdx) (s : State) : Host.Outcome State Fault Refusal :=
  s.writeProduct (BitVec.ofInt 64 ((s.readReg rs).toInt * (s.readReg rt).toInt))

/-- `p = u(x[rs]) * u(x[rt]) ; HI <- p[63:32] ; LO <- p[31:0]` (R152). -/
def execMultu (rs rt : RegIdx) (s : State) : Host.Outcome State Fault Refusal :=
  s.writeProduct (BitVec.ofNat 64 ((s.readReg rs).toNat * (s.readReg rt).toNat))

/-- Signed division, the quotient rounded toward zero, the remainder with the dividend's sign (R153). A zero
divisor raises `ArithmeticEdgeCase` before anything is written (R242). -/
def execDiv (rs rt : RegIdx) (s : State) : Host.Outcome State Fault Refusal :=
  if s.readReg rt = 0#32 then .next (s.raise .arithmeticEdgeCase)
  else s.writeQuotient (Int.tdiv (s.readReg rs).toInt (s.readReg rt).toInt) (Int.tmod (s.readReg rs).toInt (s.readReg rt).toInt)

/-- Unsigned division (R154). A zero divisor raises `ArithmeticEdgeCase` before anything is written (R242). -/
def execDivu (rs rt : RegIdx) (s : State) : Host.Outcome State Fault Refusal :=
  if s.readReg rt = 0#32 then .next (s.raise .arithmeticEdgeCase)
  else s.writeQuotient ((s.readReg rs).toNat / (s.readReg rt).toNat : Nat) ((s.readReg rs).toNat % (s.readReg rt).toNat : Nat)

/-- `x[rd] <- HI` (R155). -/
def execMfhi (rd : RegIdx) (s : State) : Host.Outcome State Fault Refusal :=
  s.writeBack rd s.hi

/-- `x[rd] <- LO` (R156). -/
def execMflo (rd : RegIdx) (s : State) : Host.Outcome State Fault Refusal :=
  s.writeBack rd s.lo

/-- `HI <- x[rs]`; `LO` stays valid (R157). -/
def execMthi (rs : RegIdx) (s : State) : Host.Outcome State Fault Refusal :=
  .next ((s.writeHi (s.readReg rs)).retire .noJump)

/-- `LO <- x[rs]` (R158). -/
def execMtlo (rs : RegIdx) (s : State) : Host.Outcome State Fault Refusal :=
  .next ((s.writeLo (s.readReg rs)).retire .noJump)

end Sys2Proof.Machine
end

