-- ==== Sys2Proof/Machine/Shift.lean ====
section
/-! DEFINITION. The 6 shift instructions (41_shift.md). The value shifted is `x[rt]`, the result goes to `x[rd]`, and
the amount is 0 to 31 (R140). -/

namespace Sys2Proof.Machine

/-- `x[rd] <- (x[rt] << shamt) mod 2^32` (R141). -/
def execSll (rd rt : RegIdx) (shamt : BitVec 5) (s : State) : Host.Outcome State Fault Refusal :=
  s.writeBack rd (s.readReg rt <<< shamt.toNat)

/-- `x[rd] <- u(x[rt]) >> shamt`, zero fill (R142). -/
def execSrl (rd rt : RegIdx) (shamt : BitVec 5) (s : State) : Host.Outcome State Fault Refusal :=
  s.writeBack rd (s.readReg rt >>> shamt.toNat)

/-- `x[rd] <- floor(s(x[rt]) / 2^shamt) mod 2^32`, sign fill (R143). -/
def execSra (rd rt : RegIdx) (shamt : BitVec 5) (s : State) : Host.Outcome State Fault Refusal :=
  s.writeBack rd ((s.readReg rt).sshiftRight shamt.toNat)

/-- `x[rd] <- (x[rt] << (x[rs] & 0x1F)) mod 2^32` (R144). -/
def execSllv (rd rt rs : RegIdx) (s : State) : Host.Outcome State Fault Refusal :=
  s.writeBack rd (s.readReg rt <<< shiftAmount (s.readReg rs))

/-- `x[rd] <- u(x[rt]) >> (x[rs] & 0x1F)`, zero fill (R145). -/
def execSrlv (rd rt rs : RegIdx) (s : State) : Host.Outcome State Fault Refusal :=
  s.writeBack rd (s.readReg rt >>> shiftAmount (s.readReg rs))

/-- `x[rd] <- floor(s(x[rt]) / 2^(x[rs] & 0x1F)) mod 2^32`, sign fill (R146). -/
def execSrav (rd rt rs : RegIdx) (s : State) : Host.Outcome State Fault Refusal :=
  s.writeBack rd ((s.readReg rt).sshiftRight (shiftAmount (s.readReg rs)))

end Sys2Proof.Machine
end

