-- ==== Sys2Proof/Machine/System.lean ====
section
/-! DEFINITION. The 2 system instructions (46_system.md): `syscall`, which asks the bridge, and `break`, which ends
the run. -/

namespace Sys2Proof.Machine

/-- The row answers the query: each part it gives is the query's. -/
def rowAnswers (r : BridgeRow) (q : BridgeQuery) : Bool :=
  r.callNumber.all (· == q.callNumber) && r.args.all (· == (q.arg0, q.arg1, q.arg2, q.arg3)) && r.mem.all (· == q.mem)

/-- The bridge's answer (R215): that of the first known row for the query, else the oracle's (log entry 4). -/
def askBridge : List BridgeRow → BridgeQuery → BridgeAnswer
  | [], q => Config.bridge q
  | r :: rows, q => if rowAnswers r q then r.answer else askBridge rows q

/-- What a `syscall` in this state hands the bridge (R215): the number in `x[2]`, the arguments in `x[4]` to
`x[7]`, and the memory. -/
def State.bridgeQuery (s : State) : BridgeQuery where
  callNumber := s.readReg 2
  arg0 := s.readReg 4
  arg1 := s.readReg 5
  arg2 := s.readReg 6
  arg3 := s.readReg 7
  mem := s.mem

/-- The bridge's writes to memory, in order (R215). -/
def State.storeBytes (s : State) : List (Word × Byte) → State
  | [] => s
  | (a, b) :: ws => (s.store a 1 b.toNat).storeBytes ws

/-- What the core does with the bridge's answer (R215, R246). -/
def State.resume (s : State) : BridgeAnswer → State
  | .ret v ws => ((s.storeBytes ws).writeReg 2 v).retire .noJump
  | .exit => s.raise .exit

/-- Environment call (R215): the bridge is asked once; on `Return(v, mem')` memory becomes `mem'` and `x[2]` becomes
`v`; on `Exit` the run ends and nothing else changes. -/
def execSyscall (s : State) : Host.Outcome State Fault Refusal :=
  .next (s.resume (askBridge s.bridge s.bridgeQuery))

/-- `break` (R216): raises `Breakpoint(pc, word)`, always. -/
def execBrk (s : State) : Host.Outcome State Fault Refusal :=
  .next (s.raise .breakpoint)

end Sys2Proof.Machine
end

