-- ==== Sys2Proof/Machine/Unaligned.lean ====
section
/-! DEFINITION. The 4 partial-word loads and stores (45_unaligned.md): with `off = addr mod 4` and `base = addr - off`,
all bytes touched lie in the aligned word at `base` (R205). -/

namespace Sys2Proof.Machine

/-- The register after `lwl` at offset `off` (R206): the `off + 1` bytes read, `v`, on top, and the low
`3 - off` bytes of the old value kept. -/
def mergeLeft (old : Word) (off v : Nat) : Word :=
  (BitVec.ofNat 32 v <<< (8 * (3 - off))) ||| (old &&& BitVec.ofNat 32 (2 ^ (8 * (3 - off)) - 1))

/-- The register after `lwr` at offset `off` (R207): the `4 - off` bytes read, `v`, at the bottom, and the
high `off` bytes of the old value kept. -/
def mergeRight (old : Word) (off v : Nat) : Word :=
  (old &&& ~~~(BitVec.ofNat 32 (2 ^ (8 * (4 - off)) - 1))) ||| BitVec.ofNat 32 v

/-- `x[rt][31 : 32 - 8n]` with `n = off + 1`: what `swl` stores (R208). -/
def storeLeft (w : Word) (off : Nat) : Nat := w.toNat / 2 ^ (8 * (3 - off))

/-- `x[rt][8n - 1 : 0]` with `n = 4 - off`: what `swr` stores (R209). -/
def storeRight (w : Word) (off : Nat) : Nat := w.toNat % 2 ^ (8 * (4 - off))

/-- Load word left (R206): the bytes `base` to `addr` into the top of `x[rt]`. This is the source's algorithm and not
that of MIPS I (90_conflicts.md C6). -/
def execLwl (rt : RegIdx) (imm : BitVec 16) (rs : RegIdx) (s : State) : Host.Outcome State Fault Refusal :=
  s.load (wordBase (s.effAddr rs imm)) (wordOffset (s.effAddr rs imm) + 1) rt (mergeLeft (s.readReg rt) (wordOffset (s.effAddr rs imm)))

/-- Load word right (R207): the bytes `addr` to `base + 3` into the bottom of `x[rt]` (90_conflicts.md C6). -/
def execLwr (rt : RegIdx) (imm : BitVec 16) (rs : RegIdx) (s : State) : Host.Outcome State Fault Refusal :=
  s.load (s.effAddr rs imm) (4 - wordOffset (s.effAddr rs imm)) rt (mergeRight (s.readReg rt) (wordOffset (s.effAddr rs imm)))

/-- Store word left (R208): the `off + 1` most significant bytes of `x[rt]` into `base` to `addr`. -/
def execSwl (rt : RegIdx) (imm : BitVec 16) (rs : RegIdx) (s : State) : Host.Outcome State Fault Refusal :=
  .next ((s.store (wordBase (s.effAddr rs imm)) (wordOffset (s.effAddr rs imm) + 1) (storeLeft (s.readReg rt) (wordOffset (s.effAddr rs imm)))).retire .noJump)

/-- Store word right (R209): the `4 - off` least significant bytes of `x[rt]` into `addr` to `base + 3`. -/
def execSwr (rt : RegIdx) (imm : BitVec 16) (rs : RegIdx) (s : State) : Host.Outcome State Fault Refusal :=
  .next ((s.store (s.effAddr rs imm) (4 - wordOffset (s.effAddr rs imm)) (storeRight (s.readReg rt) (wordOffset (s.effAddr rs imm)))).retire .noJump)

end Sys2Proof.Machine
end

