-- ==== Sys2Proof/Machine/ControlUnit.lean ====
section
/-! DEFINITION. The control unit (47_control_unit.md): the checks of one step in their order (R249), the
observation of a state between steps (R231), and the placing of an instruction where the next step
fetches it. -/

namespace Sys2Proof.Machine

/-- Execute the word that was fetched at `pc` (R226): the instruction it selects, or the
`UnimplementedOpcode` fault where it selects none (R217, R241). -/
def State.execWord (s : State) (word : Word) : Host.Outcome State Fault Refusal :=
  match decodeWord word with
  | some i => exec i s
  | none => .next (s.raise .unimplementedOpcode)

/-- Fetch and execute (R226, R233). In strict mode a byte of the instruction that is not present raises
`MemoryFault`, and the halt record then has no word (R240, R243). -/
def State.fetchAndExecute (s : State) : Host.Outcome State Fault Refusal :=
  if s.canRead s.pc 4 then s.execWord s.fetchWord else .next (s.halt .memoryFault none)

/-- One step of the control unit (R226): a halted core changes nothing (R225); a budget of 0 ends the run
before the fetch (R228, R245); else fetch, decode and execute. -/
def State.control (s : State) : Host.Outcome State Fault Refusal :=
  match s.run with
  | .halted _ => .next s
  | .running =>
    if s.budget = 0 then .next (s.halt .instructionBudgetExceeded none) else s.fetchAndExecute

/-- The state with a word stored at `pc`, big-endian, and such that the next step fetches and runs it: the
core is running and has at least one unit of budget. -/
def State.placeWord (s : State) (word : Word) : State :=
  { s.store s.pc 4 word.toNat with run := .running, budget := max s.budget 1 }

/-- What the control unit may expose to an observer between steps (R15, R231): the 34 slots of the register
file, general registers first, then `HI` and `LO` (R21), and `pc`. -/
structure Snapshot where
  slots : Vector Word 34
  pc : Word
deriving DecidableEq, Repr

/-- The snapshot of a state (R231); it reads and never writes. -/
def State.snapshot (s : State) : Snapshot where
  slots := Vector.ofFn fun k : Fin 34 =>
    if h : k.val < 32 then s.readReg ⟨k.val, h⟩ else if k.val = 32 then s.hi else s.lo
  pc := s.pc

end Sys2Proof.Machine
end

