-- ==== Sys2Proof/Machine/Step.lean ====
section
/-! DEFINITION. One step of the machine (R226), and an instruction placed where the next step fetches it. -/

namespace Sys2Proof.Machine

/-- One step (R226). It always answers a next state: every stop of the core is a halted state (R250). -/
def step (s : State) : Host.Outcome State Fault Refusal := s.control

/-- The state in which the next step fetches and runs the instruction whose bits are `w`, numbered as the
opcode table numbers them: the word is stored at `pc`, and the core is running with budget left. -/
def State.withFetchWord (s : State) (nbits w : Nat) : State :=
  s.placeWord (BitVec.ofNat 32 (w % 2 ^ nbits))

end Sys2Proof.Machine
end

