-- ==== Sys2Proof/Machine/Boot.lean ====
section
/-! DEFINITION. Boot and the loader's side of the reset boundary (R247, R270 to R273). The loader itself is
outside the block (R5); this is what the core is given from what the loader yields. -/

namespace Sys2Proof.Machine

/-- A segment of an executable image, as the loader's contract names its fields (R271). -/
structure Segment where
  fileOffset : Nat
  fileLength : Nat
  loadAddress : Word
  memorySize : Nat
  protectionFlags : Word
deriving DecidableEq, Repr

/-- An executable image (R271), with the image file's bytes beside the fields that point into them. -/
structure ExecutableImage where
  entryAddress : Word
  globalPointer : Word
  stackPointer : Word
  segments : List Segment
  file : List Byte
deriving DecidableEq, Repr

/-- What the loader yields: an image, or a load failure (R247, R271). -/
inductive LoaderResult where
  | image (e : ExecutableImage)
  | failure
deriving DecidableEq, Repr

/-- The bytes a segment puts in memory, in ascending order of address: its `fileLength` bytes from the file
and 0 for the rest of its `memorySize` (R271). A byte past the end of the file is 0 (log entry 8). -/
def segmentBytes (file : List Byte) (g : Segment) : List Byte :=
  ((List.range g.fileLength).map fun k => file.getD (g.fileOffset + k) 0#8) ++
    List.replicate (g.memorySize - g.fileLength) 0#8

/-- Bytes placed from an address on, `mod 2^32`. -/
def placeBytes (m : Memory) (a : Word) : List Byte → Memory
  | [] => m
  | b :: bs => placeBytes (m.writeByte a b) (a + 1#32) bs

/-- `INIT_MEM`: every segment placed in the sequence's order, so that a later one overwrites an earlier one
(R271). Protection flags have no effect (R64, R271). -/
def imageMemory (e : ExecutableImage) : Memory :=
  e.segments.foldl (fun m g => placeBytes m g.loadAddress (segmentBytes e.file g)) []

/-- The addresses that the segments cover, which are present at reset in strict mode (R243). -/
def imagePresent (e : ExecutableImage) : List Nat :=
  e.segments.foldl (fun p g => markPresent p g.loadAddress g.memorySize) []

/-- The reset inputs that an image gives, with the budget of the command line, the choice of `STRICT_MEM`
and the bridge (R8, R11, R271). -/
def ExecutableImage.resetInputs (e : ExecutableImage) (budget : Nat) (strict : Bool) (bridge : List BridgeRow) :
    ResetInputs where
  entry := e.entryAddress
  gp := e.globalPointer
  sp := e.stackPointer
  initMem := imageMemory e
  budget := budget
  present := if strict then some (imagePresent e) else none
  bridge := bridge

/-- Start-up: the state after reset from an image; after a load failure reset never happens and there is no
state to step from (R247, R272). -/
def boot (l : LoaderResult) (budget : Nat) (strict : Bool) (bridge : List BridgeRow) : Option State :=
  match l with
  | .image e => some (State.resetWith (e.resetInputs budget strict bridge))
  | .failure => none

/-- Reset again, of a running or halted core: nothing survives (R252, R273). -/
def State.resetAgain (_ : State) (p : ResetInputs) : State := State.resetWith p

end Sys2Proof.Machine
end

