-- ==== Sys2Proof/Safety.lean ====
section
/-! DEFINITION. The terms in which claims about the machine are made: what a word's fields are, what an
outcome of `exec` does to the state and leaves alone, what stops a run, and the invariant of the machine.
They are written from the spec's words and not from the meanings' definitions. -/

namespace Sys2Proof

/-! ### The fields of a word, by arithmetic (R16, R82 to R84) -/

/-- `w[lo + width - 1 : lo]` as an unsigned number (R16). -/
def fieldNat (w : Word) (lo width : Nat) : Nat := w.toNat / 2 ^ lo % 2 ^ width

/-- The register that the 5 bits from `lo` on name. -/
def regField (w : Word) (lo : Nat) : RegIdx := ⟨fieldNat w lo 5, Nat.mod_lt _ (by decide)⟩

/-- Bits 25:21. -/
def rsOf (w : Word) : RegIdx := regField w 21

/-- Bits 20:16. -/
def rtOf (w : Word) : RegIdx := regField w 16

/-- Bits 15:11. -/
def rdOf (w : Word) : RegIdx := regField w 11

/-- Bits 10:6. -/
def shamtOf (w : Word) : BitVec 5 := BitVec.ofNat 5 (fieldNat w 6 5)

/-- Bits 15:0. -/
def immOf (w : Word) : BitVec 16 := BitVec.ofNat 16 (fieldNat w 0 16)

/-- Bits 25:0. -/
def addressOf (w : Word) : BitVec 26 := BitVec.ofNat 26 (fieldNat w 0 26)

/-- Every word with opcode 0 and this funct is that instruction, whatever its other bits (R88, R90). -/
def SpecialWords (funct : Nat) (f : Word → Instr) : Prop :=
  ∀ w : Word, fieldNat w 26 6 = 0 → fieldNat w 0 6 = funct → decodeWord w = some (f w)

/-- Every word with opcode 1 and this `rt` selector is that instruction (R89, R90). -/
def RegimmWords (selector : Nat) (f : Word → Instr) : Prop :=
  ∀ w : Word, fieldNat w 26 6 = 1 → fieldNat w 16 5 = selector → decodeWord w = some (f w)

/-- Every word with this opcode is that instruction, whatever its other bits (R87, R90). -/
def OpcodeWords (opcode : Nat) (f : Word → Instr) : Prop :=
  ∀ w : Word, fieldNat w 26 6 = opcode → decodeWord w = some (f w)

/-! ### Bytes -/

/-- Byte `k` of a word, byte 0 the most significant (R205). -/
def byteOf (v : Word) (k : Nat) : Byte := v.extractLsb' (8 * (3 - k)) 8

/-- `mem[a] ++ mem[a+1]` (R193). -/
def halfAt (m : Memory) (a : Word) : BitVec 16 := m.readByte a ++ m.readByte (a + 1#32)

/-- `mem[a] ++ mem[a+1] ++ mem[a+2] ++ mem[a+3]` (R53). -/
def wordAt (m : Memory) (a : Word) : Word :=
  m.readByte a ++ m.readByte (a + 1#32) ++ m.readByte (a + 2#32) ++ m.readByte (a + 3#32)

namespace Machine

/-! ### What changes and what does not -/

/-- The general registers after are those before, but for `rd`, which holds `v`; register 0 reads 0, also
when it is `rd` (R22). -/
def RegsUpdated (s t : State) (rd : RegIdx) (v : Word) : Prop :=
  ∀ r, t.readReg r = if r = 0 then 0#32 else if r = rd then v else s.readReg r

/-- No general register changes. -/
def RegsKept (s t : State) : Prop := ∀ r, t.readReg r = s.readReg r

/-- `HI` and `LO` do not change. -/
def HiLoKept (s t : State) : Prop := t.hi = s.hi ∧ t.lo = s.lo

/-- No byte of memory changes, and in strict mode no address becomes or stops being present. -/
def MemKept (s t : State) : Prop :=
  (∀ a : Word, t.mem.readByte a = s.mem.readByte a) ∧ t.present = s.present

/-- In strict mode the `n` addresses from `a` on become present and no other changes; the mode stays (R243). -/
def PresentAdded (s t : State) (a : Word) (n : Nat) : Prop :=
  (s.present = none → t.present = none) ∧
  ∀ p, s.present = some p → ∃ q, t.present = some q ∧
    ∀ x : Word, x.toNat ∈ q ↔ x.toNat ∈ p ∨ (x - a).toNat < n

/-- The `n` bytes from `a` on, `mod 2^32`, become `f 0`, `f 1`, …, and every other byte reads as before. -/
def MemStored (s t : State) (a : Word) (n : Nat) (f : Nat → Byte) : Prop :=
  (∀ x : Word, t.mem.readByte x = if (x - a).toNat < n then f (x - a).toNat else s.mem.readByte x) ∧
  PresentAdded s t a n

/-- The instruction completed with `pc` becoming `p`: one unit of budget is used and the run state and the
bridge are as before (R226 to R228). -/
def Completed (s t : State) (p : Word) : Prop :=
  t.pc = p ∧ t.budget = s.budget - 1 ∧ t.run = s.run ∧ t.bridge = s.bridge

/-- The outcome is a next state in which `rd` holds a value with the property `P` and nothing else has
changed, and `pc` has advanced by 4. -/
def WritesReg (o : Host.Outcome State Fault Refusal) (s : State) (rd : RegIdx) (P : Word → Prop) : Prop :=
  ∃ t v, o = .next t ∧ P v ∧ RegsUpdated s t rd v ∧ HiLoKept s t ∧ MemKept s t ∧ Completed s t (s.pc + 4#32)

/-- The outcome is a next state in which `HI` and `LO` hold values with the property `P` and nothing else
has changed, and `pc` has advanced by 4. -/
def WritesHiLo (o : Host.Outcome State Fault Refusal) (s : State) (P : Word → Word → Prop) : Prop :=
  ∃ t, o = .next t ∧ P t.hi t.lo ∧ RegsKept s t ∧ MemKept s t ∧ Completed s t (s.pc + 4#32)

/-- The outcome is a next state in which `pc` is `p` and nothing else has changed. -/
def JumpsTo (o : Host.Outcome State Fault Refusal) (s : State) (p : Word) : Prop :=
  ∃ t, o = .next t ∧ RegsKept s t ∧ HiLoKept s t ∧ MemKept s t ∧ Completed s t p

/-- The outcome is a next state in which `pc` is `p`, register `rd` holds the address after the instruction,
and nothing else has changed. -/
def LinksTo (o : Host.Outcome State Fault Refusal) (s : State) (rd : RegIdx) (p : Word) : Prop :=
  ∃ t, o = .next t ∧ RegsUpdated s t rd (s.pc + 4#32) ∧ HiLoKept s t ∧ MemKept s t ∧ Completed s t p

/-- The outcome is a next state in which the `n` bytes from `a` on are `f 0`, `f 1`, …, nothing else has
changed, and `pc` has advanced by 4. -/
def Stores (o : Host.Outcome State Fault Refusal) (s : State) (a : Word) (n : Nat) (f : Nat → Byte) : Prop :=
  ∃ t, o = .next t ∧ MemStored s t a n f ∧ RegsKept s t ∧ HiLoKept s t ∧ Completed s t (s.pc + 4#32)

/-- The outcome is the halt with this cause and word (R250): the state is as before in every register, `HI`,
`LO`, memory, `pc` and budget, and only the run state has changed (R251). -/
def HaltsWith (o : Host.Outcome State Fault Refusal) (s : State) (c : Cause) (word : Option Word) : Prop :=
  o = .next { s with run := .halted ⟨c, s.pc, word⟩ }

/-- The `n` bytes from `a` on can be read without a `MemoryFault`: in tolerant mode always, in strict mode
when each of them is present (R63, R243). -/
def Readable (s : State) (a : Word) (n : Nat) : Prop :=
  ∀ p, s.present = some p → ∀ k, k < n → (a + BitVec.ofNat 32 k).toNat ∈ p

/-- The outcome of a load of `n` bytes at `a` into `rt` (R199, R243): the register written, or in strict mode
the precise `MemoryFault`. -/
def Loads (o : Host.Outcome State Fault Refusal) (s : State) (a : Word) (n : Nat) (rt : RegIdx)
    (P : Word → Prop) : Prop :=
  (Readable s a n → WritesReg o s rt P) ∧
  (¬ Readable s a n → HaltsWith o s .memoryFault (some (wordAt s.mem s.pc)))

/-- The target of a taken branch at `pc` (R166), by integer arithmetic. -/
def takenTarget (pc : Word) (imm : BitVec 16) : Word := BitVec.ofInt 32 (pc.toNat + 4 + 4 * imm.toInt)

/-- The target of `j` and `jal` at `pc` (R167), by arithmetic: the 256 MiB region of `pc`, and the word
index in it. -/
def regionTarget (pc : Word) (address : BitVec 26) : Word :=
  BitVec.ofNat 32 (pc.toNat / 2 ^ 28 * 2 ^ 28 + 4 * address.toNat)

/-- Bit 31, the sign (R16). -/
def negative (v : Word) : Bool := v.getLsbD 31

/-! ### Which instruction does what -/

/-- The general registers an instruction can write. -/
def writtenRegs : Instr → List RegIdx
  | .add rd _ _ | .addu rd _ _ | .sub rd _ _ | .subu rd _ _ | .and rd _ _ | .or rd _ _ | .xor rd _ _
  | .nor rd _ _ | .slt rd _ _ | .sltu rd _ _ => [rd]
  | .addi rt _ _ | .addiu rt _ _ | .slti rt _ _ | .sltiu rt _ _ | .andi rt _ _ | .ori rt _ _
  | .xori rt _ _ | .lui rt _ => [rt]
  | .sll rd _ _ | .srl rd _ _ | .sra rd _ _ | .sllv rd _ _ | .srlv rd _ _ | .srav rd _ _ => [rd]
  | .mfhi rd | .mflo rd => [rd]
  | .jalr rd _ => [if rd = 0 then 31 else rd]
  | .jal _ | .bltzal _ _ | .bgezal _ _ => [31]
  | .lb rt _ _ | .lbu rt _ _ | .lh rt _ _ | .lhu rt _ _ | .lw rt _ _ | .lwl rt _ _ | .lwr rt _ _ => [rt]
  | .syscall => [2]
  | .mult .. | .multu .. | .div .. | .divu .. | .mthi _ | .mtlo _ | .j _ | .jr _ | .beq .. | .bne ..
  | .blez .. | .bgtz .. | .bltz .. | .bgez .. | .sb .. | .sh .. | .sw .. | .swl .. | .swr .. | .brk => []

/-- The instructions that write `HI` (R25). -/
def writesHi : Instr → Bool
  | .mult .. | .multu .. | .div .. | .divu .. | .mthi .. => true
  | _ => false

/-- The instructions that write `LO` (R25). -/
def writesLo : Instr → Bool
  | .mult .. | .multu .. | .div .. | .divu .. | .mtlo .. => true
  | _ => false

/-- The instructions that can change memory: the five stores, and `syscall` through the bridge (R35). -/
def writesMem : Instr → Bool
  | .sb .. | .sh .. | .sw .. | .swl .. | .swr .. | .syscall => true
  | _ => false

/-- The jumps that always yield a target from a register, whose low bits may be anything (R29, R180). -/
def jumpsByRegister : Instr → Bool
  | .jr .. | .jalr .. => true
  | _ => false

/-- The instructions that can yield the directive jump-to (R28). -/
def canJump : Instr → Bool
  | .j .. | .jal .. | .jr .. | .jalr .. | .beq .. | .bne .. | .blez .. | .bgtz .. | .bltz .. | .bgez ..
  | .bltzal .. | .bgezal .. => true
  | _ => false

/-- The bytes an instruction reads as data: their first address and their number (R60). -/
def dataRead (s : State) : Instr → Option (Word × Nat)
  | .lb _ imm rs | .lbu _ imm rs => some (s.effAddr rs imm, 1)
  | .lh _ imm rs | .lhu _ imm rs => some (s.effAddr rs imm, 2)
  | .lw _ imm rs => some (s.effAddr rs imm, 4)
  | .lwl _ imm rs => some (wordBase (s.effAddr rs imm), wordOffset (s.effAddr rs imm) + 1)
  | .lwr _ imm rs => some (s.effAddr rs imm, 4 - wordOffset (s.effAddr rs imm))
  | _ => none

/-- The instruction's own single possible cause arises (R240, R249). -/
def Raises (s : State) (c : Cause) : Instr → Prop
  | .div _ rt | .divu _ rt => c = .arithmeticEdgeCase ∧ s.readReg rt = 0#32
  | .brk => c = .breakpoint
  | .syscall => c = .exit ∧ askBridge s.bridge s.bridgeQuery = .exit
  | i => c = .memoryFault ∧ ∃ a n, dataRead s i = some (a, n) ∧ ¬ Readable s a n

/-- A cause arises in a step of a running core, by the checks of one step in their order (R249): the budget,
the fetch, the decoding, the instruction's own. -/
def StepRaises (s : State) (c : Cause) : Prop :=
  (s.budget = 0 ∧ c = .instructionBudgetExceeded) ∨
  (s.budget ≠ 0 ∧ ¬ Readable s s.pc 4 ∧ c = .memoryFault) ∨
  (s.budget ≠ 0 ∧ Readable s s.pc 4 ∧ match decodeWord (wordAt s.mem s.pc) with
    | none => c = .unimplementedOpcode
    | some i => Raises s c i)

/-! ### Classes of causes, safe runs -/

/-- The class of a cause (R232, R240). -/
inductive CauseClass where
  | normalEnd
  | designedStop
  | fault
deriving DecidableEq, Repr

/-- `InstructionBudgetExceeded` and `Exit` are normal ends, `Breakpoint` is a designed stop, and the other
three are faults (R232). -/
def Cause.cls : Cause → CauseClass
  | .instructionBudgetExceeded | .exit => .normalEnd
  | .breakpoint => .designedStop
  | .unimplementedOpcode | .arithmeticEdgeCase | .memoryFault => .fault

/-- The state is not one that a fault of the program has stopped. -/
def State.unfaulted (s : State) : Bool :=
  match s.run with
  | .running => true
  | .halted r => r.cause.cls != .fault

/-- A safe run of `k` steps: every one of them answers a next state, and no fault has stopped it. -/
def SafeRun (k : Nat) (s : State) : Prop :=
  ∃ t, Host.Core.run core k s = .next t ∧ t.unfaulted = true

/-! ### The invariant -/

/-- The word that a halt record must hold (R33, R250): none for the budget and for a fetch fault, else the
word at `pc`. -/
def recordWord (s : State) : Cause → Option Word
  | .instructionBudgetExceeded => none
  | .memoryFault => if s.canRead s.pc 4 then some (wordAt s.mem s.pc) else none
  | .exit | .breakpoint | .unimplementedOpcode | .arithmeticEdgeCase => some (wordAt s.mem s.pc)

/-- What holds of the state between any two steps. -/
structure Invariant (s : State) : Prop where
  /-- Memory is in its canonical form. -/
  mem : s.mem.wf
  /-- The slot of register 0 holds 0 (R20, R22). -/
  zero : s.gpr[0] = 0#32
  /-- The set of present addresses is in ascending order, lies in the address space, and has every address
  that holds a byte other than 0: by R243 for what a store writes, and by the model's reading of R243 for what
  the bridge writes (log entry 11). -/
  present : ∀ p, s.present = some p → p.Pairwise (· < ·) ∧ (∀ a ∈ p, a < 2 ^ 32) ∧ ∀ c ∈ s.mem, c.1 ∈ p
  /-- A halt record names the `pc` it stopped at and the word there, the budget is used up exactly when the
  budget is the cause, and there is no `MemoryFault` in tolerant mode (R33, R243, R250, R251). -/
  record : ∀ r, s.run = .halted r → r.haltPc = s.pc ∧ r.word = recordWord s r.cause ∧
    (r.cause = .instructionBudgetExceeded ↔ s.budget = 0) ∧ (r.cause = .memoryFault → s.present ≠ none)

/-- What the reset inputs must satisfy for the invariant to hold after reset: the memory is in canonical
form, and in strict mode the set of present addresses is in order and covers it. -/
structure InputsWf (p : ResetInputs) : Prop where
  mem : p.initMem.wf
  present : ∀ q, p.present = some q → q.Pairwise (· < ·) ∧ (∀ a ∈ q, a < 2 ^ 32) ∧ ∀ c ∈ p.initMem, c.1 ∈ q

end Machine

end Sys2Proof
end

