-- ==== Sys2Proof/WellFormed.lean ====
section
/-! DEFINITION. Which raw records are instructions (R85, R91): every 32-bit pattern has a shape, and a
record is well formed when its opcode, or its opcode with `funct` or `rt`, is one of the tables' (R87 to R89).
A term of `Instr` needs no check of its own: its register numbers are below 32 and its immediates have
their fields' widths by type (R21), so that an ill-formed one cannot be written down. -/

namespace Sys2Proof

/-- The 28 funct values of the SPECIAL table (R88). -/
def specialFuncts : List (BitVec 6) :=
  [0x00#6, 0x02#6, 0x03#6, 0x04#6, 0x06#6, 0x07#6, 0x08#6, 0x09#6, 0x0C#6, 0x0D#6,
   0x10#6, 0x11#6, 0x12#6, 0x13#6, 0x18#6, 0x19#6, 0x1A#6, 0x1B#6] ++
  [0x20#6, 0x21#6, 0x22#6, 0x23#6, 0x24#6, 0x25#6, 0x26#6, 0x27#6, 0x2A#6, 0x2B#6]

/-- The 4 `rt` selectors of the REGIMM table (R89). -/
def regimmSelectors : List RegIdx := [0, 1, 16, 17]

/-- The 24 I-format opcodes of the primary table (R87). -/
def primaryIOpcodes : List (BitVec 6) :=
  [0x04#6, 0x05#6, 0x06#6, 0x07#6, 0x08#6, 0x09#6, 0x0A#6, 0x0B#6, 0x0C#6, 0x0D#6, 0x0E#6, 0x0F#6] ++
  [0x20#6, 0x21#6, 0x22#6, 0x23#6, 0x24#6, 0x25#6, 0x26#6, 0x28#6, 0x29#6, 0x2A#6, 0x2B#6, 0x2E#6]

/-- The 2 J-format opcodes (R81, R87). -/
def jumpOpcodes : List (BitVec 6) := [0x02#6, 0x03#6]

/-- An R-format record is an instruction: opcode 0 and a funct of the SPECIAL table. -/
def RFields.wellFormed (f : RFields) : Bool :=
  f.opcode == 0x00#6 && specialFuncts.contains f.funct

/-- An I-format record is an instruction: an I-format opcode of the primary table, or opcode 1 with an
`rt` selector of the REGIMM table. -/
def IFields.wellFormed (f : IFields) : Bool :=
  primaryIOpcodes.contains f.opcode || (f.opcode == 0x01#6 && regimmSelectors.contains f.rt)

/-- A J-format record is an instruction: opcode 2 or 3. -/
def JFields.wellFormed (f : JFields) : Bool :=
  jumpOpcodes.contains f.opcode

/-- A record is an instruction (R95). -/
def Shape.wellFormed : Shape → Bool
  | .r f => f.wellFormed
  | .i f => f.wellFormed
  | .j f => f.wellFormed

end Sys2Proof
end

