-- ==== Sys2Proof/Certificates/Slice0/Obligations.lean ====
section
/-! DEFINITION. The statements about the machine, in the terms of Safety.lean. Each docstring names the rules
of the spec that it formalises. -/

open Sys2Proof Sys2Proof.Machine

/-! ### Encoding -/

/-- 30_encoding.md §1 to §3: no operand bit of an encoding is dropped; decoding the word of an instruction, or
its bytes with any bytes after them, gives the instruction back, with every operand at every value. -/
def Obligations.DecodeOfEncode : Prop :=
  ∀ i : Instr, decodeWord (encode i) = some i ∧
    ∀ rest, decodeBytes (wordBytes (encode i) ++ rest) = .ok (i, rest)

/-- 30_encoding.md §3: the bits an instruction does not use are ignored, and no other bit is: a word that
decodes to an instruction agrees with the instruction's own word in every used bit, and every word that agrees
with it there decodes to it. -/
def Obligations.DecodeIgnoresUnusedBits : Prop :=
  ∀ (i : Instr) (w : Word), decodeWord w = some i ↔ w &&& usedBits i = encode i

/-- R95, with the 58 rows of spec/opcode_table.json for its three tables: a word selects an instruction exactly
when a row matches it, which is when its record is well formed; the row that matches names the instruction, and
no two rows match one word; a running core that executes a word that no row matches halts with
`UnimplementedOpcode`. 28 rows are keyed by opcode 0 and funct, 4 by opcode 1 and `rt`, and 26 by opcode. The
numbers in the rows are the spec's decision D2. -/
def Obligations.DecodeFollowsOpcodeTable : Prop :=
  opcodeTable.length = 58 ∧
  (opcodeTable.filter (fun r => fieldNat r.pattern 26 6 == 0)).length = 28 ∧
  (opcodeTable.filter (fun r => fieldNat r.pattern 26 6 == 1)).length = 4 ∧
  (∀ w : Word, (decodeWord w).isSome = (classify w).wellFormed) ∧
  (∀ (w : Word) (r : Row), r ∈ opcodeTable → r.matches w = true →
      ∃ i, decodeWord w = some i ∧ i.mnemonic = r.mnemonic) ∧
  (∀ (w : Word) (i : Instr), decodeWord w = some i → ∃ r ∈ opcodeTable, r.matches w = true) ∧
  (∀ s : State, s.run = .running → s.budget ≠ 0 → Readable s s.pc 4 → decodeWord (wordAt s.mem s.pc) = none →
    HaltsWith (step s) s .unimplementedOpcode (some (wordAt s.mem s.pc))) ∧
  ∀ (w : Word) (r q : Row), r ∈ opcodeTable → q ∈ opcodeTable → r.matches w = true → q.matches w = true → r = q

/-- R81: classification is by the top 6 bits alone: opcode 0 gives the R shape, 2 and 3 give J, and all others,
1 and 4 to 63, give I; and every record carries those 6 bits as its opcode. -/
def Obligations.ClassifyByOpcode : Prop :=
  ∀ w : Word,
    (fieldNat w 26 6 = 0 → ∃ f, classify w = .r f ∧ f.opcode.toNat = fieldNat w 26 6) ∧
    (fieldNat w 26 6 = 2 ∨ fieldNat w 26 6 = 3 → ∃ f, classify w = .j f ∧ f.opcode.toNat = fieldNat w 26 6) ∧
    (fieldNat w 26 6 = 1 ∨ 4 ≤ fieldNat w 26 6 → ∃ f, classify w = .i f ∧ f.opcode.toNat = fieldNat w 26 6)

/-- A sanity statement: words written out from the tables of R82 to R89 decode to the instructions they stand
for. -/
def Obligations.SampleWordsDecode : Prop :=
  decodeWord 0x00221820#32 = some (.add 3 1 2) ∧ decodeWord 0x27BDFFF8#32 = some (.addiu 29 29 0xFFF8#16) ∧
  decodeWord 0x00011100#32 = some (.sll 2 1 4#5) ∧ decodeWord 0x0022001A#32 = some (.div 1 2) ∧
  decodeWord 0x0C100010#32 = some (.jal 0x0100010#26) ∧ decodeWord 0x04300002#32 = some (.bltzal 1 2#16) ∧
  decodeWord 0x8C220004#32 = some (.lw 2 4#16 1) ∧ decodeWord 0xA9090002#32 = some (.swl 9 2#16 8) ∧
  decodeWord 0x0000000C#32 = some .syscall ∧ decodeWord 0x000001CD#32 = some .brk ∧
  decodeWord 0x0000000F#32 = none ∧ decodeWord 0x04220005#32 = none ∧ decodeWord 0xFFFFFFFF#32 = none

/-! ### Memory -/

/-- R52 to R54: a byte written is read back and no other byte changes; `readWord` is the four bytes from the
address on, `mod 2^32`, the most significant first; and `writeWord`, which is `MemWrite` of 4 bytes, is its
inverse: it writes those four bytes and no other. -/
def Obligations.MemoryByteLaws : Prop :=
  (∀ (m : Memory) (a x : Word) (b : Byte),
    (m.writeByte a b).readByte x = if x = a then b else m.readByte x) ∧
  (∀ (m : Memory) (a : Word), m.readWord a = wordAt m a) ∧
  (∀ (m : Memory) (a v : Word), (m.memWrite a 4 v.toNat).readWord a = v) ∧
  ∀ (m : Memory) (a x v : Word), (m.memWrite a 4 v.toNat).readByte x =
    if (x - a).toNat < 4 then byteOf v (x - a).toNat else m.readByte x

/-- 20_memory.md §2, which marks its general accesses as derived: `MemRead` of `n + 1` bytes is the lowest byte
on top of the other `n`, a `MemWrite` is read back, and it stores byte `i` of its value from the most
significant end at `addr + i`, `mod 2^32`, and nothing else. And the model's own canonical form of memory (log
entry 9): a write keeps it, and two memories in it that read alike everywhere are equal. -/
def Obligations.MemoryMultiByteLaws : Prop :=
  (∀ (m : Memory) (a : Word) (n : Nat),
    m.memRead a (n + 1) = (m.readByte a).toNat * 2 ^ (8 * n) + m.memRead (a + 1#32) n) ∧
  (∀ (m : Memory) (a : Word) (n v : Nat), n ≤ 4 → v < 2 ^ (8 * n) → (m.memWrite a n v).memRead a n = v) ∧
  (∀ (m : Memory) (a x : Word) (n v : Nat), n ≤ 4 →
    (m.memWrite a n v).readByte x =
      if (x - a).toNat < n then BitVec.ofNat 8 (v / 2 ^ (8 * (n - 1 - (x - a).toNat))) else m.readByte x) ∧
  (∀ (m : Memory) (a : Word) (n v : Nat), m.wf → (m.memWrite a n v).wf) ∧
  ∀ m q : Memory, m.wf → q.wf → (∀ a : Word, m.readByte a = q.readByte a) → m = q

/-- 20_memory.md §6 (marked as derived there): a word stored over the next instruction is the word that the next
step fetches, with nothing done in between. -/
def Obligations.StoreIntoNextFetch : Prop :=
  ∀ (rt : RegIdx) (imm : BitVec 16) (rs : RegIdx) (s : State), s.effAddr rs imm = s.pc + 4#32 →
    ∃ t, exec (.sw rt imm rs) s = .next t ∧ t.fetchWord = s.readReg rt ∧
      (t.run = .running → t.budget ≠ 0 → step t = t.execWord (s.readReg rt))

/-! ### Reset and boot -/

/-- R36, R270: every piece of state after reset, for all inputs, and the first word fetched. The values of
registers 1 to 27 and 30 and of `HI` and `LO` are the spec's decision D21, and that of register 31 its decision
D22. -/
def Obligations.ResetValues : Prop :=
  ∀ p : ResetInputs,
    let s := State.resetWith p
    (∀ r, s.readReg r = if r = 28 then p.gp else if r = 29 then p.sp else if r = 31 then p.entry else 0#32) ∧
    s.hi = 0#32 ∧ s.lo = 0#32 ∧ s.pc = p.entry ∧ s.mem = p.initMem ∧ s.run = .running ∧ s.budget = p.budget ∧
    s.fetchWord = wordAt p.initMem p.entry

/-- 70_reset_and_hazards.md §1, whose placing of segments and reset again are marked as derived: start-up from
an image gives the whole state after reset with the inputs that the image gives: its entry, pointers and memory;
in strict mode the present addresses are those the segments cover (60_exceptions.md §1). That a segment past the
top of memory wraps, and so covers addresses from 0 on, is the model's choice (log entry 8). The state has the
invariant, in strict mode when no segment has more bytes in the file than in memory, a form for which the model
places all the file's bytes (log entry 8). From a load failure there is no state at all, and a reset again leaves
nothing of the state before it. -/
def Obligations.BootFromImage : Prop :=
  (∀ (p : ResetInputs) (old : State), State.resetAgain old p = State.resetWith p) ∧
  (∀ budget strict bridge, boot .failure budget strict bridge = none) ∧
  (∀ e budget strict bridge, ∃ s, boot (.image e) budget strict bridge = some s ∧
    s = State.resetWith (e.resetInputs budget strict bridge) ∧ s.pc = e.entryAddress ∧ s.readReg 28 = e.globalPointer ∧ s.readReg 29 = e.stackPointer ∧
    s.readReg 31 = e.entryAddress ∧ s.budget = budget ∧ s.bridge = bridge ∧ s.mem = imageMemory e ∧
    (strict = false → s.present = none) ∧
    (strict = true → ∃ p, s.present = some p ∧
      ∀ a : Word, a.toNat ∈ p ↔ ∃ g ∈ e.segments, (a - g.loadAddress).toNat < g.memorySize) ∧
    ((strict = true → ∀ g ∈ e.segments, g.fileLength ≤ g.memorySize) → Invariant s))

/-- 70_reset_and_hazards.md §1 (marked as derived there): the memory of an image is 0 outside its segments, and
a segment puts its bytes of the file from its load address on and then 0 up to its size, over what the segments
before it put there. Three clauses are the model's choice and not the spec's (log entry 8): a byte past the end
of the file is 0, a segment past the top of memory wraps to address 0, and a segment with more bytes in the file
than in memory puts all those of the file. It holds for every segment no longer than the address space. -/
def Obligations.ImageMemoryBySegments : Prop :=
  (∀ e : ExecutableImage, e.segments = [] → ∀ a : Word, (imageMemory e).readByte a = 0#8) ∧
  ∀ (e : ExecutableImage) (gs : List Segment) (g : Segment), e.segments = gs ++ [g] →
    g.fileLength ≤ 2 ^ 32 → g.memorySize ≤ 2 ^ 32 → ∀ a : Word,
    (imageMemory e).readByte a =
      if (a - g.loadAddress).toNat < g.fileLength then e.file.getD (g.fileOffset + (a - g.loadAddress).toNat) 0#8
      else if (a - g.loadAddress).toNat < g.memorySize then 0#8
      else (imageMemory { e with segments := gs }).readByte a

/-- The invariant holds after reset: for the model's own inputs (log entries 1 and 2), and for all inputs in good
form. -/
def Obligations.InvHoldsAtReset : Prop :=
  Invariant State.reset ∧ ∀ p, InputsWf p → Invariant (State.resetWith p)

/-- The invariant is kept by every step, from every state that has it: memory stays canonical (the model's own
form, log entry 9), the slot of register 0 stays 0, the present addresses stay in order, and the halt record
stays true of the state. In strict mode every address that holds a byte other than 0 stays present
(60_exceptions.md §1); across a `syscall` that rests on the model's reading that a byte the bridge writes becomes
present, which the spec does not state (log entry 11). -/
def Obligations.InvKeptByStep : Prop :=
  ∀ s t : State, Invariant s → step s = .next t → Invariant t

/-! ### ALU instructions -/

/-- R111, R112, R121, R122: addition is modulo 2^32, with or without the `u` and with a register or a
sign-extended immediate; nothing traps on overflow. -/
def Obligations.AdditionWraps : Prop :=
  SpecialWords 0x20 (fun w => .add (rdOf w) (rsOf w) (rtOf w)) ∧
  SpecialWords 0x21 (fun w => .addu (rdOf w) (rsOf w) (rtOf w)) ∧
  OpcodeWords 0x08 (fun w => .addi (rtOf w) (rsOf w) (immOf w)) ∧
  OpcodeWords 0x09 (fun w => .addiu (rtOf w) (rsOf w) (immOf w)) ∧
  (∀ rd rs rt s,
    WritesReg (exec (.add rd rs rt) s) s rd
      (fun v => v.toNat = ((s.readReg rs).toNat + (s.readReg rt).toNat) % 2 ^ 32) ∧
    WritesReg (exec (.addu rd rs rt) s) s rd
      (fun v => v.toNat = ((s.readReg rs).toNat + (s.readReg rt).toNat) % 2 ^ 32)) ∧
  ∀ rt rs imm s,
    WritesReg (exec (.addi rt rs imm) s) s rt
      (fun v => (v.toNat : Int) = ((s.readReg rs).toNat + imm.toInt) % 2 ^ 32) ∧
    WritesReg (exec (.addiu rt rs imm) s) s rt
      (fun v => (v.toNat : Int) = ((s.readReg rs).toNat + imm.toInt) % 2 ^ 32)

/-- R113, R114: subtraction is modulo 2^32, with or without the `u`; nothing traps on overflow. -/
def Obligations.SubtractionWraps : Prop :=
  SpecialWords 0x22 (fun w => .sub (rdOf w) (rsOf w) (rtOf w)) ∧
  SpecialWords 0x23 (fun w => .subu (rdOf w) (rsOf w) (rtOf w)) ∧
  ∀ rd rs rt s,
    WritesReg (exec (.sub rd rs rt) s) s rd
      (fun v => (v.toNat : Int) = ((s.readReg rs).toNat - (s.readReg rt).toNat) % 2 ^ 32) ∧
    WritesReg (exec (.subu rd rs rt) s) s rd
      (fun v => (v.toNat : Int) = ((s.readReg rs).toNat - (s.readReg rt).toNat) % 2 ^ 32)

/-- R115 to R118: the logical operations on two registers, bit by bit. -/
def Obligations.LogicalBitwise : Prop :=
  SpecialWords 0x24 (fun w => .and (rdOf w) (rsOf w) (rtOf w)) ∧
  SpecialWords 0x25 (fun w => .or (rdOf w) (rsOf w) (rtOf w)) ∧
  SpecialWords 0x26 (fun w => .xor (rdOf w) (rsOf w) (rtOf w)) ∧
  SpecialWords 0x27 (fun w => .nor (rdOf w) (rsOf w) (rtOf w)) ∧
  ∀ rd rs rt s,
    let a := fun k => (s.readReg rs).getLsbD k
    let b := fun k => (s.readReg rt).getLsbD k
    WritesReg (exec (.and rd rs rt) s) s rd (fun v => ∀ k, k < 32 → v.getLsbD k = (a k && b k)) ∧
    WritesReg (exec (.or rd rs rt) s) s rd (fun v => ∀ k, k < 32 → v.getLsbD k = (a k || b k)) ∧
    WritesReg (exec (.xor rd rs rt) s) s rd (fun v => ∀ k, k < 32 → v.getLsbD k = (a k != b k)) ∧
    WritesReg (exec (.nor rd rs rt) s) s rd (fun v => ∀ k, k < 32 → v.getLsbD k = !(a k || b k))

/-- R125 to R127 (90_conflicts.md C5): the logical operations with an immediate extend it by its sign: above bit
15 every bit of the operand is bit 15 of the immediate. -/
def Obligations.LogicalImmediateSignExtends : Prop :=
  OpcodeWords 0x0C (fun w => .andi (rtOf w) (rsOf w) (immOf w)) ∧
  OpcodeWords 0x0D (fun w => .ori (rtOf w) (rsOf w) (immOf w)) ∧
  OpcodeWords 0x0E (fun w => .xori (rtOf w) (rsOf w) (immOf w)) ∧
  ∀ rt rs (imm : BitVec 16) s,
    let a := fun k => (s.readReg rs).getLsbD k
    let b := fun k => if k < 16 then imm.getLsbD k else imm.getLsbD 15
    WritesReg (exec (.andi rt rs imm) s) s rt (fun v => ∀ k, k < 32 → v.getLsbD k = (a k && b k)) ∧
    WritesReg (exec (.ori rt rs imm) s) s rt (fun v => ∀ k, k < 32 → v.getLsbD k = (a k || b k)) ∧
    WritesReg (exec (.xori rt rs imm) s) s rt (fun v => ∀ k, k < 32 → v.getLsbD k = (a k != b k))

/-- R119, R120, R123, R124: the comparisons write exactly 1 or 0; `slt` and `slti` compare as signed numbers,
`sltu` and `sltiu` as unsigned ones, the immediate extended by its sign in both (the spec's decision D6). -/
def Obligations.SetOnLessThan : Prop :=
  SpecialWords 0x2A (fun w => .slt (rdOf w) (rsOf w) (rtOf w)) ∧
  SpecialWords 0x2B (fun w => .sltu (rdOf w) (rsOf w) (rtOf w)) ∧
  OpcodeWords 0x0A (fun w => .slti (rtOf w) (rsOf w) (immOf w)) ∧
  OpcodeWords 0x0B (fun w => .sltiu (rtOf w) (rsOf w) (immOf w)) ∧
  (∀ rd rs rt s,
    WritesReg (exec (.slt rd rs rt) s) s rd
      (fun v => v = if (s.readReg rs).toInt < (s.readReg rt).toInt then 1#32 else 0#32) ∧
    WritesReg (exec (.sltu rd rs rt) s) s rd
      (fun v => v = if (s.readReg rs).toNat < (s.readReg rt).toNat then 1#32 else 0#32)) ∧
  ∀ rt rs imm s,
    WritesReg (exec (.slti rt rs imm) s) s rt
      (fun v => v = if (s.readReg rs).toInt < imm.toInt then 1#32 else 0#32) ∧
    WritesReg (exec (.sltiu rt rs imm) s) s rt
      (fun v => v = if ((s.readReg rs).toNat : Int) < imm.toInt % 2 ^ 32 then 1#32 else 0#32)

/-- 90_conflicts.md C1, a law that 40_alu.md marks as derived: on the same operands `slt` and `sltu` give
different results exactly when the operands' sign bits differ. -/
def Obligations.SltSltuDifferBySign : Prop :=
  ∀ rd rs rt s, rd ≠ 0 → ∃ t u, exec (.slt rd rs rt) s = .next t ∧ exec (.sltu rd rs rt) s = .next u ∧
    (t.readReg rd ≠ u.readReg rd ↔ negative (s.readReg rs) ≠ negative (s.readReg rt))

/-- R128: `lui` puts the immediate in the upper half and 0 in the lower. -/
def Obligations.LoadUpperImmediate : Prop :=
  OpcodeWords 0x0F (fun w => .lui (rtOf w) (immOf w)) ∧
  ∀ rt imm s, WritesReg (exec (.lui rt imm) s) s rt (fun v => v.toNat = imm.toNat * 2 ^ 16)

/-! ### Shifts -/

/-- R141, R144: left shifts multiply by a power of 2 modulo 2^32; the variable amount is that of the low 5 bits
of `x[rs]`. -/
def Obligations.LeftShifts : Prop :=
  SpecialWords 0x00 (fun w => .sll (rdOf w) (rtOf w) (shamtOf w)) ∧
  SpecialWords 0x04 (fun w => .sllv (rdOf w) (rtOf w) (rsOf w)) ∧
  (∀ rd rt shamt s, WritesReg (exec (.sll rd rt shamt) s) s rd
    (fun v => v.toNat = (s.readReg rt).toNat * 2 ^ shamt.toNat % 2 ^ 32)) ∧
  ∀ rd rt rs s, WritesReg (exec (.sllv rd rt rs) s) s rd
    (fun v => v.toNat = (s.readReg rt).toNat * 2 ^ ((s.readReg rs).toNat % 32) % 2 ^ 32)

/-- R142, R145: logical right shifts divide the unsigned value by a power of 2, rounding down. -/
def Obligations.LogicalRightShifts : Prop :=
  SpecialWords 0x02 (fun w => .srl (rdOf w) (rtOf w) (shamtOf w)) ∧
  SpecialWords 0x06 (fun w => .srlv (rdOf w) (rtOf w) (rsOf w)) ∧
  (∀ rd rt shamt s, WritesReg (exec (.srl rd rt shamt) s) s rd
    (fun v => v.toNat = (s.readReg rt).toNat / 2 ^ shamt.toNat)) ∧
  ∀ rd rt rs s, WritesReg (exec (.srlv rd rt rs) s) s rd
    (fun v => v.toNat = (s.readReg rt).toNat / 2 ^ ((s.readReg rs).toNat % 32))

/-- R143, R146: arithmetic right shifts divide the signed value by a power of 2, rounding toward minus infinity.
-/
def Obligations.ArithmeticRightShifts : Prop :=
  SpecialWords 0x03 (fun w => .sra (rdOf w) (rtOf w) (shamtOf w)) ∧
  SpecialWords 0x07 (fun w => .srav (rdOf w) (rtOf w) (rsOf w)) ∧
  (∀ rd rt shamt s, WritesReg (exec (.sra rd rt shamt) s) s rd
    (fun v => v.toInt = Int.fdiv (s.readReg rt).toInt (2 ^ shamt.toNat))) ∧
  ∀ rd rt rs s, WritesReg (exec (.srav rd rt rs) s) s rd
    (fun v => v.toInt = Int.fdiv (s.readReg rt).toInt (2 ^ ((s.readReg rs).toNat % 32)))

/-! ### Multiply, divide, HI and LO -/

/-- R151, R152: the exact 64-bit product, signed or unsigned, its upper half in `HI` and its lower in `LO`. -/
def Obligations.MultiplyExact : Prop :=
  SpecialWords 0x18 (fun w => .mult (rsOf w) (rtOf w)) ∧
  SpecialWords 0x19 (fun w => .multu (rsOf w) (rtOf w)) ∧
  ∀ rs rt s,
    WritesHiLo (exec (.mult rs rt) s) s
      (fun hi lo => hi.toInt * 2 ^ 32 + lo.toNat = (s.readReg rs).toInt * (s.readReg rt).toInt) ∧
    WritesHiLo (exec (.multu rs rt) s) s
      (fun hi lo => hi.toNat * 2 ^ 32 + lo.toNat = (s.readReg rs).toNat * (s.readReg rt).toNat)

/-- R153: `div` by a divisor that is not 0 completes with a quotient `q` in `LO` and a remainder `r` in `HI`
such that the dividend is `q * d + r`, `r` is smaller than the divisor in size and has the dividend's sign or is
0; the one overflow keeps the low 32 bits of the quotient. By 0 it raises `ArithmeticEdgeCase`, with everything
else unchanged (the spec's decisions D7 to D9). -/
def Obligations.DivideSigned : Prop :=
  SpecialWords 0x1A (fun w => .div (rsOf w) (rtOf w)) ∧
  ∀ rs rt s,
    let n := (s.readReg rs).toInt
    let d := (s.readReg rt).toInt
    (s.readReg rt ≠ 0#32 → WritesHiLo (exec (.div rs rt) s) s (fun hi lo =>
      ∃ q r : Int, n = q * d + r ∧ r.natAbs < d.natAbs ∧ (0 < r → 0 < n) ∧ (r < 0 → n < 0) ∧
        (lo.toNat : Int) = q % 2 ^ 32 ∧ hi.toInt = r)) ∧
    (s.readReg rt = 0#32 → HaltsWith (exec (.div rs rt) s) s .arithmeticEdgeCase (some (wordAt s.mem s.pc)))

/-- R154: `divu` by a divisor that is not 0 completes with the floor quotient in `LO` and the remainder in `HI`.
By 0 it raises `ArithmeticEdgeCase`, with everything else unchanged (the spec's decisions D7, D9). -/
def Obligations.DivideUnsigned : Prop :=
  SpecialWords 0x1B (fun w => .divu (rsOf w) (rtOf w)) ∧
  ∀ rs rt s,
    let n := (s.readReg rs).toNat
    let d := (s.readReg rt).toNat
    (s.readReg rt ≠ 0#32 → WritesHiLo (exec (.divu rs rt) s) s (fun hi lo =>
      n = lo.toNat * d + hi.toNat ∧ hi.toNat < d)) ∧
    (s.readReg rt = 0#32 → HaltsWith (exec (.divu rs rt) s) s .arithmeticEdgeCase (some (wordAt s.mem s.pc)))

/-- R155 to R158: the moves out of and into `HI` and `LO`; a move into one leaves the other valid. -/
def Obligations.HiLoMoves : Prop :=
  SpecialWords 0x10 (fun w => .mfhi (rdOf w)) ∧ SpecialWords 0x12 (fun w => .mflo (rdOf w)) ∧
  SpecialWords 0x11 (fun w => .mthi (rsOf w)) ∧ SpecialWords 0x13 (fun w => .mtlo (rsOf w)) ∧
  (∀ rd s, WritesReg (exec (.mfhi rd) s) s rd (fun v => v = s.hi) ∧
    WritesReg (exec (.mflo rd) s) s rd (fun v => v = s.lo)) ∧
  ∀ rs s, WritesHiLo (exec (.mthi rs) s) s (fun hi lo => hi = s.readReg rs ∧ lo = s.lo) ∧
    WritesHiLo (exec (.mtlo rs) s) s (fun hi lo => hi = s.hi ∧ lo = s.readReg rs)

/-! ### Jumps and branches -/

/-- R168, R169 (the region bits: the spec's decision D10, 90_conflicts.md C7): `j` and `jal` jump within the 256
MiB region of their own address, and `jal` links the next address in register 31. -/
def Obligations.JumpInRegion : Prop :=
  OpcodeWords 0x02 (fun w => .j (addressOf w)) ∧ OpcodeWords 0x03 (fun w => .jal (addressOf w)) ∧
  ∀ address s,
    JumpsTo (exec (.j address) s) s (regionTarget s.pc address) ∧
    LinksTo (exec (.jal address) s) s 31 (regionTarget s.pc address)

/-- R170, R171: `jr` and `jalr` jump to the whole old value of `x[rs]`; `jalr` links in `rd`, and in register 31
when the field is 0; `x[rs]` is read before the link is written (the spec's decision D11). -/
def Obligations.JumpByRegister : Prop :=
  SpecialWords 0x08 (fun w => .jr (rsOf w)) ∧ SpecialWords 0x09 (fun w => .jalr (rdOf w) (rsOf w)) ∧
  (∀ rs s, JumpsTo (exec (.jr rs) s) s (s.readReg rs)) ∧
  (∀ rs s, LinksTo (exec (.jalr 0 rs) s) s 31 (s.readReg rs)) ∧
  ∀ rd rs s, rd ≠ 0 → LinksTo (exec (.jalr rd rs) s) s rd (s.readReg rs)

/-- R172, R173: `beq` and `bne` branch on equality of bit patterns, to the target when they branch and to the
next instruction when not. -/
def Obligations.BranchOnEquality : Prop :=
  OpcodeWords 0x04 (fun w => .beq (rsOf w) (rtOf w) (immOf w)) ∧
  OpcodeWords 0x05 (fun w => .bne (rsOf w) (rtOf w) (immOf w)) ∧
  ∀ rs rt imm s,
    JumpsTo (exec (.beq rs rt imm) s) s
      (if s.readReg rs = s.readReg rt then takenTarget s.pc imm else s.pc + 4#32) ∧
    JumpsTo (exec (.bne rs rt imm) s) s
      (if s.readReg rs = s.readReg rt then s.pc + 4#32 else takenTarget s.pc imm)

/-- R174 to R177: the four branches that compare with zero look at bit 31 and at whether the register is zero.
-/
def Obligations.BranchOnSign : Prop :=
  OpcodeWords 0x06 (fun w => .blez (rsOf w) (immOf w)) ∧ OpcodeWords 0x07 (fun w => .bgtz (rsOf w) (immOf w)) ∧
  RegimmWords 0x00 (fun w => .bltz (rsOf w) (immOf w)) ∧ RegimmWords 0x01 (fun w => .bgez (rsOf w) (immOf w)) ∧
  ∀ rs imm s,
    let v := s.readReg rs
    let target := takenTarget s.pc imm
    let next := s.pc + 4#32
    JumpsTo (exec (.blez rs imm) s) s (if negative v = true ∨ v = 0#32 then target else next) ∧
    JumpsTo (exec (.bgtz rs imm) s) s (if negative v = true ∨ v = 0#32 then next else target) ∧
    JumpsTo (exec (.bltz rs imm) s) s (if negative v = true then target else next) ∧
    JumpsTo (exec (.bgez rs imm) s) s (if negative v = true then next else target)

/-- R178, R179 (90_conflicts.md C14): `bltzal` and `bgezal` test the old register and link in register 31 only
when the branch is taken; not taken, no register changes. -/
def Obligations.BranchAndLinkIfTaken : Prop :=
  RegimmWords 0x10 (fun w => .bltzal (rsOf w) (immOf w)) ∧
  RegimmWords 0x11 (fun w => .bgezal (rsOf w) (immOf w)) ∧
  ∀ rs imm s,
    (negative (s.readReg rs) = true →
      LinksTo (exec (.bltzal rs imm) s) s 31 (takenTarget s.pc imm) ∧
      JumpsTo (exec (.bgezal rs imm) s) s (s.pc + 4#32)) ∧
    (negative (s.readReg rs) = false →
      JumpsTo (exec (.bltzal rs imm) s) s (s.pc + 4#32) ∧
      LinksTo (exec (.bgezal rs imm) s) s 31 (takenTarget s.pc imm))

/-- 10_state.md §3 and 43_jump_branch.md §1 (no alignment check: the spec's decision D13): from a `pc` that is a
multiple of 4, every step leaves one that is, unless the instruction at `pc` is `jr` or `jalr`. -/
def Obligations.AlignmentKeptButByRegisterJumps : Prop :=
  ∀ s t : State, step s = .next t → s.pc.toNat % 4 = 0 →
    (∀ i, decodeWord s.fetchWord = some i → jumpsByRegister i = false) → t.pc.toNat % 4 = 0

/-! ### Loads and stores -/

/-- 44_load_store.md §1 and 45_unaligned.md §1, the second marked as derived there: the effective address is the
base register plus the sign-extended displacement, modulo 2^32, and `off` and `base` split it into the aligned
word and the place in it. -/
def Obligations.EffectiveAddress : Prop :=
  (∀ (s : State) (rs : RegIdx) (imm : BitVec 16),
    ((s.effAddr rs imm).toNat : Int) = ((s.readReg rs).toNat + imm.toInt) % 2 ^ 32) ∧
  ∀ a : Word, wordOffset a < 4 ∧ (wordBase a).toNat % 4 = 0 ∧ (wordBase a).toNat + wordOffset a = a.toNat

/-- R191, R192: `lb` and `lbu` load the byte at the effective address, with its sign or with zeros. -/
def Obligations.LoadByte : Prop :=
  OpcodeWords 0x20 (fun w => .lb (rtOf w) (immOf w) (rsOf w)) ∧
  OpcodeWords 0x24 (fun w => .lbu (rtOf w) (immOf w) (rsOf w)) ∧
  ∀ rt imm rs s,
    let a := s.effAddr rs imm
    (a.toNat : Int) = ((s.readReg rs).toNat + imm.toInt) % 2 ^ 32 ∧
    Loads (exec (.lb rt imm rs) s) s a 1 rt (fun v => v.toInt = (s.mem.readByte a).toInt) ∧
    Loads (exec (.lbu rt imm rs) s) s a 1 rt (fun v => v.toNat = (s.mem.readByte a).toNat)

/-- R193 to R195: `lh` and `lhu` load the two bytes at any effective address, the lower address the more
significant, with the sign or with zeros; `lw` loads the four bytes there. -/
def Obligations.LoadHalfwordAndWord : Prop :=
  OpcodeWords 0x21 (fun w => .lh (rtOf w) (immOf w) (rsOf w)) ∧
  OpcodeWords 0x25 (fun w => .lhu (rtOf w) (immOf w) (rsOf w)) ∧
  OpcodeWords 0x23 (fun w => .lw (rtOf w) (immOf w) (rsOf w)) ∧
  ∀ rt imm rs s,
    let a := s.effAddr rs imm
    (a.toNat : Int) = ((s.readReg rs).toNat + imm.toInt) % 2 ^ 32 ∧
    Loads (exec (.lh rt imm rs) s) s a 2 rt (fun v => v.toInt = (halfAt s.mem a).toInt) ∧
    Loads (exec (.lhu rt imm rs) s) s a 2 rt (fun v => v.toNat = (halfAt s.mem a).toNat) ∧
    Loads (exec (.lw rt imm rs) s) s a 4 rt (fun v => v = wordAt s.mem a)

/-- R196 to R198: `sb`, `sh` and `sw` store the low 1, 2 or 4 bytes of `x[rt]` at the effective address,
big-endian, and change no other byte and no register. -/
def Obligations.StoreBytes : Prop :=
  OpcodeWords 0x28 (fun w => .sb (rtOf w) (immOf w) (rsOf w)) ∧
  OpcodeWords 0x29 (fun w => .sh (rtOf w) (immOf w) (rsOf w)) ∧
  OpcodeWords 0x2B (fun w => .sw (rtOf w) (immOf w) (rsOf w)) ∧
  ∀ rt imm rs s,
    let a := s.effAddr rs imm
    let v := s.readReg rt
    (a.toNat : Int) = ((s.readReg rs).toNat + imm.toInt) % 2 ^ 32 ∧
    Stores (exec (.sb rt imm rs) s) s a 1 (fun _ => byteOf v 3) ∧
    Stores (exec (.sh rt imm rs) s) s a 2 (fun k => byteOf v (2 + k)) ∧
    Stores (exec (.sw rt imm rs) s) s a 4 (fun k => byteOf v k)

/-- R206, R207 (90_conflicts.md C6): byte by byte, `lwl` takes the bytes of the aligned word up to the offset
from memory and keeps the others, and `lwr` takes those from the offset on. -/
def Obligations.LoadPartialWord : Prop :=
  OpcodeWords 0x22 (fun w => .lwl (rtOf w) (immOf w) (rsOf w)) ∧
  OpcodeWords 0x26 (fun w => .lwr (rtOf w) (immOf w) (rsOf w)) ∧
  ∀ rt imm rs s,
    let a := s.effAddr rs imm
    let off := wordOffset a
    let m := fun k => s.mem.readByte (wordBase a + BitVec.ofNat 32 k)
    let old := byteOf (s.readReg rt)
    (a.toNat : Int) = ((s.readReg rs).toNat + imm.toInt) % 2 ^ 32 ∧
    (wordBase a).toNat % 4 = 0 ∧ (wordBase a).toNat + off = a.toNat ∧ off < 4 ∧
    Loads (exec (.lwl rt imm rs) s) s (wordBase a) (off + 1) rt
      (fun v => ∀ k, k < 4 → byteOf v k = if k ≤ off then m k else old k) ∧
    Loads (exec (.lwr rt imm rs) s) s a (4 - off) rt
      (fun v => ∀ k, k < 4 → byteOf v k = if off ≤ k then m k else old k)

/-- 45_unaligned.md §3, whose order of the bytes is marked as derived there: `swl` stores the most significant
`off + 1` bytes of `x[rt]` from `base` to `addr`, and `swr` its least significant `4 - off` bytes from `addr` to
`base + 3`; no other byte and no register changes. -/
def Obligations.StorePartialWord : Prop :=
  OpcodeWords 0x2A (fun w => .swl (rtOf w) (immOf w) (rsOf w)) ∧
  OpcodeWords 0x2E (fun w => .swr (rtOf w) (immOf w) (rsOf w)) ∧
  ∀ rt imm rs s,
    let a := s.effAddr rs imm
    let off := wordOffset a
    let v := s.readReg rt
    Stores (exec (.swl rt imm rs) s) s (wordBase a) (off + 1) (fun k => byteOf v k) ∧
    Stores (exec (.swr rt imm rs) s) s a (4 - off) (fun k => byteOf v (off + k))

/-- 45_unaligned.md §2, whose reverse order is marked as derived there: `lwl` then `lwr`, or `lwr` then `lwl`,
at one address into one register loads the aligned word that contains the address, whatever the register held;
the second instruction may name the address by another base. -/
def Obligations.PartialLoadPair : Prop :=
  ∀ (rt rs rs' : RegIdx) (imm imm' : BitVec 16) (s : State), rt ≠ 0 →
    Readable s (wordBase (s.effAddr rs imm)) 4 →
    ∃ t u, exec (.lwl rt imm rs) s = .next t ∧ exec (.lwr rt imm rs) s = .next u ∧
      (t.effAddr rs' imm' = s.effAddr rs imm → ∃ t', exec (.lwr rt imm' rs') t = .next t' ∧
        t'.readReg rt = wordAt s.mem (wordBase (s.effAddr rs imm))) ∧
      (u.effAddr rs' imm' = s.effAddr rs imm → ∃ u', exec (.lwl rt imm' rs') u = .next u' ∧
        u'.readReg rt = wordAt s.mem (wordBase (s.effAddr rs imm)))

/-- 45_unaligned.md §3 (marked as derived there): `swl` then `swr`, or `swr` then `swl`, of one register at one
address stores the register as the aligned word that contains the address, and leaves every byte outside that
word. -/
def Obligations.PartialStorePair : Prop :=
  ∀ (rt rs : RegIdx) (imm : BitVec 16) (s : State),
    let base := wordBase (s.effAddr rs imm)
    ∃ t t' u u', exec (.swl rt imm rs) s = .next t ∧ exec (.swr rt imm rs) t = .next t' ∧
      exec (.swr rt imm rs) s = .next u ∧ exec (.swl rt imm rs) u = .next u' ∧
      wordAt t'.mem base = s.readReg rt ∧ wordAt u'.mem base = s.readReg rt ∧
      ∀ x : Word, ¬ (x - base).toNat < 4 →
        t'.mem.readByte x = s.mem.readByte x ∧ u'.mem.readByte x = s.mem.readByte x

/-! ### System instructions -/

/-- 46_system.md and 60_exceptions.md §1: `syscall` asks the bridge once, with `x[2]`, `x[4]` to `x[7]` and
the memory. `Return(v, mem')` puts `v` in `x[2]` and makes memory `mem'`, and the run goes on at the next
instruction; `Exit` ends the run and changes nothing else. Three clauses are the model's choice or reading and
not the spec's: `mem'` is given by a list of byte writes, the last write to a byte winning (log entry 3); the
answer is that of the first known row, or of an unknown function where no row answers (log entry 4); and in
strict mode an address is present after exactly when it was present or the bridge wrote to it (log entry 11). -/
def Obligations.SyscallFollowsBridge : Prop :=
  SpecialWords 0x0C (fun _ => .syscall) ∧
  ∀ s : State,
    let q : BridgeQuery := ⟨s.readReg 2, s.readReg 4, s.readReg 5, s.readReg 6, s.readReg 7, s.mem⟩
    (∀ v ws, askBridge s.bridge q = .ret v ws → ∃ t, exec .syscall s = .next t ∧
      RegsUpdated s t 2 v ∧ HiLoKept s t ∧ Completed s t (s.pc + 4#32) ∧
      (s.present = none → t.present = none) ∧
      (∀ p, s.present = some p → ∃ q, t.present = some q ∧
        ∀ x : Word, x.toNat ∈ q ↔ x.toNat ∈ p ∨ ∃ c ∈ ws, c.1 = x) ∧
      ∀ x : Word, t.mem.readByte x =
        ((ws.reverse.find? (fun c => c.1 == x)).map (fun c => c.2)).getD (s.mem.readByte x)) ∧
    (askBridge s.bridge q = .exit → HaltsWith (exec .syscall s) s .exit (some (wordAt s.mem s.pc)))

/-- R216: `break` halts with `Breakpoint` at its own address, whatever its bits 25:6, and changes nothing else.
-/
def Obligations.BreakHalts : Prop :=
  SpecialWords 0x0D (fun _ => .brk) ∧
  ∀ s : State, HaltsWith (exec .brk s) s .breakpoint (some (wordAt s.mem s.pc))

/-! ### The step -/

/-- 47_control_unit.md: when the core runs, has budget and can read the four bytes at `pc`, and they decode to
an instruction, the step is that instruction's `exec` at that state, with nothing added. -/
def Obligations.StepRunsDecodedInstruction : Prop :=
  ∀ (s : State) (i : Instr), s.run = .running → s.budget ≠ 0 → Readable s s.pc 4 →
    decodeBytes [s.mem.readByte s.pc, s.mem.readByte (s.pc + 1#32), s.mem.readByte (s.pc + 2#32),
      s.mem.readByte (s.pc + 3#32)] = .ok (i, []) → step s = exec i s

/-- R217: a word that selects no instruction halts the core with `UnimplementedOpcode` when it is executed, and
changes nothing else. -/
def Obligations.UnimplementedWordHalts : Prop :=
  ∀ s : State, s.run = .running → s.budget ≠ 0 → Readable s s.pc 4 →
    (∀ r ∈ opcodeTable, r.matches (wordAt s.mem s.pc) = false) →
    HaltsWith (step s) s .unimplementedOpcode (some (wordAt s.mem s.pc))

/-- R245, with 47_control_unit.md and 60_exceptions.md §1: what a step does without fetching an instruction: a
halted core changes nothing, a budget of 0 halts with no word, and in strict mode an instruction byte that is
not present halts with `MemoryFault` and no word. -/
def Obligations.StepWithoutFetch : Prop :=
  (∀ s r, s.run = .halted r → step s = .next s) ∧
  (∀ s : State, s.run = .running → s.budget = 0 → HaltsWith (step s) s .instructionBudgetExceeded none) ∧
  ∀ s : State, s.run = .running → s.budget ≠ 0 → ¬ Readable s s.pc 4 → HaltsWith (step s) s .memoryFault none

/-- 30_encoding.md §5 (marked as derived there): a fetch of four zero bytes executes a no-op: the budget and
`pc` move on and nothing else changes. -/
def Obligations.ZeroWordIsNop : Prop :=
  ∀ s : State, s.run = .running → s.budget ≠ 0 → Readable s s.pc 4 → wordAt s.mem s.pc = 0#32 →
    step s = .next { s with pc := s.pc + 4#32, budget := s.budget - 1 }

/-- 47_control_unit.md: a step never faults or refuses in the host's sense: from every state it answers a next
state. -/
def Obligations.EveryStepAnswersNext : Prop :=
  ∀ s : State, ∃ t, step s = .next t

/-- R250, R251: a step that halts the core changes only the run state, and the record it leaves names the cause
that arose and the `pc` and holds the word that the cause calls for; after it nothing is fetched. -/
def Obligations.HaltIsPrecise : Prop :=
  ∀ (s t : State) (r : HaltRecord), s.run = .running → step s = .next t → t.run = .halted r →
    t = { s with run := .halted r } ∧ r.haltPc = s.pc ∧ r.word = recordWord s r.cause ∧
      StepRaises s r.cause ∧ step t = .next t

/-- 60_exceptions.md §1 and §2: an instruction that runs halts the core with a cause exactly when that cause is
its own and its trigger is there; an instruction that has none leaves the core running. -/
def Obligations.OnlyOwnCauseHalts : Prop :=
  ∀ (i : Instr) (s t : State), s.run = .running → exec i s = .next t →
    ∀ c, (∃ r, t.run = .halted r ∧ r.cause = c) ↔ Raises s c i

/-- 47_control_unit.md (a halting step uses no budget: the spec's decision D20): an instruction that completes
uses exactly one unit of budget, and a step that halts uses none. -/
def Obligations.BudgetCountsCompleted : Prop :=
  ∀ s t : State, s.run = .running → step s = .next t →
    (t.run = .running → t.budget + 1 = s.budget) ∧ (t.run ≠ .running → t.budget = s.budget)

/-- 10_state.md §5: no instruction can read the budget: with another budget an instruction leaves the same state
but for the budget. -/
def Obligations.BudgetInvisible : Prop :=
  ∀ (i : Instr) (s t : State) (b : Nat), exec i s = .next t →
    ∃ u, exec i { s with budget := b } = .next u ∧ { u with budget := t.budget } = t

/-- 10_state.md §3: an instruction that completes and cannot jump moves `pc` on by 4. -/
def Obligations.PcAdvancesByFour : Prop :=
  ∀ (i : Instr) (s t : State), canJump i = false → s.run = .running → exec i s = .next t →
    t.run = .running → t.pc = s.pc + 4#32

/-- 10_state.md §5 and 20_memory.md §5: only the five stores and `syscall` change memory or, in strict mode,
what is present. -/
def Obligations.OnlyStoresWriteMemory : Prop :=
  ∀ (i : Instr) (s t : State), writesMem i = false → exec i s = .next t → MemKept s t

/-- 10_state.md §2: no instruction changes a general register other than its destination, and none changes what
register 0 reads as, even as its destination; only `mult`, `multu`, `div`, `divu` and the move into it write
`HI`, and likewise `LO`. -/
def Obligations.OnlyNamedRegistersWritten : Prop :=
  ∀ (i : Instr) (s t : State), exec i s = .next t →
    (∀ r, r ∉ writtenRegs i → t.readReg r = s.readReg r) ∧ t.readReg 0 = 0#32 ∧
    (writesHi i = false → t.hi = s.hi) ∧ (writesLo i = false → t.lo = s.lo)

/-- 00_scope.md and 47_control_unit.md: a step never changes the parameters of a run: the bridge, and whether
memory is strict; and it never sets a halted core running again. -/
def Obligations.ParametersConstant : Prop :=
  ∀ s t : State, step s = .next t →
    t.bridge = s.bridge ∧ (t.present = none ↔ s.present = none) ∧ (s.run ≠ .running → t = s)

/-- 47_control_unit.md, which marks it as derived: every run ends: from every state the core is halted after at
most one step more than its budget, and it then stays as it is. -/
def Obligations.EveryRunEnds : Prop :=
  ∀ s : State, ∃ t r, t.run = .halted r ∧ ∀ k, s.budget + 1 ≤ k → Host.Core.run core k s = .next t

/-- 47_control_unit.md: the snapshot shows the 34 register values, `HI` in slot 32 and `LO` in slot 33, and
`pc`. -/
def Obligations.SnapshotShowsRegisters : Prop :=
  ∀ s : State, s.snapshot.pc = s.pc ∧ s.snapshot.slots[32] = s.hi ∧ s.snapshot.slots[33] = s.lo ∧
    ∀ r : RegIdx, s.snapshot.slots[r.val] = s.readReg r

/-- The model's own placing of an instruction (no rule of the spec, log entry 7): after it, the very next step
runs the instruction that the word decodes to. -/
def Obligations.PlacedWordRunsNext : Prop :=
  ∀ (s : State) (i : Instr) (w : Nat), decodeTableWord 32 w = some i →
    step (s.withFetchWord 32 w) = exec i (s.withFetchWord 32 w)
end

