-- ==== Sys2Proof/Laws/Memory.lean ====
section
/-! SUPPORT. The laws of memory: reading after a write, the canonical form, and the multi-byte accesses
(R51 to R57). -/

namespace Sys2Proof

/-! ### One byte -/

@[simp] theorem Memory.read_nil (a : Nat) : Memory.read [] a = 0#8 := rfl

theorem Memory.read_cons (k : Nat) (b : Byte) (m : Memory) (a : Nat) :
    Memory.read ((k, b) :: m) a = if k = a then b else m.read a := rfl

theorem Memory.eraseCell_cons (k : Nat) (b : Byte) (m : Memory) (a : Nat) :
    Memory.eraseCell ((k, b) :: m) a = if k = a then m.eraseCell a else (k, b) :: m.eraseCell a := by
  by_cases h : k = a <;> simp [Memory.eraseCell, h]

theorem Memory.read_eraseCell (m : Memory) (a x : Nat) :
    (m.eraseCell a).read x = if x = a then 0#8 else m.read x := by
  induction m with
  | nil => simp [Memory.eraseCell]
  | cons c m ih =>
    obtain ⟨k, b⟩ := c
    rw [eraseCell_cons, read_cons]
    split
    · next h => rw [ih]; subst h; split <;> simp_all [eq_comm]
    · next h => rw [read_cons, ih]; by_cases hx : x = a <;> simp_all

theorem Memory.read_insertCell (m : Memory) (a x : Nat) (b : Byte) (h : ∀ c ∈ m, c.1 ≠ a) :
    (m.insertCell a b).read x = if x = a then b else m.read x := by
  induction m with
  | nil => simp [Memory.insertCell, read_cons, eq_comm]
  | cons c m ih =>
    obtain ⟨k, d⟩ := c
    have hk : k ≠ a := h (k, d) (by simp)
    have ih := ih fun c hc => h c (by simp [hc])
    rw [Memory.insertCell]
    split
    · rw [read_cons]; simp [eq_comm]
    · rw [read_cons, ih, read_cons]; by_cases hx : x = a <;> simp_all

theorem Memory.mem_eraseCell (m : Memory) (a : Nat) (c : Host.Cell) :
    c ∈ m.eraseCell a ↔ c ∈ m ∧ c.1 ≠ a := by
  simp [Memory.eraseCell]

/-- What a write of one byte does to every address (R52). -/
theorem Memory.read_write (m : Memory) (a x : Nat) (b : Byte) :
    (m.write a b).read x = if x = a then b else m.read x := by
  unfold Memory.write
  split
  · next h => rw [read_eraseCell, h]
  · rw [read_insertCell _ _ _ _ fun c hc => ((mem_eraseCell m a c).1 hc).2, read_eraseCell]
    split <;> rfl

/-- `readByte` after `writeByte` (R51, R52). -/
theorem Memory.readByte_writeByte (m : Memory) (a x : Word) (b : Byte) :
    (m.writeByte a b).readByte x = if x = a then b else m.readByte x := by
  unfold Memory.writeByte Memory.readByte
  rw [read_write]
  simp only [BitVec.toNat_inj]

/-! ### The canonical form -/

theorem Memory.mem_insertCell (m : Memory) (a : Nat) (b : Byte) (c : Host.Cell) :
    c ∈ m.insertCell a b ↔ c = (a, b) ∨ c ∈ m := by
  induction m with
  | nil => simp [Memory.insertCell]
  | cons d m ih =>
    obtain ⟨k, e⟩ := d
    rw [Memory.insertCell]
    split
    · simp
    · simp only [List.mem_cons, ih]; exact or_left_comm

theorem Memory.mem_write (m : Memory) (a : Nat) (b : Byte) (c : Host.Cell) (h : c ∈ m.write a b) :
    c.1 = a ∨ c ∈ m := by
  unfold Memory.write at h
  split at h
  · exact .inr ((mem_eraseCell m a c).1 h).1
  · obtain h | h := (mem_insertCell ..).1 h
    · exact .inl (by rw [h])
    · exact .inr ((mem_eraseCell m a c).1 h).1

theorem Memory.wf_eraseCell {m : Memory} (h : m.wf) (a : Nat) : (m.eraseCell a).wf :=
  ⟨h.1.sublist List.filter_sublist, fun c hc => h.2 c ((mem_eraseCell m a c).1 hc).1⟩

theorem Memory.wf_insertCell {m : Memory} (h : m.wf) {a : Nat} {b : Byte} (ha : a < 2 ^ 32) (hb : b ≠ 0#8)
    (hn : ∀ c ∈ m, c.1 ≠ a) : (m.insertCell a b).wf := by
  refine ⟨?_, fun c hc => ?_⟩
  · have hp := h.1
    clear h
    induction m with
    | nil => simp [Memory.insertCell]
    | cons d m ih =>
      obtain ⟨k, e⟩ := d
      have hp' := List.pairwise_cons.1 hp
      have hk : k ≠ a := hn (k, e) (by simp)
      rw [Memory.insertCell]
      split
      · next hlt =>
        refine List.pairwise_cons.2 ⟨fun c hc => ?_, hp⟩
        obtain rfl | hc := List.mem_cons.1 hc
        · exact hlt
        · exact Nat.lt_trans hlt (hp'.1 c hc)
      · next hge =>
        refine List.pairwise_cons.2 ⟨fun c hc => ?_, ih (fun c hc => hn c (by simp [hc])) hp'.2⟩
        obtain rfl | hc := (mem_insertCell ..).1 hc
        · exact Nat.lt_of_le_of_ne (Nat.le_of_not_lt hge) hk
        · exact hp'.1 c hc
  · obtain rfl | hc := (mem_insertCell ..).1 hc
    · exact ⟨ha, hb⟩
    · exact h.2 c hc

/-- A write keeps the canonical form. -/
theorem Memory.wf_write {m : Memory} (h : m.wf) {a : Nat} (b : Byte) (ha : a < 2 ^ 32) : (m.write a b).wf := by
  unfold Memory.write
  split
  · exact wf_eraseCell h a
  · next hb => exact wf_insertCell (wf_eraseCell h a) ha hb fun c hc => ((mem_eraseCell m a c).1 hc).2

theorem Memory.wf_writeByte {m : Memory} (h : m.wf) (a : Word) (b : Byte) : (m.writeByte a b).wf :=
  wf_write h b a.isLt

/-- A multi-byte write keeps the canonical form. -/
theorem Memory.wf_memWrite {m : Memory} (h : m.wf) (a : Word) (n v : Nat) : (m.memWrite a n v).wf := by
  induction n generalizing m a with
  | zero => exact h
  | succ n ih => exact ih (wf_writeByte h ..) _

theorem Memory.wf_nil : Memory.wf [] := ⟨List.Pairwise.nil, by simp⟩

theorem Memory.read_eq_zero_of_lt {m : Memory} {a : Nat} (h : ∀ c ∈ m, a < c.1) : m.read a = 0#8 := by
  induction m with
  | nil => rfl
  | cons c m ih =>
    obtain ⟨k, b⟩ := c
    have hk : a < k := h (k, b) (by simp)
    rw [read_cons, if_neg (by omega), ih fun c hc => h c (by simp [hc])]

/-- Two memories in canonical form that read alike are equal. -/
theorem Memory.ext_of_wf {m q : Memory} (hm : m.wf) (hq : q.wf) (h : ∀ a, m.read a = q.read a) : m = q := by
  induction m generalizing q with
  | nil =>
    cases q with
    | nil => rfl
    | cons d q =>
      obtain ⟨k, b⟩ := d
      have := h k
      rw [read_nil, read_cons, if_pos rfl] at this
      exact absurd this.symm (hq.2 (k, b) (by simp)).2
  | cons c m ih =>
    obtain ⟨k, b⟩ := c
    have hkb : b ≠ 0#8 := (hm.2 (k, b) (by simp)).2
    have hpm := List.pairwise_cons.1 hm.1
    cases q with
    | nil =>
      have := h k
      rw [read_nil, read_cons, if_pos rfl] at this
      exact absurd this hkb
    | cons d q =>
      obtain ⟨l, e⟩ := d
      have hle : e ≠ 0#8 := (hq.2 (l, e) (by simp)).2
      have hpq := List.pairwise_cons.1 hq.1
      have hkl : k = l := by
        rcases Nat.lt_trichotomy k l with hlt | heq | hgt
        · have := h k
          rw [read_cons, if_pos rfl, read_cons, if_neg (by omega),
            read_eq_zero_of_lt fun c hc => Nat.lt_trans hlt (hpq.1 c hc)] at this
          exact absurd this hkb
        · exact heq
        · have := h l
          rw [read_cons, if_neg (by omega), read_eq_zero_of_lt fun c hc => Nat.lt_trans hgt (hpm.1 c hc),
            read_cons, if_pos rfl] at this
          exact absurd this.symm hle
      subst hkl
      have hbe : b = e := by have := h k; rwa [read_cons, if_pos rfl, read_cons, if_pos rfl] at this
      subst hbe
      congr 1
      refine ih ⟨hpm.2, fun c hc => hm.2 c (by simp [hc])⟩ ⟨hpq.2, fun c hc => hq.2 c (by simp [hc])⟩ fun a => ?_
      by_cases ha : k = a
      · subst ha
        rw [read_eq_zero_of_lt fun c hc => hpm.1 c hc, read_eq_zero_of_lt fun c hc => hpq.1 c hc]
      · have := h a
        rwa [read_cons, if_neg ha, read_cons, if_neg ha] at this

/-- A canonical memory lists nothing outside the address space. -/
theorem Memory.read_of_ge {m : Memory} (h : m.wf) {a : Nat} (ha : 2 ^ 32 ≤ a) : m.read a = 0#8 := by
  have hb : ∀ c ∈ m, c.1 ≠ a := fun c hc => by have := (h.2 c hc).1; omega
  clear h
  induction m with
  | nil => rfl
  | cons c m ih =>
    obtain ⟨k, b⟩ := c
    rw [read_cons, if_neg (hb (k, b) (by simp)), ih fun c hc => hb c (by simp [hc])]

/-! ### Several bytes -/

/-- What `MemWrite` does to every byte: byte `i` from the most significant end goes to `addr + i` (R56). -/
theorem Memory.readByte_memWrite (m : Memory) (a x : Word) (n v : Nat) (hn : n ≤ 2 ^ 32) :
    (m.memWrite a n v).readByte x =
      if (x - a).toNat < n then BitVec.ofNat 8 (v / 256 ^ (n - 1 - (x - a).toNat)) else m.readByte x := by
  induction n generalizing m a with
  | zero => simp [Memory.memWrite]
  | succ n ih =>
    rw [Memory.memWrite, ih _ _ (by omega), readByte_writeByte]
    by_cases hx : x = a
    · subst hx
      have h1 : (x - (x + 1#32)).toNat = 2 ^ 32 - 1 := by bv_omega
      rw [if_neg (by omega), if_pos rfl, if_pos (by simp)]
      simp
    · have h1 : (x - (a + 1#32)).toNat + 1 = (x - a).toNat := by bv_omega
      rw [if_neg hx, ← h1]
      by_cases hlt : (x - (a + 1#32)).toNat < n
      · rw [if_pos hlt, if_pos (by omega)]
        congr 3
        omega
      · rw [if_neg hlt, if_neg (by omega)]

theorem Memory.memRead_succ (m : Memory) (a : Word) (n : Nat) :
    m.memRead a (n + 1) = (m.readByte a).toNat * 256 ^ n + m.memRead (a + 1#32) n := rfl

theorem Memory.memRead_lt (m : Memory) (a : Word) (n : Nat) : m.memRead a n < 256 ^ n := by
  induction n generalizing a with
  | zero => simp [Memory.memRead]
  | succ n ih =>
    have hb : (m.readByte a).toNat < 256 := (m.readByte a).isLt
    have := ih (a + 1#32)
    rw [memRead_succ, Nat.pow_succ]
    calc _ < (m.readByte a).toNat * 256 ^ n + 256 ^ n := by omega
      _ = ((m.readByte a).toNat + 1) * 256 ^ n := (Nat.succ_mul ..).symm
      _ ≤ 256 * 256 ^ n := Nat.mul_le_mul_right _ (by omega)
      _ = 256 ^ n * 256 := Nat.mul_comm ..

/-- `MemRead` depends only on the bytes it reads. -/
theorem Memory.memRead_congr {m q : Memory} {a : Word} {n : Nat}
    (h : ∀ k, k < n → m.readByte (a + BitVec.ofNat 32 k) = q.readByte (a + BitVec.ofNat 32 k)) :
    m.memRead a n = q.memRead a n := by
  induction n generalizing a with
  | zero => rfl
  | succ n ih =>
    have h0 := h 0 (by omega)
    rw [show a + BitVec.ofNat 32 0 = a from BitVec.add_zero a] at h0
    rw [memRead_succ, memRead_succ, h0, ih fun k hk => ?_]
    have := h (k + 1) (by omega)
    have e : a + 1#32 + BitVec.ofNat 32 k = a + BitVec.ofNat 32 (k + 1) := by
      rw [BitVec.add_assoc]; congr 1; rw [← BitVec.ofNat_add, Nat.add_comm]
    rwa [e]

/-- A `MemWrite` is read back by a `MemRead` (R56). -/
theorem Memory.memRead_memWrite (m : Memory) (a : Word) (n v : Nat) (hn : n ≤ 2 ^ 32) :
    (m.memWrite a n v).memRead a n = v % 256 ^ n := by
  induction n generalizing m a with
  | zero => simp [Memory.memRead, Nat.mod_one]
  | succ n ih =>
    have h0 : (m.memWrite a (n + 1) v).readByte a = BitVec.ofNat 8 (v / 256 ^ n) := by
      rw [readByte_memWrite _ _ _ _ _ hn]; simp
    rw [memRead_succ, h0, Memory.memWrite, ih _ _ (by omega), BitVec.toNat_ofNat]
    rw [Nat.mod_pow_succ (b := 256), Nat.add_comm, Nat.mul_comm]

/-- `readWord` is the four bytes in big-endian order (R53). -/
theorem Memory.readWord_eq (m : Memory) (a : Word) : m.readWord a = wordAt m a := by
  apply BitVec.eq_of_toNat_eq
  have h1 : a + 1#32 + 1#32 = a + 2#32 := by bv_omega
  have h2 : a + 2#32 + 1#32 = a + 3#32 := by bv_omega
  have b0 := (m.readByte a).isLt
  have b1 := (m.readByte (a + 1#32)).isLt
  have b2 := (m.readByte (a + 2#32)).isLt
  have b3 := (m.readByte (a + 3#32)).isLt
  simp only [Memory.readWord, Memory.memRead, h1, h2, wordAt, BitVec.toNat_ofNat, BitVec.toNat_append]
  rw [← Nat.shiftLeft_add_eq_or_of_lt b1, ← Nat.shiftLeft_add_eq_or_of_lt b2, ← Nat.shiftLeft_add_eq_or_of_lt b3]
  simp only [Nat.shiftLeft_eq]
  omega

end Sys2Proof
end

