-- ==== Sys2Proof/Laws/State.lean ====
section
/-! SUPPORT. One lemma per field per update of State, and what each update leaves of the registers as read,
so that no later proof unfolds a record update. -/

namespace Sys2Proof.Machine

/-! ### `writeHiLo`, `writeHi`, `writeLo` -/

@[simp] theorem State.writeHiLo_gpr (s : State) (h l : Word) : (s.writeHiLo h l).gpr = s.gpr := rfl
@[simp] theorem State.writeHiLo_hi (s : State) (h l : Word) : (s.writeHiLo h l).hi = h := rfl
@[simp] theorem State.writeHiLo_lo (s : State) (h l : Word) : (s.writeHiLo h l).lo = l := rfl
@[simp] theorem State.writeHiLo_pc (s : State) (h l : Word) : (s.writeHiLo h l).pc = s.pc := rfl
@[simp] theorem State.writeHiLo_mem (s : State) (h l : Word) : (s.writeHiLo h l).mem = s.mem := rfl
@[simp] theorem State.writeHiLo_run (s : State) (h l : Word) : (s.writeHiLo h l).run = s.run := rfl
@[simp] theorem State.writeHiLo_budget (s : State) (h l : Word) : (s.writeHiLo h l).budget = s.budget := rfl
@[simp] theorem State.writeHiLo_present (s : State) (h l : Word) : (s.writeHiLo h l).present = s.present := rfl
@[simp] theorem State.writeHiLo_bridge (s : State) (h l : Word) : (s.writeHiLo h l).bridge = s.bridge := rfl

@[simp] theorem State.writeHi_gpr (s : State) (h : Word) : (s.writeHi h).gpr = s.gpr := rfl
@[simp] theorem State.writeHi_hi (s : State) (h : Word) : (s.writeHi h).hi = h := rfl
@[simp] theorem State.writeHi_lo (s : State) (h : Word) : (s.writeHi h).lo = s.lo := rfl
@[simp] theorem State.writeHi_pc (s : State) (h : Word) : (s.writeHi h).pc = s.pc := rfl
@[simp] theorem State.writeHi_mem (s : State) (h : Word) : (s.writeHi h).mem = s.mem := rfl
@[simp] theorem State.writeHi_run (s : State) (h : Word) : (s.writeHi h).run = s.run := rfl
@[simp] theorem State.writeHi_budget (s : State) (h : Word) : (s.writeHi h).budget = s.budget := rfl
@[simp] theorem State.writeHi_present (s : State) (h : Word) : (s.writeHi h).present = s.present := rfl
@[simp] theorem State.writeHi_bridge (s : State) (h : Word) : (s.writeHi h).bridge = s.bridge := rfl

@[simp] theorem State.writeLo_gpr (s : State) (l : Word) : (s.writeLo l).gpr = s.gpr := rfl
@[simp] theorem State.writeLo_hi (s : State) (l : Word) : (s.writeLo l).hi = s.hi := rfl
@[simp] theorem State.writeLo_lo (s : State) (l : Word) : (s.writeLo l).lo = l := rfl
@[simp] theorem State.writeLo_pc (s : State) (l : Word) : (s.writeLo l).pc = s.pc := rfl
@[simp] theorem State.writeLo_mem (s : State) (l : Word) : (s.writeLo l).mem = s.mem := rfl
@[simp] theorem State.writeLo_run (s : State) (l : Word) : (s.writeLo l).run = s.run := rfl
@[simp] theorem State.writeLo_budget (s : State) (l : Word) : (s.writeLo l).budget = s.budget := rfl
@[simp] theorem State.writeLo_present (s : State) (l : Word) : (s.writeLo l).present = s.present := rfl
@[simp] theorem State.writeLo_bridge (s : State) (l : Word) : (s.writeLo l).bridge = s.bridge := rfl

/-! ### `halt` and `raise` -/

@[simp] theorem State.halt_gpr (s : State) (c : Cause) (w : Option Word) : (s.halt c w).gpr = s.gpr := rfl
@[simp] theorem State.halt_hi (s : State) (c : Cause) (w : Option Word) : (s.halt c w).hi = s.hi := rfl
@[simp] theorem State.halt_lo (s : State) (c : Cause) (w : Option Word) : (s.halt c w).lo = s.lo := rfl
@[simp] theorem State.halt_pc (s : State) (c : Cause) (w : Option Word) : (s.halt c w).pc = s.pc := rfl
@[simp] theorem State.halt_mem (s : State) (c : Cause) (w : Option Word) : (s.halt c w).mem = s.mem := rfl
@[simp] theorem State.halt_run (s : State) (c : Cause) (w : Option Word) : (s.halt c w).run = .halted ⟨c, s.pc, w⟩ := rfl
@[simp] theorem State.halt_budget (s : State) (c : Cause) (w : Option Word) : (s.halt c w).budget = s.budget := rfl
@[simp] theorem State.halt_present (s : State) (c : Cause) (w : Option Word) : (s.halt c w).present = s.present := rfl
@[simp] theorem State.halt_bridge (s : State) (c : Cause) (w : Option Word) : (s.halt c w).bridge = s.bridge := rfl

@[simp] theorem State.raise_gpr (s : State) (c : Cause) : (s.raise c).gpr = s.gpr := rfl
@[simp] theorem State.raise_hi (s : State) (c : Cause) : (s.raise c).hi = s.hi := rfl
@[simp] theorem State.raise_lo (s : State) (c : Cause) : (s.raise c).lo = s.lo := rfl
@[simp] theorem State.raise_pc (s : State) (c : Cause) : (s.raise c).pc = s.pc := rfl
@[simp] theorem State.raise_mem (s : State) (c : Cause) : (s.raise c).mem = s.mem := rfl
@[simp] theorem State.raise_run (s : State) (c : Cause) : (s.raise c).run = .halted ⟨c, s.pc, some s.fetchWord⟩ := rfl
@[simp] theorem State.raise_budget (s : State) (c : Cause) : (s.raise c).budget = s.budget := rfl
@[simp] theorem State.raise_present (s : State) (c : Cause) : (s.raise c).present = s.present := rfl
@[simp] theorem State.raise_bridge (s : State) (c : Cause) : (s.raise c).bridge = s.bridge := rfl

/-! ### `store` -/

@[simp] theorem State.store_gpr (s : State) (a : Word) (n v : Nat) : (s.store a n v).gpr = s.gpr := rfl
@[simp] theorem State.store_hi (s : State) (a : Word) (n v : Nat) : (s.store a n v).hi = s.hi := rfl
@[simp] theorem State.store_lo (s : State) (a : Word) (n v : Nat) : (s.store a n v).lo = s.lo := rfl
@[simp] theorem State.store_pc (s : State) (a : Word) (n v : Nat) : (s.store a n v).pc = s.pc := rfl
@[simp] theorem State.store_mem (s : State) (a : Word) (n v : Nat) : (s.store a n v).mem = s.mem.memWrite a n v := rfl
@[simp] theorem State.store_run (s : State) (a : Word) (n v : Nat) : (s.store a n v).run = s.run := rfl
@[simp] theorem State.store_budget (s : State) (a : Word) (n v : Nat) : (s.store a n v).budget = s.budget := rfl
@[simp] theorem State.store_present (s : State) (a : Word) (n v : Nat) : (s.store a n v).present = s.present.map fun p => markPresent p a n := rfl
@[simp] theorem State.store_bridge (s : State) (a : Word) (n v : Nat) : (s.store a n v).bridge = s.bridge := rfl

/-! ### `retire` -/

@[simp] theorem State.retire_gpr (s : State) (d : Directive) : (s.retire d).gpr = s.gpr := rfl
@[simp] theorem State.retire_hi (s : State) (d : Directive) : (s.retire d).hi = s.hi := rfl
@[simp] theorem State.retire_lo (s : State) (d : Directive) : (s.retire d).lo = s.lo := rfl
@[simp] theorem State.retire_pc (s : State) (d : Directive) : (s.retire d).pc = (match d with | .noJump => s.pc + 4#32 | .jumpTo t => t) := rfl
@[simp] theorem State.retire_mem (s : State) (d : Directive) : (s.retire d).mem = s.mem := rfl
@[simp] theorem State.retire_run (s : State) (d : Directive) : (s.retire d).run = s.run := rfl
@[simp] theorem State.retire_budget (s : State) (d : Directive) : (s.retire d).budget = s.budget - 1 := rfl
@[simp] theorem State.retire_present (s : State) (d : Directive) : (s.retire d).present = s.present := rfl
@[simp] theorem State.retire_bridge (s : State) (d : Directive) : (s.retire d).bridge = s.bridge := rfl

/-! ### `placeWord` -/

@[simp] theorem State.placeWord_gpr (s : State) (w : Word) : (s.placeWord w).gpr = s.gpr := rfl
@[simp] theorem State.placeWord_hi (s : State) (w : Word) : (s.placeWord w).hi = s.hi := rfl
@[simp] theorem State.placeWord_lo (s : State) (w : Word) : (s.placeWord w).lo = s.lo := rfl
@[simp] theorem State.placeWord_pc (s : State) (w : Word) : (s.placeWord w).pc = s.pc := rfl
@[simp] theorem State.placeWord_mem (s : State) (w : Word) : (s.placeWord w).mem = s.mem.memWrite s.pc 4 w.toNat := rfl
@[simp] theorem State.placeWord_run (s : State) (w : Word) : (s.placeWord w).run = .running := rfl
@[simp] theorem State.placeWord_budget (s : State) (w : Word) : (s.placeWord w).budget = max s.budget 1 := rfl
@[simp] theorem State.placeWord_present (s : State) (w : Word) : (s.placeWord w).present = s.present.map fun p => markPresent p s.pc 4 := rfl
@[simp] theorem State.placeWord_bridge (s : State) (w : Word) : (s.placeWord w).bridge = s.bridge := rfl

/-! ### `writeReg` and the registers as read (R17, R22) -/

@[simp] theorem State.writeReg_hi (s : State) (i : RegIdx) (v : Word) : (s.writeReg i v).hi = s.hi := by
  unfold State.writeReg; split <;> rfl
@[simp] theorem State.writeReg_lo (s : State) (i : RegIdx) (v : Word) : (s.writeReg i v).lo = s.lo := by
  unfold State.writeReg; split <;> rfl
@[simp] theorem State.writeReg_pc (s : State) (i : RegIdx) (v : Word) : (s.writeReg i v).pc = s.pc := by
  unfold State.writeReg; split <;> rfl
@[simp] theorem State.writeReg_mem (s : State) (i : RegIdx) (v : Word) : (s.writeReg i v).mem = s.mem := by
  unfold State.writeReg; split <;> rfl
@[simp] theorem State.writeReg_run (s : State) (i : RegIdx) (v : Word) : (s.writeReg i v).run = s.run := by
  unfold State.writeReg; split <;> rfl
@[simp] theorem State.writeReg_budget (s : State) (i : RegIdx) (v : Word) : (s.writeReg i v).budget = s.budget := by
  unfold State.writeReg; split <;> rfl
@[simp] theorem State.writeReg_present (s : State) (i : RegIdx) (v : Word) : (s.writeReg i v).present = s.present := by
  unfold State.writeReg; split <;> rfl
@[simp] theorem State.writeReg_bridge (s : State) (i : RegIdx) (v : Word) : (s.writeReg i v).bridge = s.bridge := by
  unfold State.writeReg; split <;> rfl

/-- Register 0 reads as 0 in every state (R22). -/
@[simp] theorem State.readReg_zero (s : State) : s.readReg 0 = 0#32 := rfl

theorem State.readReg_of_ne (s : State) {i : RegIdx} (h : i ≠ 0) : s.readReg i = s.gpr[i] := if_neg h

/-- A write to register 0 is discarded (R22). -/
@[simp] theorem State.writeReg_zero (s : State) (v : Word) : s.writeReg 0 v = s := rfl

/-- What a register write does to every register as read (R17, R22). -/
theorem State.readReg_writeReg (s : State) (i r : RegIdx) (v : Word) :
    (s.writeReg i v).readReg r = if r = 0 then 0#32 else if r = i then v else s.readReg r := by
  by_cases hr : r = 0
  · simp [hr]
  · by_cases hi : i = 0
    · subst hi; simp [hr]
    · have hv : ∀ h : r.val < 32, (s.gpr.set i.val v)[r.val] = if i.val = r.val then v else s.gpr[r.val] := by
        intro h; exact Vector.getElem_set ..
      simp only [State.readReg, State.writeReg, hi, hr, if_false, Fin.getElem_fin, hv, Fin.ext_iff, eq_comm]

/-- A register write keeps slot 0. -/
@[simp] theorem State.gpr_zero_writeReg (s : State) (i : RegIdx) (v : Word) : (s.writeReg i v).gpr[0] = s.gpr[0] := by
  unfold State.writeReg
  split
  · rfl
  · rename_i h
    have h0 : i.val ≠ 0 := fun e => h (Fin.ext e)
    simp [h0]

@[simp] theorem State.readReg_writeHiLo (s : State) (h l : Word) (i : RegIdx) : (s.writeHiLo h l).readReg i = s.readReg i := rfl
@[simp] theorem State.readReg_writeHi (s : State) (h : Word) (i : RegIdx) : (s.writeHi h).readReg i = s.readReg i := rfl
@[simp] theorem State.readReg_writeLo (s : State) (l : Word) (i : RegIdx) : (s.writeLo l).readReg i = s.readReg i := rfl
@[simp] theorem State.readReg_halt (s : State) (c : Cause) (w : Option Word) (i : RegIdx) : (s.halt c w).readReg i = s.readReg i := rfl
@[simp] theorem State.readReg_raise (s : State) (c : Cause) (i : RegIdx) : (s.raise c).readReg i = s.readReg i := rfl
@[simp] theorem State.readReg_store (s : State) (a : Word) (n v : Nat) (i : RegIdx) : (s.store a n v).readReg i = s.readReg i := rfl
@[simp] theorem State.readReg_retire (s : State) (d : Directive) (i : RegIdx) : (s.retire d).readReg i = s.readReg i := rfl
@[simp] theorem State.readReg_placeWord (s : State) (w : Word) (i : RegIdx) : (s.placeWord w).readReg i = s.readReg i := rfl

end Sys2Proof.Machine
end

