-- ==== Sys2Proof/Laws/Ops.lean ====
section
/-! SUPPORT. One lemma per shared operation that says everything the operation can do, in the terms of
Safety.lean; proofs cite these instead of unfolding the operations. -/

namespace Sys2Proof.Machine

/-! ### The set of present addresses (R243) -/

theorem mem_insertAddress (p : List Nat) (a x : Nat) : x ∈ insertAddress p a ↔ x = a ∨ x ∈ p := by
  induction p with
  | nil => simp [insertAddress]
  | cons k p ih =>
    rw [insertAddress]
    split
    · simp
    · split
      · next h => subst h; simp
      · simp only [List.mem_cons, ih]; exact or_left_comm

theorem pairwise_insertAddress {p : List Nat} (h : p.Pairwise (· < ·)) (a : Nat) :
    (insertAddress p a).Pairwise (· < ·) := by
  induction p with
  | nil => simp [insertAddress]
  | cons k p ih =>
    have hp := List.pairwise_cons.1 h
    rw [insertAddress]
    split
    · next hlt =>
      refine List.pairwise_cons.2 ⟨fun x hx => ?_, h⟩
      obtain rfl | hx := List.mem_cons.1 hx
      · exact hlt
      · exact Nat.lt_trans hlt (hp.1 x hx)
    · split
      · exact h
      · next h1 h2 =>
        refine List.pairwise_cons.2 ⟨fun x hx => ?_, ih hp.2⟩
        obtain rfl | hx := (mem_insertAddress ..).1 hx
        · show k < x
          omega
        · exact hp.1 x hx

theorem markPresent_succ (p : List Nat) (a : Word) (n : Nat) :
    markPresent p a (n + 1) = markPresent (insertAddress p a.toNat) (a + 1#32) n := rfl

theorem pairwise_markPresent {p : List Nat} (h : p.Pairwise (· < ·)) (a : Word) (n : Nat) :
    (markPresent p a n).Pairwise (· < ·) := by
  induction n generalizing p a with
  | zero => exact h
  | succ n ih => exact ih (pairwise_insertAddress h _) _

theorem lt_of_mem_markPresent {p : List Nat} (h : ∀ x ∈ p, x < 2 ^ 32) (a : Word) (n : Nat) :
    ∀ x ∈ markPresent p a n, x < 2 ^ 32 := by
  induction n generalizing p a with
  | zero => exact h
  | succ n ih =>
    refine ih (fun x hx => ?_) _
    obtain rfl | hx := (mem_insertAddress ..).1 hx
    · exact a.isLt
    · exact h x hx

/-- Which addresses are present after a write: those that were, and the `n` from `a` on. -/
theorem mem_markPresent (p : List Nat) (a x : Word) (n : Nat) :
    x.toNat ∈ markPresent p a n ↔ x.toNat ∈ p ∨ (x - a).toNat < n := by
  induction n generalizing p a with
  | zero => simp [markPresent]
  | succ n ih =>
    rw [markPresent_succ, ih, mem_insertAddress, BitVec.toNat_inj]
    by_cases hx : x = a
    · subst hx; simp
    · have h1 : (x - (a + 1#32)).toNat + 1 = (x - a).toNat := by bv_omega
      rw [← h1]
      simp only [hx, false_or]
      exact or_congr Iff.rfl (by omega)

/-- Nothing stops being present. -/
theorem mem_markPresent_of_mem {p : List Nat} {x : Nat} (h : x ∈ p) (a : Word) (n : Nat) :
    x ∈ markPresent p a n := by
  induction n generalizing p a with
  | zero => exact h
  | succ n ih => exact ih ((mem_insertAddress ..).2 (.inr h)) _

theorem allPresent_iff (p : List Nat) (a : Word) (n : Nat) :
    allPresent p a n = true ↔ ∀ k, k < n → (a + BitVec.ofNat 32 k).toNat ∈ p := by
  induction n generalizing a with
  | zero => simp [allPresent]
  | succ n ih =>
    have e : ∀ k, a + 1#32 + BitVec.ofNat 32 k = a + BitVec.ofNat 32 (k + 1) := fun k => by
      rw [BitVec.add_assoc]; congr 1; rw [← BitVec.ofNat_add, Nat.add_comm]
    rw [allPresent, Bool.and_eq_true, ih, List.contains_iff_mem]
    simp only [e]
    constructor
    · rintro ⟨h0, h⟩ k hk
      cases k with
      | zero => rwa [show a + BitVec.ofNat 32 0 = a from BitVec.add_zero a]
      | succ k => exact h k (by omega)
    · intro h
      refine ⟨?_, fun k hk => h (k + 1) (by omega)⟩
      have := h 0 (by omega)
      rwa [show a + BitVec.ofNat 32 0 = a from BitVec.add_zero a] at this

/-- The check of a read is the one the spec describes (R63, R243). -/
theorem State.canRead_iff (s : State) (a : Word) (n : Nat) : s.canRead a n = true ↔ Readable s a n := by
  unfold State.canRead Readable
  cases h : s.present with
  | none => simp
  | some p => simp [allPresent_iff]

theorem readable_of_tolerant {s : State} (h : s.present = none) (a : Word) (n : Nat) : Readable s a n := by
  intro p hp; rw [h] at hp; cases hp

/-! ### Frames -/

theorem RegsKept.refl (s : State) : RegsKept s s := fun _ => rfl

theorem MemKept.refl (s : State) : MemKept s s := ⟨fun _ => rfl, rfl⟩

theorem State.fetchWord_eq (s : State) : s.fetchWord = wordAt s.mem s.pc := Memory.readWord_eq ..

/-- `raise` is the halt transition with the word at `pc` (R250). -/
theorem State.raise_spec (s : State) (c : Cause) :
    HaltsWith (.next (s.raise c)) s c (some (wordAt s.mem s.pc)) := by
  rw [HaltsWith, ← State.fetchWord_eq]; rfl

/-- An instruction that writes one register and does not jump. -/
theorem State.writeBack_spec (s : State) (rd : RegIdx) (v : Word) {P : Word → Prop} (h : P v) :
    WritesReg (s.writeBack rd v) s rd P := by
  refine ⟨_, v, rfl, h, fun r => ?_, ⟨by simp, by simp⟩, ⟨by simp, by simp⟩, ⟨by simp, by simp, by simp, by simp⟩⟩
  rw [State.readReg_retire, State.readReg_writeReg]

/-- A load: the register written when the bytes can be read, else the precise `MemoryFault`. -/
theorem State.load_spec (s : State) (a : Word) (n : Nat) (rt : RegIdx) (f : Nat → Word) {P : Word → Prop}
    (h : P (f (s.mem.memRead a n))) : Loads (s.load a n rt f) s a n rt P := by
  unfold State.load Loads
  rw [← State.canRead_iff]
  refine ⟨fun hr => ?_, fun hr => ?_⟩
  · rw [if_pos hr]; exact s.writeBack_spec rt _ h
  · rw [if_neg hr]; exact s.raise_spec _

/-- What a store leaves in memory, and what it makes present (R56, R243). -/
theorem State.store_spec (s : State) (a : Word) (n v : Nat) (hn : n ≤ 2 ^ 32) :
    MemStored s (s.store a n v) a n fun k => BitVec.ofNat 8 (v / 256 ^ (n - 1 - k)) := by
  refine ⟨fun x => ?_, fun h => by simp [h], fun p h => ⟨markPresent p a n, by simp [h], fun x => mem_markPresent ..⟩⟩
  rw [State.store_mem, Memory.readByte_memWrite _ _ _ _ _ hn]

/-- An instruction that stores and does not jump. -/
theorem State.store_retire_spec (s : State) (a : Word) (n v : Nat) (hn : n ≤ 2 ^ 32) (f : Nat → Byte)
    (h : ∀ k, k < n → BitVec.ofNat 8 (v / 256 ^ (n - 1 - k)) = f k) :
    Stores (.next ((s.store a n v).retire .noJump)) s a n f := by
  obtain ⟨hm, hp⟩ := s.store_spec a n v hn
  refine ⟨_, rfl, ⟨fun x => ?_, hp⟩, fun r => by simp, ⟨by simp, by simp⟩, ⟨by simp, by simp, by simp, by simp⟩⟩
  rw [State.retire_mem, hm]
  split
  · next hx => exact h _ hx
  · rfl

/-- An instruction that writes `HI` and `LO` and does not jump. -/
theorem State.writeHiLo_retire_spec (s : State) (h l : Word) {P : Word → Word → Prop} (hP : P h l) :
    WritesHiLo (.next ((s.writeHiLo h l).retire .noJump)) s P :=
  ⟨_, rfl, hP, fun _ => rfl, ⟨fun _ => rfl, rfl⟩, ⟨rfl, rfl, rfl, rfl⟩⟩

/-- An instruction that only jumps. -/
theorem State.jump_spec (s : State) (p : Word) : JumpsTo (.next (s.retire (.jumpTo p))) s p :=
  ⟨_, rfl, fun _ => rfl, ⟨rfl, rfl⟩, ⟨fun _ => rfl, rfl⟩, ⟨rfl, rfl, rfl, rfl⟩⟩

/-- An instruction that only moves on. -/
theorem State.noJump_spec (s : State) : JumpsTo (.next (s.retire .noJump)) s (s.pc + 4#32) :=
  ⟨_, rfl, fun _ => rfl, ⟨rfl, rfl⟩, ⟨fun _ => rfl, rfl⟩, ⟨rfl, rfl, rfl, rfl⟩⟩

/-- An instruction that links and jumps. -/
theorem State.link_spec (s : State) (rd : RegIdx) (p : Word) :
    LinksTo (.next ((s.writeReg rd (s.pc + 4#32)).retire (.jumpTo p))) s rd p :=
  ⟨_, rfl, fun r => by rw [State.readReg_retire, State.readReg_writeReg], ⟨by simp, by simp⟩,
    ⟨by simp, by simp⟩, ⟨by simp, by simp, by simp, by simp⟩⟩

/-- A branch goes to its target when the condition holds and on to the next instruction when not. -/
theorem State.branchIf_spec (s : State) (c : Bool) (imm : BitVec 16) :
    JumpsTo (s.branchIf c imm) s (if c then branchTarget s.pc imm else s.pc + 4#32) := by
  cases c
  · exact s.noJump_spec
  · exact s.jump_spec _

/-! ### The bridge (R215) -/

/-- The bytes the bridge writes: the last write to an address wins. -/
theorem State.storeBytes_spec (s : State) (ws : List (Word × Byte)) (x : Word) :
    (s.storeBytes ws).mem.readByte x =
      ((ws.reverse.find? fun c => c.1 == x).map fun c => c.2).getD (s.mem.readByte x) := by
  induction ws generalizing s with
  | nil => rfl
  | cons c ws ih =>
    obtain ⟨a, b⟩ := c
    have hs : (s.store a 1 b.toNat).mem.readByte x = if x = a then b else s.mem.readByte x := by
      rw [State.store_mem]
      show ((s.mem.writeByte a (BitVec.ofNat 8 (b.toNat / 256 ^ 0))).memWrite (a + 1#32) 0 b.toNat).readByte x = _
      rw [Memory.memWrite, Memory.readByte_writeByte, Nat.pow_zero, Nat.div_one, BitVec.ofNat_toNat, BitVec.setWidth_eq]
    rw [State.storeBytes, ih, hs, List.reverse_cons, List.find?_append]
    cases List.find? (fun c => c.1 == x) ws.reverse with
    | some d => rfl
    | none =>
      by_cases hx : a = x
      · subst hx; simp
      · have : (a == x) = false := by simpa using hx
        simp [this, Ne.symm hx]

@[simp] theorem State.storeBytes_nil (s : State) : s.storeBytes [] = s := rfl

/-- The bridge's writes reach only memory and, in strict mode, what is present. -/
theorem State.storeBytes_frame (s : State) (ws : List (Word × Byte)) :
    (s.storeBytes ws).gpr = s.gpr ∧ (s.storeBytes ws).hi = s.hi ∧ (s.storeBytes ws).lo = s.lo ∧
    (s.storeBytes ws).pc = s.pc ∧ (s.storeBytes ws).run = s.run ∧ (s.storeBytes ws).budget = s.budget ∧
    (s.storeBytes ws).bridge = s.bridge ∧ ((s.storeBytes ws).present = none ↔ s.present = none) := by
  induction ws generalizing s with
  | nil => simp
  | cons c ws ih =>
    obtain ⟨a, b⟩ := c
    simpa [State.storeBytes] using ih (s.store a 1 b.toNat)

/-- In strict mode the addresses that the bridge writes become present and no other changes (log entry 11). -/
theorem State.storeBytes_present (s : State) (ws : List (Word × Byte)) {p : List Nat} (h : s.present = some p) :
    ∃ q, (s.storeBytes ws).present = some q ∧ ∀ x : Word, x.toNat ∈ q ↔ x.toNat ∈ p ∨ ∃ c ∈ ws, c.1 = x := by
  induction ws generalizing s p with
  | nil => exact ⟨p, h, fun x => by simp⟩
  | cons c ws ih =>
    obtain ⟨q, hq, e⟩ := ih (s.store c.1 1 c.2.toNat) (p := insertAddress p c.1.toNat) (by
      rw [State.store_present, h]; rfl)
    refine ⟨q, hq, fun x => ?_⟩
    rw [e, mem_insertAddress, BitVec.toNat_inj, eq_comm (a := x), or_comm (a := c.1 = x), or_assoc]
    simp only [List.mem_cons, exists_eq_or_imp]

theorem State.readReg_storeBytes (s : State) (ws : List (Word × Byte)) (r : RegIdx) :
    (s.storeBytes ws).readReg r = s.readReg r := by
  unfold State.readReg; rw [(s.storeBytes_frame ws).1]

end Sys2Proof.Machine
end

