-- ==== Sys2Proof/Laws/Boot.lean ====
section
/-! SUPPORT. What placing the bytes of an image does to memory and to the set of present addresses (R243, R271). -/

namespace Sys2Proof.Machine

/-- The bytes placed are read back, and every other byte is as before. -/
theorem placeBytes_spec (m : Memory) (a x : Word) (bs : List Byte) (h : bs.length ≤ 2 ^ 32) :
    (placeBytes m a bs).readByte x =
      if h : (x - a).toNat < bs.length then bs[(x - a).toNat] else m.readByte x := by
  induction bs generalizing m a with
  | nil => rfl
  | cons b bs ih =>
    simp only [List.length_cons] at h
    rw [placeBytes, ih _ _ (by omega), Memory.readByte_writeByte]
    by_cases hx : x = a
    · subst hx
      have e0 : (x - x).toNat = 0 := by rw [BitVec.sub_self]; rfl
      have e1 : (x - (x + 1#32)).toNat = 2 ^ 32 - 1 := by
        rw [BitVec.toNat_sub, BitVec.toNat_add]
        have := x.isLt
        simp only [BitVec.toNat_ofNat]
        omega
      rw [dif_neg (by omega), if_pos rfl, dif_pos (by simp)]
      simp
    · have hne : (x - a).toNat ≠ 0 := fun e => hx (by
        have h0 : x - a = 0#32 := BitVec.eq_of_toNat_eq e
        rw [← BitVec.sub_add_cancel x a, h0, BitVec.zero_add])
      have e1 : (x - (a + 1#32)).toNat = (x - a).toNat - 1 := by
        rw [BitVec.toNat_sub] at *
        rw [BitVec.toNat_sub, BitVec.toNat_add]
        have := x.isLt
        have := a.isLt
        simp only [BitVec.toNat_ofNat]
        omega
      rw [if_neg hx]
      by_cases hl : (x - a).toNat < bs.length + 1
      · rw [dif_pos (by omega), dif_pos (by simpa using hl), List.getElem_cons, dif_neg hne]
        simp only [e1]
      · rw [dif_neg (by omega), dif_neg (by simpa using hl)]

theorem wf_placeBytes {m : Memory} (h : m.wf) (a : Word) (bs : List Byte) : (placeBytes m a bs).wf := by
  induction bs generalizing m a with
  | nil => exact h
  | cons b bs ih => exact ih (Memory.wf_writeByte h _ _) _

/-- What is placed is present when its addresses are marked. -/
theorem covered_placeBytes {m : Memory} {p : List Nat} (h : ∀ c ∈ m, c.1 ∈ p) (a : Word) (bs : List Byte) (n : Nat)
    (hn : bs.length ≤ n) : ∀ c ∈ placeBytes m a bs, c.1 ∈ markPresent p a n := by
  induction bs generalizing m p a n with
  | nil => exact fun c hc => mem_markPresent_of_mem (h c hc) a n
  | cons b bs ih =>
    cases n with
    | zero => exact absurd hn (by simp)
    | succ n =>
      refine ih (fun c hc => (mem_insertAddress ..).2 ?_) _ n (Nat.le_of_succ_le_succ hn)
      exact (Memory.mem_write m a.toNat _ c hc).imp id (h c)

theorem length_segmentBytes (file : List Byte) (g : Segment) :
    (segmentBytes file g).length = max g.fileLength g.memorySize := by
  rw [segmentBytes, List.length_append, List.length_map, List.length_range, List.length_replicate]
  omega

/-- The bytes of a segment: those of the file, then 0. -/
theorem getElem_segmentBytes (file : List Byte) (g : Segment) (k : Nat) (h : k < (segmentBytes file g).length) :
    (segmentBytes file g)[k] = if k < g.fileLength then file.getD (g.fileOffset + k) 0#8 else 0#8 := by
  simp only [segmentBytes, List.getElem_append, List.length_map, List.length_range]
  split
  · rw [List.getElem_map, List.getElem_range]
  · rw [List.getElem_replicate]

/-- An image with one segment more is the image without it with that segment placed. -/
theorem imageMemory_append (e : ExecutableImage) (gs : List Segment) (g : Segment) (h : e.segments = gs ++ [g]) :
    imageMemory e = placeBytes (imageMemory { e with segments := gs }) g.loadAddress (segmentBytes e.file g) := by
  simp only [imageMemory, h, List.foldl_append, List.foldl_cons, List.foldl_nil]

/-- What is present after marking the segments of a list, in order. -/
theorem markSegments_spec (gs : List Segment) (p : List Nat) (h1 : p.Pairwise (· < ·)) (h2 : ∀ a ∈ p, a < 2 ^ 32) :
    (gs.foldl (fun p g => markPresent p g.loadAddress g.memorySize) p).Pairwise (· < ·) ∧
    (∀ a ∈ gs.foldl (fun p g => markPresent p g.loadAddress g.memorySize) p, a < 2 ^ 32) ∧
    ∀ a : Word, a.toNat ∈ gs.foldl (fun p g => markPresent p g.loadAddress g.memorySize) p ↔
      a.toNat ∈ p ∨ ∃ g ∈ gs, (a - g.loadAddress).toNat < g.memorySize := by
  induction gs generalizing p with
  | nil => exact ⟨h1, h2, fun a => by simp⟩
  | cons g gs ih =>
    obtain ⟨a1, a2, a3⟩ := ih _ (pairwise_markPresent h1 g.loadAddress g.memorySize) (lt_of_mem_markPresent h2 _ _)
    refine ⟨a1, a2, fun a => ?_⟩
    rw [List.foldl_cons, a3, mem_markPresent, or_assoc]
    simp only [List.mem_cons, exists_eq_or_imp]

end Sys2Proof.Machine
end

