-- ==== Sys2Proof/Laws/Operands.lean ====
section
/-! SUPPORT. The operand forms and conditions, read as arithmetic (R16, R86, R166, R167, R190, R205). -/

namespace Sys2Proof.Machine

theorem sext16_toInt (imm : BitVec 16) : (sext16 imm).toInt = imm.toInt :=
  BitVec.toInt_signExtend_of_le (by decide)

/-- The sign-extended immediate as an unsigned number. -/
theorem sext16_toNat (imm : BitVec 16) : ((sext16 imm).toNat : Int) = imm.toInt % 2 ^ 32 := by
  rw [← sext16_toInt, BitVec.toInt_eq_toNat_cond]
  have := (sext16 imm).isLt
  split <;> omega

theorem sext16_getLsbD (imm : BitVec 16) (k : Nat) (hk : k < 32) :
    (sext16 imm).getLsbD k = if k < 16 then imm.getLsbD k else imm.getLsbD 15 := by
  rw [sext16, BitVec.getLsbD_signExtend, decide_eq_true hk, Bool.true_and, BitVec.msb_eq_getLsbD_last]

/-- A 32-bit value written as an integer: equal when congruent modulo 2^32. -/
theorem eq_ofInt_of_emod {v : Word} {n : Int} (h : (v.toNat : Int) = n % 2 ^ 32) : v = BitVec.ofInt 32 n := by
  apply BitVec.eq_of_toNat_eq
  rw [BitVec.toNat_ofInt]
  omega

theorem toNat_ofInt_eq (n : Int) : ((BitVec.ofInt 32 n).toNat : Int) = n % 2 ^ 32 := by
  rw [BitVec.toNat_ofInt]; omega

/-- The branch target of the meanings is the spec's (R166). -/
theorem branchTarget_eq (pc : Word) (imm : BitVec 16) : branchTarget pc imm = takenTarget pc imm := by
  apply eq_ofInt_of_emod
  have h := sext16_toNat imm
  have hp := pc.isLt
  simp only [branchTarget, BitVec.toNat_add, BitVec.toNat_shiftLeft, Nat.shiftLeft_eq, BitVec.toNat_ofNat]
  omega

theorem regionMask_getElem : ∀ j : Fin 32, (0xF0000000#32)[j.val] = decide (28 ≤ j.val) := by decide

/-- The jump target of the meanings is the spec's (R167). -/
theorem jumpTarget_eq (pc : Word) (address : BitVec 26) : jumpTarget pc address = regionTarget pc address := by
  have hs : (address.setWidth 32 <<< 2 : Word).toNat = 4 * address.toNat := by
    have := address.isLt
    simp only [BitVec.toNat_shiftLeft, BitVec.toNat_setWidth, Nat.shiftLeft_eq]
    omega
  have hm : (pc &&& 0xF0000000#32) = (pc >>> 28) <<< 28 := by
    ext k hk
    simp only [BitVec.getElem_and, BitVec.getElem_shiftLeft, BitVec.getElem_ushiftRight]
    rw [show (0xF0000000#32)[k] = decide (28 ≤ k) from regionMask_getElem ⟨k, hk⟩]
    by_cases h : k < 28
    · simp [h]
    · simp only [h, decide_false, Bool.not_false, Bool.true_and]
      rw [show 28 + (k - 28) = k by omega]
      simp [show 28 ≤ k by omega, BitVec.getLsbD_eq_getElem hk]
  have ht : ((pc >>> 28) <<< 28 : Word).toNat = pc.toNat / 2 ^ 28 * 2 ^ 28 := by
    have := pc.isLt
    simp only [BitVec.toNat_shiftLeft, BitVec.toNat_ushiftRight, Nat.shiftLeft_eq, Nat.shiftRight_eq_div_pow]
    omega
  apply BitVec.eq_of_toNat_eq
  have ha := address.isLt
  have hp := pc.isLt
  rw [jumpTarget, BitVec.toNat_or, hs, hm, ht, regionTarget, BitVec.toNat_ofNat, Nat.mul_comm _ (2 ^ 28)]
  rw [← Nat.two_pow_add_eq_or_of_lt (by omega)]
  omega

/-- The effective address as arithmetic (R190). -/
theorem State.effAddr_toNat (s : State) (rs : RegIdx) (imm : BitVec 16) :
    ((s.effAddr rs imm).toNat : Int) = ((s.readReg rs).toNat + imm.toInt) % 2 ^ 32 := by
  have h := sext16_toNat imm
  simp only [State.effAddr, BitVec.toNat_add]
  omega

theorem wordOffset_lt (a : Word) : wordOffset a < 4 := Nat.mod_lt _ (by decide)

/-- `base` and `off` split an address (R205). -/
theorem wordBase_toNat (a : Word) : (wordBase a).toNat = a.toNat - wordOffset a := by
  have := a.isLt
  simp only [wordBase, wordOffset, BitVec.toNat_sub, BitVec.toNat_ofNat]
  omega

theorem wordBase_add_offset (a : Word) : (wordBase a).toNat + wordOffset a = a.toNat := by
  rw [wordBase_toNat]; unfold wordOffset; omega

theorem wordBase_add (a : Word) : wordBase a + BitVec.ofNat 32 (wordOffset a) = a := by
  rw [wordBase, BitVec.sub_add_cancel]

theorem shiftAmount_eq (v : Word) : shiftAmount v = v.toNat % 32 := by
  rw [shiftAmount, BitVec.toNat_and]
  exact Nat.and_two_pow_sub_one_eq_mod v.toNat 5

/-- The sign bit as the signed value sees it (R16). -/
theorem negative_eq (v : Word) : negative v = decide (v.toInt < 0) := by
  rw [negative, show v.getLsbD 31 = v.msb from (BitVec.msb_eq_getLsbD_last v).symm, BitVec.msb_eq_decide]
  simp only [BitVec.toInt_neg_iff, decide_eq_decide]
  omega

theorem condLtz_eq (v : Word) : condLtz v = negative v := by rw [negative_eq, condLtz]

theorem condGez_eq (v : Word) : condGez v = !negative v := by
  rw [negative_eq, condGez, Bool.eq_iff_iff]
  simp only [decide_eq_true_eq, Bool.not_eq_true', decide_eq_false_iff_not]; omega

theorem condLez_eq (v : Word) : condLez v = (negative v || v == 0#32) := by
  rw [negative_eq, condLez, Bool.eq_iff_iff]
  have : v == 0#32 ↔ v.toInt = 0 := by
    rw [beq_iff_eq]; exact ⟨fun h => by rw [h]; rfl, fun h => BitVec.eq_of_toInt_eq h⟩
  simp only [Bool.or_eq_true, decide_eq_true_eq, this]
  omega

theorem condGtz_eq (v : Word) : condGtz v = !(negative v || v == 0#32) := by
  rw [← condLez_eq, condLez, condGtz, Bool.eq_iff_iff]
  simp only [decide_eq_true_eq, Bool.not_eq_true', decide_eq_false_iff_not]; omega

end Sys2Proof.Machine
end

