-- ==== Sys2Proof/Laws/Bytes.lean ====
section
/-! SUPPORT. Words as four bytes: the bytes of a word, of a read, and of the merges that the partial-word loads
make (R53, R55, R205 to R207). -/

namespace Sys2Proof

/-! ### The bytes of a word -/

/-- Byte `k` of a word, by arithmetic. -/
theorem byteOf_toNat (v : Word) (k : Nat) : (byteOf v k).toNat = v.toNat / 256 ^ (3 - k) % 256 := by
  rw [byteOf, BitVec.extractLsb'_toNat, Nat.shiftRight_eq_div_pow, Nat.pow_mul]

/-- A word put together from bytes has those bytes. -/
theorem byteOf_append (b0 b1 b2 b3 : Byte) (k : Nat) (hk : k < 4) : byteOf (b0 ++ b1 ++ b2 ++ b3) k =
    if k = 0 then b0 else if k = 1 then b1 else if k = 2 then b2 else b3 := by
  have h0 := b0.isLt
  have h1 := b1.isLt
  have h2 := b2.isLt
  have h3 := b3.isLt
  have : k = 0 ∨ k = 1 ∨ k = 2 ∨ k = 3 := by omega
  apply BitVec.eq_of_toNat_eq
  rw [byteOf, BitVec.extractLsb'_toNat, Nat.shiftRight_eq_div_pow]
  simp only [BitVec.toNat_append]
  rw [← Nat.shiftLeft_add_eq_or_of_lt h1, ← Nat.shiftLeft_add_eq_or_of_lt h2, ← Nat.shiftLeft_add_eq_or_of_lt h3]
  simp only [Nat.shiftLeft_eq]
  rcases this with rfl | rfl | rfl | rfl <;> simp <;> omega

/-- Two words with the same bytes are equal. -/
theorem byteOf_ext {v w : Word} (h : ∀ k, k < 4 → byteOf v k = byteOf w k) : v = w := by
  have hn : ∀ k, k < 4 → v.toNat / 256 ^ (3 - k) % 256 = w.toNat / 256 ^ (3 - k) % 256 := fun k hk => by
    rw [← byteOf_toNat, ← byteOf_toNat, h k hk]
  have h0 := hn 0 (by omega)
  have h1 := hn 1 (by omega)
  have h2 := hn 2 (by omega)
  have h3 := hn 3 (by omega)
  have hv := v.isLt
  have hw := w.isLt
  simp only [Nat.sub_zero, Nat.reduceSub, Nat.reducePow, Nat.pow_zero] at h0 h1 h2 h3
  apply BitVec.eq_of_toNat_eq
  omega

/-- The bytes of the word at an address (R53). -/
theorem byteOf_wordAt (m : Memory) (a : Word) (k : Nat) (hk : k < 4) :
    byteOf (wordAt m a) k = m.readByte (a + BitVec.ofNat 32 k) := by
  have e0 : a + BitVec.ofNat 32 0 = a := BitVec.add_zero a
  have : k = 0 ∨ k = 1 ∨ k = 2 ∨ k = 3 := by omega
  rw [wordAt, byteOf_append _ _ _ _ _ hk]
  rcases this with rfl | rfl | rfl | rfl
  · rw [if_pos rfl, e0]
  · rfl
  · rfl
  · rfl

/-! ### The bytes of a read -/

/-- Byte `k` of a read of `n` bytes is the byte at `a + k` (R55). -/
theorem Memory.memRead_byte (m : Memory) (a : Word) (n k : Nat) (hk : k < n) (hn : n ≤ 4) :
    m.memRead a n / 256 ^ (n - 1 - k) % 256 = (m.readByte (a + BitVec.ofNat 32 k)).toNat := by
  have := (m.readByte a).isLt
  have := (m.readByte (a + 1#32)).isLt
  have := (m.readByte (a + 1#32 + 1#32)).isLt
  have := (m.readByte (a + 1#32 + 1#32 + 1#32)).isLt
  have e2 : a + 2#32 = a + 1#32 + 1#32 := by rw [BitVec.add_assoc]; rfl
  have e3 : a + 3#32 = a + 1#32 + 1#32 + 1#32 := by rw [BitVec.add_assoc, BitVec.add_assoc]; rfl
  have e0 : a + 0#32 = a := BitVec.add_zero a
  have : n = 1 ∨ n = 2 ∨ n = 3 ∨ n = 4 := by omega
  have : k = 0 ∨ k = 1 ∨ k = 2 ∨ k = 3 := by omega
  rcases ‹n = 1 ∨ _› with rfl | rfl | rfl | rfl <;> rcases ‹k = 0 ∨ _› with rfl | rfl | rfl | rfl <;>
    first | omega | (simp only [Memory.memRead, e0, e2, e3]; omega)

/-- One byte read is that byte. -/
theorem Memory.memRead_one (m : Memory) (a : Word) : m.memRead a 1 = (m.readByte a).toNat := by
  rw [Memory.memRead, Memory.memRead, Nat.pow_zero, Nat.mul_one, Nat.add_zero]

/-- Two bytes read are the halfword (R193). -/
theorem Memory.memRead_two (m : Memory) (a : Word) : BitVec.ofNat 16 (m.memRead a 2) = halfAt m a := by
  have h0 := (m.readByte a).isLt
  have h1 := (m.readByte (a + 1#32)).isLt
  apply BitVec.eq_of_toNat_eq
  rw [Memory.memRead_succ, Memory.memRead_succ, halfAt, BitVec.toNat_append, ← Nat.shiftLeft_add_eq_or_of_lt h1,
    Nat.shiftLeft_eq, BitVec.toNat_ofNat]
  simp only [Memory.memRead]
  omega

namespace Machine

/-! ### The merges of the partial-word loads -/

/-- The word after `lwl` as a number (R206). -/
theorem mergeLeft_toNat (old : Word) (off v : Nat) (ho : off < 4) (hv : v < 256 ^ (off + 1)) :
    (mergeLeft old off v).toNat = v * 2 ^ (8 * (3 - off)) + old.toNat % 2 ^ (8 * (3 - off)) := by
  have hc : off = 0 ∨ off = 1 ∨ off = 2 ∨ off = 3 := by omega
  have hm : 2 ^ (8 * (3 - off)) - 1 < 2 ^ 32 := by
    rcases hc with rfl | rfl | rfl | rfl <;> decide
  have h2 : v % 2 ^ 32 * 2 ^ (8 * (3 - off)) % 2 ^ 32 = v * 2 ^ (8 * (3 - off)) := by
    rcases hc with rfl | rfl | rfl | rfl <;> simp at hv ⊢ <;> omega
  rw [mergeLeft, BitVec.toNat_or, BitVec.toNat_and, BitVec.toNat_shiftLeft, BitVec.toNat_ofNat, BitVec.toNat_ofNat,
    Nat.mod_eq_of_lt hm, Nat.and_two_pow_sub_one_eq_mod, Nat.shiftLeft_eq, h2, Nat.mul_comm,
    ← Nat.two_pow_add_eq_or_of_lt (Nat.mod_lt _ (Nat.pow_pos (by decide)))]

/-- Clearing the low `n` bits. -/
theorem and_not_mask (v : Word) (n : Nat) : (v &&& ~~~(BitVec.ofNat 32 (2 ^ n - 1))) = (v >>> n) <<< n := by
  ext k hk
  simp only [BitVec.getElem_and, BitVec.getElem_not, BitVec.getElem_shiftLeft, BitVec.getElem_ushiftRight]
  have : (BitVec.ofNat 32 (2 ^ n - 1))[k] = decide (k < n) := by
    rw [← BitVec.getLsbD_eq_getElem hk, BitVec.getLsbD_ofNat, Nat.testBit_two_pow_sub_one]; simp [hk]
  rw [this]
  by_cases h : k < n
  · simp [h]
  · simp only [h, decide_false, Bool.not_false, Bool.and_true, Bool.true_and]
    rw [show n + (k - n) = k by omega, BitVec.getLsbD_eq_getElem hk]

/-- The word after `lwr` as a number (R207). -/
theorem mergeRight_toNat (old : Word) (off v : Nat) (ho : off < 4) (hv : v < 256 ^ (4 - off)) :
    (mergeRight old off v).toNat = old.toNat / 2 ^ (8 * (4 - off)) * 2 ^ (8 * (4 - off)) + v := by
  have hc : off = 0 ∨ off = 1 ∨ off = 2 ∨ off = 3 := by omega
  have h3 : v % 2 ^ 32 = v := by
    rcases hc with rfl | rfl | rfl | rfl <;> simp at hv <;> omega
  have h4 : old.toNat / 2 ^ (8 * (4 - off)) * 2 ^ (8 * (4 - off)) % 2 ^ 32 =
      old.toNat / 2 ^ (8 * (4 - off)) * 2 ^ (8 * (4 - off)) :=
    Nat.mod_eq_of_lt (Nat.lt_of_le_of_lt (Nat.div_mul_le_self ..) old.isLt)
  rw [mergeRight, and_not_mask, BitVec.toNat_or, BitVec.toNat_shiftLeft, BitVec.toNat_ushiftRight, BitVec.toNat_ofNat,
    Nat.shiftLeft_eq, Nat.shiftRight_eq_div_pow, h3, h4, Nat.mul_comm,
    ← Nat.two_pow_add_eq_or_of_lt (by rw [Nat.pow_mul]; exact hv)]

/-- Byte by byte, what `lwl` merges (R206). -/
theorem mergeLeft_byte (old : Word) (off v k : Nat) (ho : off < 4) (hk : k < 4) (hv : v < 256 ^ (off + 1)) :
    (byteOf (mergeLeft old off v) k).toNat =
      if k ≤ off then v / 256 ^ (off - k) % 256 else old.toNat / 256 ^ (3 - k) % 256 := by
  rw [byteOf_toNat, mergeLeft_toNat old off v ho hv]
  have := old.isLt
  have : off = 0 ∨ off = 1 ∨ off = 2 ∨ off = 3 := by omega
  have : k = 0 ∨ k = 1 ∨ k = 2 ∨ k = 3 := by omega
  rcases ‹off = 0 ∨ _› with rfl | rfl | rfl | rfl <;> rcases ‹k = 0 ∨ _› with rfl | rfl | rfl | rfl <;>
    simp at hv ⊢ <;> omega

/-- Byte by byte, what `lwr` merges (R207). -/
theorem mergeRight_byte (old : Word) (off v k : Nat) (ho : off < 4) (hk : k < 4) (hv : v < 256 ^ (4 - off)) :
    (byteOf (mergeRight old off v) k).toNat =
      if off ≤ k then v / 256 ^ (3 - k) % 256 else old.toNat / 256 ^ (3 - k) % 256 := by
  rw [byteOf_toNat, mergeRight_toNat old off v ho hv]
  have := old.isLt
  have : off = 0 ∨ off = 1 ∨ off = 2 ∨ off = 3 := by omega
  have : k = 0 ∨ k = 1 ∨ k = 2 ∨ k = 3 := by omega
  rcases ‹off = 0 ∨ _› with rfl | rfl | rfl | rfl <;> rcases ‹k = 0 ∨ _› with rfl | rfl | rfl | rfl <;>
    simp at hv ⊢ <;> omega

end Machine

end Sys2Proof
end

