-- ==== Sys2Proof/Laws/Decode.lean ====
section
/-! SUPPORT. The decoder's fields as arithmetic, the fields of an encoded word, and the classification and
selection of a word by its fields (30_encoding.md). -/

namespace Sys2Proof

/-! ### Fields as arithmetic -/

theorem extract_toNat (w : Word) (lo width : Nat) : (w.extractLsb' lo width).toNat = fieldNat w lo width := by
  rw [BitVec.extractLsb'_toNat, Nat.shiftRight_eq_div_pow]; rfl

theorem extract_eq (w : Word) (lo width : Nat) : w.extractLsb' lo width = BitVec.ofNat width (fieldNat w lo width) := by
  apply BitVec.eq_of_toNat_eq
  rw [extract_toNat, BitVec.toNat_ofNat, fieldNat, Nat.mod_mod]

theorem opcodeField_toNat (w : Word) : (opcodeField w).toNat = fieldNat w 26 6 := extract_toNat ..

theorem opcodeField_of {w : Word} {k : Nat} (h : fieldNat w 26 6 = k) : opcodeField w = BitVec.ofNat 6 k := by
  rw [opcodeField, extract_eq, h]

theorem rFields_eq (w : Word) : rFields w =
    ⟨BitVec.ofNat 6 (fieldNat w 26 6), rsOf w, rtOf w, rdOf w, shamtOf w, BitVec.ofNat 6 (fieldNat w 0 6)⟩ := by
  simp only [rFields, RFields.mk.injEq, opcodeField, shamtOf, rsOf, rtOf, rdOf, regField, extract_eq, regOf, Fin.ext_iff]
  simp [fieldNat]

theorem iFields_eq (w : Word) : iFields w =
    ⟨BitVec.ofNat 6 (fieldNat w 26 6), rsOf w, rtOf w, immOf w⟩ := by
  simp only [iFields, IFields.mk.injEq, opcodeField, immOf, rsOf, rtOf, regField, extract_eq, regOf, Fin.ext_iff]
  simp [fieldNat]

theorem jFields_eq (w : Word) : jFields w = ⟨BitVec.ofNat 6 (fieldNat w 26 6), addressOf w⟩ := by
  simp only [jFields, opcodeField, addressOf, extract_eq]

/-! ### Classification (R81) -/

theorem opcodeField_eq_iff (w : Word) (k : Nat) (hk : k < 64) :
    opcodeField w = BitVec.ofNat 6 k ↔ fieldNat w 26 6 = k := by
  rw [← BitVec.toNat_inj, opcodeField_toNat, BitVec.toNat_ofNat, Nat.mod_eq_of_lt hk]

/-- Decoding by the opcode alone: which table a word is looked up in (R81, R95). -/
theorem decodeWord_eq (w : Word) : decodeWord w =
    if fieldNat w 26 6 = 0 then selectSpecial (rFields w)
    else if fieldNat w 26 6 = 1 then selectRegimm (iFields w)
    else if fieldNat w 26 6 = 2 ∨ fieldNat w 26 6 = 3 then selectJump (jFields w)
    else selectPrimary (iFields w) := by
  have h0 := opcodeField_eq_iff w 0 (by decide)
  have h1 := opcodeField_eq_iff w 1 (by decide)
  have h2 := opcodeField_eq_iff w 2 (by decide)
  have h3 := opcodeField_eq_iff w 3 (by decide)
  unfold decodeWord classify
  simp only [h0, h2, h3]
  by_cases c0 : fieldNat w 26 6 = 0
  · have : (rFields w).opcode = 0#6 := h0.2 c0
    simp [c0, select, this]
  · by_cases c1 : fieldNat w 26 6 = 1
    · have : (iFields w).opcode = 1#6 := h1.2 c1
      simp [c1, select, this]
    · have : (iFields w).opcode ≠ 1#6 := fun e => c1 (h1.1 e)
      simp only [c0, c1, if_false]
      split <;> simp [select, this]

theorem decode_special {w : Word} (h : fieldNat w 26 6 = 0) : decodeWord w = selectSpecial (rFields w) := by
  rw [decodeWord_eq, if_pos h]

theorem decode_regimm {w : Word} (h : fieldNat w 26 6 = 1) : decodeWord w = selectRegimm (iFields w) := by
  rw [decodeWord_eq, if_neg (by omega), if_pos h]

theorem decode_jump {w : Word} (h : fieldNat w 26 6 = 2 ∨ fieldNat w 26 6 = 3) :
    decodeWord w = selectJump (jFields w) := by
  rw [decodeWord_eq, if_neg (by omega), if_neg (by omega), if_pos h]

theorem decode_primary {w : Word} (h : 4 ≤ fieldNat w 26 6) : decodeWord w = selectPrimary (iFields w) := by
  rw [decodeWord_eq, if_neg (by omega), if_neg (by omega), if_neg (by omega)]

/-! ### The fields of an encoded word -/

theorem fieldOf_toNat (r : RegIdx) : (fieldOf r).toNat = r.val := by
  rw [fieldOf, BitVec.toNat_ofNat]; omega

/-- An R-format word as a number (R82). -/
theorem encodeR_toNat (rs rt rd : RegIdx) (shamt : BitVec 5) (funct : BitVec 6) :
    (encodeR rs rt rd shamt funct).toNat =
      rs.val * 2 ^ 21 + rt.val * 2 ^ 16 + rd.val * 2 ^ 11 + shamt.toNat * 2 ^ 6 + funct.toNat := by
  have h1 := (fieldOf rs).isLt
  have h2 := (fieldOf rt).isLt
  have h3 := (fieldOf rd).isLt
  have h4 := shamt.isLt
  have h5 := funct.isLt
  simp only [encodeR, BitVec.toNat_append]
  rw [← Nat.shiftLeft_add_eq_or_of_lt h1, ← Nat.shiftLeft_add_eq_or_of_lt h2, ← Nat.shiftLeft_add_eq_or_of_lt h3,
    ← Nat.shiftLeft_add_eq_or_of_lt h4, ← Nat.shiftLeft_add_eq_or_of_lt h5]
  simp only [Nat.shiftLeft_eq, fieldOf_toNat, BitVec.toNat_ofNat]
  omega

/-- An I-format word as a number (R83). -/
theorem encodeI_toNat (opcode : BitVec 6) (rs rt : RegIdx) (imm : BitVec 16) :
    (encodeI opcode rs rt imm).toNat = opcode.toNat * 2 ^ 26 + rs.val * 2 ^ 21 + rt.val * 2 ^ 16 + imm.toNat := by
  have h1 := (fieldOf rs).isLt
  have h2 := (fieldOf rt).isLt
  have h3 := imm.isLt
  simp only [encodeI, BitVec.toNat_append]
  rw [← Nat.shiftLeft_add_eq_or_of_lt h1, ← Nat.shiftLeft_add_eq_or_of_lt h2, ← Nat.shiftLeft_add_eq_or_of_lt h3]
  simp only [Nat.shiftLeft_eq, fieldOf_toNat]
  omega

/-- A J-format word as a number (R84). -/
theorem encodeJ_toNat (opcode : BitVec 6) (address : BitVec 26) :
    (encodeJ opcode address).toNat = opcode.toNat * 2 ^ 26 + address.toNat := by
  simp only [encodeJ, BitVec.toNat_append]
  rw [← Nat.shiftLeft_add_eq_or_of_lt address.isLt, Nat.shiftLeft_eq]

theorem rFields_encodeR (rs rt rd : RegIdx) (shamt : BitVec 5) (funct : BitVec 6) :
    rFields (encodeR rs rt rd shamt funct) = ⟨0x00#6, rs, rt, rd, shamt, funct⟩ := by
  have h1 := rs.isLt
  have h2 := rt.isLt
  have h3 := rd.isLt
  have h4 := shamt.isLt
  have h5 := funct.isLt
  rw [rFields_eq]
  simp only [RFields.mk.injEq, rsOf, rtOf, rdOf, shamtOf, regField, fieldNat, encodeR_toNat, Fin.ext_iff, ← BitVec.toNat_inj,
    BitVec.toNat_ofNat]
  omega

theorem iFields_encodeI (opcode : BitVec 6) (rs rt : RegIdx) (imm : BitVec 16) :
    iFields (encodeI opcode rs rt imm) = ⟨opcode, rs, rt, imm⟩ := by
  have h1 := rs.isLt
  have h2 := rt.isLt
  have h3 := imm.isLt
  have h4 := opcode.isLt
  rw [iFields_eq]
  simp only [IFields.mk.injEq, rsOf, rtOf, immOf, regField, fieldNat, encodeI_toNat, Fin.ext_iff, ← BitVec.toNat_inj,
    BitVec.toNat_ofNat]
  omega

theorem jFields_encodeJ (opcode : BitVec 6) (address : BitVec 26) :
    jFields (encodeJ opcode address) = ⟨opcode, address⟩ := by
  have h1 := address.isLt
  have h2 := opcode.isLt
  rw [jFields_eq]
  simp only [JFields.mk.injEq, addressOf, fieldNat, encodeJ_toNat, ← BitVec.toNat_inj, BitVec.toNat_ofNat]
  omega

theorem opcode_encodeR (rs rt rd : RegIdx) (shamt : BitVec 5) (funct : BitVec 6) :
    fieldNat (encodeR rs rt rd shamt funct) 26 6 = 0 := by
  have h := congrArg RFields.opcode (rFields_encodeR rs rt rd shamt funct)
  exact (opcodeField_eq_iff _ 0 (by decide)).1 h

theorem opcode_encodeI (opcode : BitVec 6) (rs rt : RegIdx) (imm : BitVec 16) :
    fieldNat (encodeI opcode rs rt imm) 26 6 = opcode.toNat := by
  have h := congrArg IFields.opcode (iFields_encodeI opcode rs rt imm)
  rw [← opcodeField_toNat]; exact congrArg BitVec.toNat h

theorem opcode_encodeJ (opcode : BitVec 6) (address : BitVec 26) :
    fieldNat (encodeJ opcode address) 26 6 = opcode.toNat := by
  have h := congrArg JFields.opcode (jFields_encodeJ opcode address)
  rw [← opcodeField_toNat]; exact congrArg BitVec.toNat h

/-! ### Decoding an encoded word, by shape -/

theorem decode_encodeR (rs rt rd : RegIdx) (shamt : BitVec 5) (funct : BitVec 6) :
    decodeWord (encodeR rs rt rd shamt funct) = selectSpecial ⟨0x00#6, rs, rt, rd, shamt, funct⟩ := by
  rw [decode_special (opcode_encodeR ..), rFields_encodeR]

theorem decode_encodeRegimm (rs rt : RegIdx) (imm : BitVec 16) :
    decodeWord (encodeI 0x01#6 rs rt imm) = selectRegimm ⟨0x01#6, rs, rt, imm⟩ := by
  rw [decode_regimm (opcode_encodeI ..), iFields_encodeI]

theorem decode_encodeI (opcode : BitVec 6) (h : 4 ≤ opcode.toNat) (rs rt : RegIdx) (imm : BitVec 16) :
    decodeWord (encodeI opcode rs rt imm) = selectPrimary ⟨opcode, rs, rt, imm⟩ := by
  rw [decode_primary (by rwa [opcode_encodeI]), iFields_encodeI]

theorem decode_encodeJ (opcode : BitVec 6) (h : opcode.toNat = 2 ∨ opcode.toNat = 3) (address : BitVec 26) :
    decodeWord (encodeJ opcode address) = selectJump ⟨opcode, address⟩ := by
  rw [decode_jump (by rwa [opcode_encodeJ]), jFields_encodeJ]

/-! ### Bytes -/

/-- A word put together from its own bytes is itself (R58). -/
theorem wordOfBytes_wordBytes (w : Word) :
    wordOfBytes (w.extractLsb' 24 8) (w.extractLsb' 16 8) (w.extractLsb' 8 8) (w.extractLsb' 0 8) = w := by
  apply BitVec.eq_of_toNat_eq
  have hw := w.isLt
  have h1 := (w.extractLsb' 16 8).isLt
  have h2 := (w.extractLsb' 8 8).isLt
  have h3 := (w.extractLsb' 0 8).isLt
  simp only [wordOfBytes, BitVec.toNat_append]
  rw [← Nat.shiftLeft_add_eq_or_of_lt h1, ← Nat.shiftLeft_add_eq_or_of_lt h2, ← Nat.shiftLeft_add_eq_or_of_lt h3]
  simp only [Nat.shiftLeft_eq, extract_toNat, fieldNat]
  omega

/-- Decoding the bytes of a word is decoding the word. -/
theorem decodeBytes_wordBytes (w : Word) (rest : List Byte) : decodeBytes (wordBytes w ++ rest) =
    match decodeWord w with
    | some i => .ok (i, rest)
    | none => .error (.unimplementedOpcode w) := by
  show (match decodeWord (wordOfBytes _ _ _ _) with | some i => _ | none => _) = _
  rw [wordOfBytes_wordBytes]
  rfl

/-- What the host's numbering of a word decodes to. -/
theorem decodeTableWord_eq (nbits w : Nat) : decodeTableWord nbits w = decodeWord (BitVec.ofNat 32 (w % 2 ^ nbits)) := by
  have h := decodeBytes_wordBytes (BitVec.ofNat 32 (w % 2 ^ nbits)) []
  rw [List.append_nil] at h
  unfold decodeTableWord
  rw [h]
  cases decodeWord (BitVec.ofNat 32 (w % 2 ^ nbits)) <;> rfl

/-! ### Masked words -/

/-- A word is the row of its six R-format fields. -/
theorem word_eq_rFields (w : Word) : w = w.extractLsb' 26 6 ++ w.extractLsb' 21 5 ++ w.extractLsb' 16 5 ++
    w.extractLsb' 11 5 ++ w.extractLsb' 6 5 ++ w.extractLsb' 0 6 := by
  apply BitVec.eq_of_toNat_eq
  have hw := w.isLt
  have h1 := (w.extractLsb' 21 5).isLt
  have h2 := (w.extractLsb' 16 5).isLt
  have h3 := (w.extractLsb' 11 5).isLt
  have h4 := (w.extractLsb' 6 5).isLt
  have h5 := (w.extractLsb' 0 6).isLt
  simp only [BitVec.toNat_append]
  rw [← Nat.shiftLeft_add_eq_or_of_lt h1, ← Nat.shiftLeft_add_eq_or_of_lt h2, ← Nat.shiftLeft_add_eq_or_of_lt h3,
    ← Nat.shiftLeft_add_eq_or_of_lt h4, ← Nat.shiftLeft_add_eq_or_of_lt h5]
  simp only [Nat.shiftLeft_eq, extract_toNat, fieldNat]
  omega

/-- A mask keeps a field where it is all ones in it. -/
theorem extract_and (w m : Word) (lo width : Nat) :
    (w &&& m).extractLsb' lo width = w.extractLsb' lo width &&& m.extractLsb' lo width := by
  ext k hk
  simp

/-- Two words are equal when their R-format fields are. -/
theorem word_ext {v w : Word} (h1 : v.extractLsb' 26 6 = w.extractLsb' 26 6) (h2 : v.extractLsb' 21 5 = w.extractLsb' 21 5)
    (h3 : v.extractLsb' 16 5 = w.extractLsb' 16 5) (h4 : v.extractLsb' 11 5 = w.extractLsb' 11 5)
    (h5 : v.extractLsb' 6 5 = w.extractLsb' 6 5) (h6 : v.extractLsb' 0 6 = w.extractLsb' 0 6) : v = w := by
  rw [word_eq_rFields v, word_eq_rFields w, h1, h2, h3, h4, h5, h6]

/-- A masked word, field by field of the R format. -/
theorem and_eq_iff_rFields (w m p : Word) : w &&& m = p ↔
    w.extractLsb' 26 6 &&& m.extractLsb' 26 6 = p.extractLsb' 26 6 ∧
    w.extractLsb' 21 5 &&& m.extractLsb' 21 5 = p.extractLsb' 21 5 ∧
    w.extractLsb' 16 5 &&& m.extractLsb' 16 5 = p.extractLsb' 16 5 ∧
    w.extractLsb' 11 5 &&& m.extractLsb' 11 5 = p.extractLsb' 11 5 ∧
    w.extractLsb' 6 5 &&& m.extractLsb' 6 5 = p.extractLsb' 6 5 ∧
    w.extractLsb' 0 6 &&& m.extractLsb' 0 6 = p.extractLsb' 0 6 := by
  constructor
  · rintro rfl
    simp only [extract_and, and_self]
  · rintro ⟨h1, h2, h3, h4, h5, h6⟩
    apply word_ext <;> rw [extract_and] <;> assumption

/-- Two words are equal when their I-format fields are. -/
theorem word_ext_iFields {v w : Word} (h1 : v.extractLsb' 26 6 = w.extractLsb' 26 6)
    (h2 : v.extractLsb' 21 5 = w.extractLsb' 21 5) (h3 : v.extractLsb' 16 5 = w.extractLsb' 16 5)
    (h4 : v.extractLsb' 0 16 = w.extractLsb' 0 16) : v = w := by
  simp only [← BitVec.toNat_inj, extract_toNat, fieldNat] at *
  have := v.isLt
  have := w.isLt
  omega

/-- A masked word, field by field of the I format. -/
theorem and_eq_iff_iFields (w m p : Word) : w &&& m = p ↔
    w.extractLsb' 26 6 &&& m.extractLsb' 26 6 = p.extractLsb' 26 6 ∧
    w.extractLsb' 21 5 &&& m.extractLsb' 21 5 = p.extractLsb' 21 5 ∧
    w.extractLsb' 16 5 &&& m.extractLsb' 16 5 = p.extractLsb' 16 5 ∧
    w.extractLsb' 0 16 &&& m.extractLsb' 0 16 = p.extractLsb' 0 16 := by
  constructor
  · rintro rfl
    simp only [extract_and, and_self]
  · rintro ⟨h1, h2, h3, h4⟩
    apply word_ext_iFields <;> rw [extract_and] <;> assumption

theorem and_ones5 (b : BitVec 5) : b &&& 0x1F#5 = b := BitVec.and_allOnes
theorem and_ones6 (b : BitVec 6) : b &&& 0x3F#6 = b := BitVec.and_allOnes
theorem and_ones16 (b : BitVec 16) : b &&& 0xFFFF#16 = b := BitVec.and_allOnes
theorem and_ones32 (b : BitVec 32) : b &&& 0xFFFFFFFF#32 = b := BitVec.and_allOnes

/-! ### A word as the encoding of its own fields -/

theorem regOf_fieldOf (r : RegIdx) : regOf (fieldOf r) = r := Fin.ext (fieldOf_toNat r)

/-- The fields of an R-format word (R82). -/
theorem encodeR_extract (rs rt rd : RegIdx) (shamt : BitVec 5) (funct : BitVec 6) :
    (encodeR rs rt rd shamt funct).extractLsb' 26 6 = 0#6 ∧
    (encodeR rs rt rd shamt funct).extractLsb' 21 5 = fieldOf rs ∧
    (encodeR rs rt rd shamt funct).extractLsb' 16 5 = fieldOf rt ∧
    (encodeR rs rt rd shamt funct).extractLsb' 11 5 = fieldOf rd ∧
    (encodeR rs rt rd shamt funct).extractLsb' 6 5 = shamt ∧
    (encodeR rs rt rd shamt funct).extractLsb' 0 6 = funct := by
  have h1 := rs.isLt
  have h2 := rt.isLt
  have h3 := rd.isLt
  have h4 := shamt.isLt
  have h5 := funct.isLt
  simp only [← BitVec.toNat_inj, extract_toNat, fieldNat, encodeR_toNat, fieldOf_toNat, BitVec.toNat_ofNat]
  omega

/-- The fields of an I-format word (R83). -/
theorem encodeI_extract (opcode : BitVec 6) (rs rt : RegIdx) (imm : BitVec 16) :
    (encodeI opcode rs rt imm).extractLsb' 26 6 = opcode ∧
    (encodeI opcode rs rt imm).extractLsb' 21 5 = fieldOf rs ∧
    (encodeI opcode rs rt imm).extractLsb' 16 5 = fieldOf rt ∧
    (encodeI opcode rs rt imm).extractLsb' 0 16 = imm := by
  have h1 := rs.isLt
  have h2 := rt.isLt
  have h3 := imm.isLt
  have h4 := opcode.isLt
  simp only [← BitVec.toNat_inj, extract_toNat, fieldNat, encodeI_toNat, fieldOf_toNat]
  omega

/-- A word with opcode 0 is the R-format encoding of its fields. -/
theorem word_eq_encodeR {w : Word} (h : fieldNat w 26 6 = 0) :
    w = encodeR (rsOf w) (rtOf w) (rdOf w) (shamtOf w) (BitVec.ofNat 6 (fieldNat w 0 6)) := by
  apply BitVec.eq_of_toNat_eq
  rw [encodeR_toNat]
  have := w.isLt
  simp only [rsOf, rtOf, rdOf, shamtOf, regField, fieldNat, BitVec.toNat_ofNat] at *
  omega

/-- Every word is the I-format encoding of its fields. -/
theorem word_eq_encodeI (w : Word) :
    w = encodeI (BitVec.ofNat 6 (fieldNat w 26 6)) (rsOf w) (rtOf w) (immOf w) := by
  apply BitVec.eq_of_toNat_eq
  rw [encodeI_toNat]
  have := w.isLt
  simp only [rsOf, rtOf, immOf, regField, fieldNat, BitVec.toNat_ofNat] at *
  omega

/-- Every word is the J-format encoding of its fields. -/
theorem word_eq_encodeJ (w : Word) : w = encodeJ (BitVec.ofNat 6 (fieldNat w 26 6)) (addressOf w) := by
  apply BitVec.eq_of_toNat_eq
  rw [encodeJ_toNat]
  have := w.isLt
  simp only [addressOf, fieldNat, BitVec.toNat_ofNat] at *
  omega

/-- A register field read as an `rt` selector (R89). -/
theorem rtOf_eq {w : Word} {k : Nat} (hk : k < 32) (h : fieldNat w 16 5 = k) : rtOf w = ⟨k, hk⟩ := by
  simp only [rtOf, regField, h]

/-- A masked word matches when masking with more bits first gives it. -/
theorem and_mask_of_and {w u e m : Word} (h : w &&& u = e) (hm : u &&& m = m) : w &&& m = e &&& m := by
  rw [← h, BitVec.and_assoc, hm]

end Sys2Proof
end

