-- ==== Sys2Proof/Laws/Exec.lean ====
section
/-! SUPPORT. What executing any instruction can do, said once: it is the halt transition with the
instruction's own cause, or it changes the state within its bounds and retires (R226, R249). Facts about all
instructions follow from this one case split. -/

namespace Sys2Proof.Machine

/-- In strict mode the set of present addresses is in order, in the address space, and covers memory. -/
def PresentOk (s : State) : Prop :=
  ∀ p, s.present = some p → p.Pairwise (· < ·) ∧ (∀ a ∈ p, a < 2 ^ 32) ∧ ∀ c ∈ s.mem, c.1 ∈ p

/-- `u` is a state that instruction `i` may leave in `s` before it retires with the directive `d`. -/
structure Body (i : Instr) (s u : State) (d : Directive) : Prop where
  pc : u.pc = s.pc
  budget : u.budget = s.budget
  run : u.run = s.run
  bridge : u.bridge = s.bridge
  zero : u.gpr[0] = s.gpr[0]
  regs : ∀ r, r ∉ writtenRegs i → u.readReg r = s.readReg r
  hi : writesHi i = false → u.hi = s.hi
  lo : writesLo i = false → u.lo = s.lo
  mem : writesMem i = false → u.mem = s.mem ∧ u.present = s.present
  wf : s.mem.wf → u.mem.wf
  strict : u.present = none ↔ s.present = none
  present : PresentOk s → PresentOk u
  directive : canJump i = false → d = .noJump
  aligned : jumpsByRegister i = false → s.pc.toNat % 4 = 0 → ∀ p, d = .jumpTo p → p.toNat % 4 = 0

/-! ### The shapes of bodies -/

theorem Body.same {i : Instr} {s : State} {d : Directive} (hd : canJump i = false → d = .noJump)
    (ha : jumpsByRegister i = false → s.pc.toNat % 4 = 0 → ∀ p, d = .jumpTo p → p.toNat % 4 = 0) : Body i s s d :=
  ⟨rfl, rfl, rfl, rfl, rfl, fun _ _ => rfl, fun _ => rfl, fun _ => rfl, fun _ => ⟨rfl, rfl⟩, id, Iff.rfl, id, hd, ha⟩

theorem Body.writeReg {i : Instr} {s u : State} {d : Directive} (h : Body i s u d) {rd : RegIdx}
    (hr : rd ∈ writtenRegs i) (v : Word) : Body i s (u.writeReg rd v) d where
  pc := by simpa using h.pc
  budget := by simpa using h.budget
  run := by simpa using h.run
  bridge := by simpa using h.bridge
  zero := by simpa using h.zero
  regs r hn := by
    have hne : r ≠ rd := fun e => hn (by rw [e]; exact hr)
    rw [State.readReg_writeReg, ← h.regs r hn, if_neg hne]
    split
    · next h0 => subst h0; rfl
    · rfl
  hi := by simpa using h.hi
  lo := by simpa using h.lo
  mem := by simpa using h.mem
  wf := by simpa using h.wf
  strict := by simpa using h.strict
  present hs := by have := h.present hs; unfold PresentOk at *; simpa using this
  directive := h.directive
  aligned := h.aligned

theorem noJump_aligned {i : Instr} {s : State} : jumpsByRegister i = false → s.pc.toNat % 4 = 0 →
    ∀ p, Directive.noJump = .jumpTo p → p.toNat % 4 = 0 := by
  intro _ _ p h; cases h

theorem Body.hiLo {i : Instr} {s : State} (hi : writesHi i = true) (lo : writesLo i = true) (h l : Word) :
    Body i s (s.writeHiLo h l) .noJump :=
  ⟨rfl, rfl, rfl, rfl, rfl, fun _ _ => rfl, fun e => by simp [hi] at e, fun e => by simp [lo] at e,
    fun _ => ⟨rfl, rfl⟩, id, Iff.rfl, id, fun _ => rfl, noJump_aligned⟩

theorem Memory.covered_memWrite {m : Memory} {p : List Nat} (h : ∀ c ∈ m, c.1 ∈ p) (a : Word) (n v : Nat) :
    ∀ c ∈ m.memWrite a n v, c.1 ∈ markPresent p a n := by
  induction n generalizing m p a with
  | zero => exact h
  | succ n ih =>
    refine ih (fun c hc => (mem_insertAddress ..).2 ?_) _
    exact (Memory.mem_write m a.toNat _ c hc).imp id (h c)

theorem PresentOk.store {s : State} (h : PresentOk s) (a : Word) (n v : Nat) : PresentOk (s.store a n v) := by
  intro q hq
  rw [State.store_present] at hq
  cases hp : s.present with
  | none => rw [hp] at hq; cases hq
  | some p =>
    rw [hp] at hq
    cases hq
    obtain ⟨h1, h2, h3⟩ := h p hp
    exact ⟨pairwise_markPresent h1 a n, lt_of_mem_markPresent h2 a n, Memory.covered_memWrite h3 a n v⟩

theorem Body.store {i : Instr} {s u : State} {d : Directive} (h : Body i s u d) (hm : writesMem i = true)
    (a : Word) (n v : Nat) : Body i s (u.store a n v) d where
  pc := h.pc
  budget := h.budget
  run := h.run
  bridge := h.bridge
  zero := h.zero
  regs := h.regs
  hi := h.hi
  lo := h.lo
  mem e := by rw [hm] at e; cases e
  wf hs := Memory.wf_memWrite (h.wf hs) a n v
  strict := by simpa using h.strict
  present hs := (h.present hs).store a n v
  directive := h.directive
  aligned := h.aligned

theorem Body.storeBytes {i : Instr} {s u : State} {d : Directive} (h : Body i s u d) (hm : writesMem i = true)
    (ws : List (Word × Byte)) : Body i s (u.storeBytes ws) d := by
  induction ws generalizing u with
  | nil => exact h
  | cons c ws ih => exact ih (h.store hm c.1 1 _)

/-! ### The case split -/

/-- What an outcome of `exec i s` can be: the halt transition with a cause of the instruction's own, or a
body that retires while no cause arises. -/
def Effect (i : Instr) (s : State) (o : Host.Outcome State Fault Refusal) : Prop :=
  (∃ c, o = .next (s.raise c) ∧ Raises s c i ∧ ∀ c', Raises s c' i → c' = c) ∨
  ∃ u d, o = .next (u.retire d) ∧ Body i s u d ∧ ∀ c, ¬ Raises s c i

theorem not_raises_of_dataRead {s : State} {i : Instr} {c : Cause} (hd : dataRead s i = none)
    (hi : Raises s c i ↔ c = .memoryFault ∧ ∃ a n, dataRead s i = some (a, n) ∧ ¬ Readable s a n) :
    ¬ Raises s c i := by
  rw [hi, hd]; rintro ⟨_, _, _, h, _⟩; cases h

/-- An instruction whose only possible cause is that of a load, and which reads no data, raises nothing. -/
theorem Effect.body {i : Instr} {s u : State} {d : Directive} (hb : Body i s u d) (hr : ∀ c, ¬ Raises s c i) :
    Effect i s (.next (u.retire d)) := .inr ⟨u, d, rfl, hb, hr⟩

theorem Effect.writeBack {i : Instr} {s : State} {rd : RegIdx} (v : Word) (hw : rd ∈ writtenRegs i)
    (hr : ∀ c, ¬ Raises s c i) : Effect i s (s.writeBack rd v) :=
  .body ((Body.same (fun _ => rfl) noJump_aligned).writeReg hw v) hr

theorem Effect.load {i : Instr} {s : State} {a : Word} {n : Nat} {rt : RegIdx} {f : Nat → Word}
    (hw : rt ∈ writtenRegs i) (hd : dataRead s i = some (a, n))
    (hi : ∀ c, Raises s c i ↔ c = .memoryFault ∧ ∃ a n, dataRead s i = some (a, n) ∧ ¬ Readable s a n) :
    Effect i s (s.load a n rt f) := by
  have hR : ∀ c, Raises s c i ↔ c = .memoryFault ∧ ¬ Readable s a n := fun c => by
    rw [hi, hd]
    constructor
    · rintro ⟨h, a', n', e, hr⟩; cases e; exact ⟨h, hr⟩
    · rintro ⟨h, hr⟩; exact ⟨h, a, n, rfl, hr⟩
  unfold State.load
  by_cases h : s.canRead a n = true
  · rw [if_pos h]
    exact .writeBack _ hw fun c e => ((hR c).1 e).2 ((s.canRead_iff a n).1 h)
  · rw [if_neg h]
    refine .inl ⟨_, rfl, (hR _).2 ⟨rfl, fun e => h ((s.canRead_iff a n).2 e)⟩, fun c' e => ((hR c').1 e).1⟩

theorem branchTarget_aligned {pc : Word} (h : pc.toNat % 4 = 0) (imm : BitVec 16) :
    (branchTarget pc imm).toNat % 4 = 0 := by
  have := pc.isLt
  simp only [branchTarget, BitVec.toNat_add, BitVec.toNat_shiftLeft, Nat.shiftLeft_eq, BitVec.toNat_ofNat]
  omega

theorem jumpTarget_aligned (pc : Word) (address : BitVec 26) : (jumpTarget pc address).toNat % 4 = 0 := by
  have := pc.isLt
  have := address.isLt
  rw [jumpTarget_eq, regionTarget, BitVec.toNat_ofNat]
  omega

theorem branch_aligned {i : Instr} {s : State} (imm : BitVec 16) : jumpsByRegister i = false → s.pc.toNat % 4 = 0 →
    ∀ p, Directive.jumpTo (branchTarget s.pc imm) = .jumpTo p → p.toNat % 4 = 0 := by
  intro _ h p e; cases e; exact branchTarget_aligned h imm

theorem Effect.branch {i : Instr} {s : State} (c : Bool) (imm : BitVec 16) (hj : canJump i = true)
    (hr : ∀ c, ¬ Raises s c i) : Effect i s (s.branchIf c imm) := by
  cases c
  · exact .body (.same (fun _ => rfl) noJump_aligned) hr
  · exact .body (.same (fun e => by rw [hj] at e; cases e) (branch_aligned imm)) hr

theorem Effect.branchLink {i : Instr} {s : State} (c : Bool) (imm : BitVec 16) (hj : canJump i = true)
    (hw : linkReg ∈ writtenRegs i) (hr : ∀ c, ¬ Raises s c i) : Effect i s (s.branchLinkIf c imm) := by
  cases c
  · exact .body (.same (fun _ => rfl) noJump_aligned) hr
  · exact .body ((Body.same (fun e => by rw [hj] at e; cases e) (branch_aligned imm)).writeReg hw _) hr

/-- Executing any instruction in any state is one of the two. -/
theorem exec_effect (i : Instr) (s : State) : Effect i s (exec i s) := by
  cases i
  case add | addu | sub | subu | and | or | xor | nor | slt | sltu | sll | srl | sra | sllv | srlv | srav | mfhi | mflo |
      addi | addiu | slti | sltiu | andi | ori | xori | lui =>
    exact .writeBack _ (List.mem_singleton.2 rfl) fun c => not_raises_of_dataRead rfl Iff.rfl
  case mult | multu => exact .body (.hiLo rfl rfl _ _) fun c => not_raises_of_dataRead rfl Iff.rfl
  case div rs rt | divu rs rt =>
    show Effect _ s (if _ then _ else _)
    by_cases h : s.readReg rt = 0#32
    · rw [if_pos h]; exact .inl ⟨_, rfl, ⟨rfl, h⟩, fun c' e => e.1⟩
    · rw [if_neg h]; exact .body (.hiLo rfl rfl _ _) fun c e => h e.2
  case mthi =>
    exact .body ⟨rfl, rfl, rfl, rfl, rfl, fun _ _ => rfl, (fun e => by cases e), fun _ => rfl, fun _ => ⟨rfl, rfl⟩, id,
      Iff.rfl, id, fun _ => rfl, noJump_aligned⟩ fun c => not_raises_of_dataRead rfl Iff.rfl
  case mtlo =>
    exact .body ⟨rfl, rfl, rfl, rfl, rfl, fun _ _ => rfl, fun _ => rfl, (fun e => by cases e), fun _ => ⟨rfl, rfl⟩, id,
      Iff.rfl, id, fun _ => rfl, noJump_aligned⟩ fun c => not_raises_of_dataRead rfl Iff.rfl
  case j a =>
    exact .body (.same (fun e => by cases e) fun _ _ p e => by cases e; exact jumpTarget_aligned ..)
      fun c => not_raises_of_dataRead rfl Iff.rfl
  case jal a =>
    exact .body ((Body.same (fun e => by cases e) fun _ _ p e => by cases e; exact jumpTarget_aligned ..).writeReg
      (List.mem_singleton.2 rfl) _) fun c => not_raises_of_dataRead rfl Iff.rfl
  case jr => exact .body (.same (fun e => by cases e) fun e => by cases e) fun c => not_raises_of_dataRead rfl Iff.rfl
  case jalr =>
    exact .body ((Body.same (fun e => by cases e) fun e => by cases e).writeReg (List.mem_singleton.2 rfl) _)
      fun c => not_raises_of_dataRead rfl Iff.rfl
  case beq | bne | blez | bgtz | bltz | bgez => exact .branch _ _ rfl fun c => not_raises_of_dataRead rfl Iff.rfl
  case bltzal | bgezal =>
    exact .branchLink _ _ rfl (List.mem_singleton.2 rfl) fun c => not_raises_of_dataRead rfl Iff.rfl
  case lb | lbu | lh | lhu | lw | lwl | lwr => exact .load (List.mem_singleton.2 rfl) rfl fun c => Iff.rfl
  case sb | sh | sw | swl | swr =>
    exact .body ((Body.same (fun _ => rfl) noJump_aligned).store rfl _ _ _) fun c => not_raises_of_dataRead rfl Iff.rfl
  case syscall =>
    show Effect _ s (.next (s.resume (askBridge s.bridge s.bridgeQuery)))
    cases h : askBridge s.bridge s.bridgeQuery with
    | ret v ws =>
      refine .body (((Body.same (fun _ => rfl) noJump_aligned).storeBytes rfl ws).writeReg (List.mem_singleton.2 rfl) v)
        fun c e => ?_
      exact absurd (h.symm.trans e.2) (by simp)
    | exit => exact .inl ⟨_, rfl, ⟨rfl, h⟩, fun c' e => e.1⟩
  case brk => exact .inl ⟨_, rfl, rfl, fun c' e => e⟩

/-- The case split on a next state of `exec`. -/
theorem exec_cases {i : Instr} {s t : State} (h : exec i s = .next t) :
    (∃ c, t = s.raise c ∧ Raises s c i ∧ ∀ c', Raises s c' i → c' = c) ∨
    ∃ u d, t = u.retire d ∧ Body i s u d ∧ ∀ c, ¬ Raises s c i := by
  obtain ⟨c, e, hc⟩ | ⟨u, d, e, hb⟩ := exec_effect i s
  · rw [e] at h; cases h; exact .inl ⟨c, rfl, hc⟩
  · rw [e] at h; cases h; exact .inr ⟨u, d, rfl, hb⟩

/-! ### The step -/

theorem step_halted {s : State} {r : HaltRecord} (h : s.run = .halted r) : step s = .next s := by
  simp only [step, State.control, h]

theorem step_budget_zero {s : State} (h : s.run = .running) (hb : s.budget = 0) :
    step s = .next (s.halt .instructionBudgetExceeded none) := by
  simp only [step, State.control, h, hb, if_true]

theorem step_fetch {s : State} (h : s.run = .running) (hb : s.budget ≠ 0) : step s = s.fetchAndExecute := by
  simp only [step, State.control, h, hb, if_false]

theorem State.fetchAndExecute_of_readable {s : State} (h : Readable s s.pc 4) :
    s.fetchAndExecute = s.execWord s.fetchWord := if_pos ((s.canRead_iff _ _).2 h)

theorem State.fetchAndExecute_of_not_readable {s : State} (h : ¬ Readable s s.pc 4) :
    s.fetchAndExecute = .next (s.halt .memoryFault none) := if_neg fun e => h ((s.canRead_iff _ _).1 e)

theorem State.execWord_some {s : State} {w : Word} {i : Instr} (h : decodeWord w = some i) :
    s.execWord w = exec i s := by
  simp only [State.execWord, h]

theorem State.execWord_none {s : State} {w : Word} (h : decodeWord w = none) :
    s.execWord w = .next (s.raise .unimplementedOpcode) := by
  simp only [State.execWord, h]

/-- A step that reaches an instruction is that instruction's `exec`. -/
theorem step_eq_exec {s : State} {i : Instr} (hr : s.run = .running) (hb : s.budget ≠ 0) (hc : Readable s s.pc 4)
    (hi : decodeWord s.fetchWord = some i) : step s = exec i s := by
  rw [step_fetch hr hb, State.fetchAndExecute_of_readable hc, State.execWord_some hi]

/-- What a step can do, said once: nothing when halted, the halts that need no instruction, and `exec` of the
instruction at `pc` (R226, R249). -/
theorem step_cases {s t : State} (h : step s = .next t) :
    (∃ r, s.run = .halted r ∧ t = s) ∨
    (s.run = .running ∧ s.budget = 0 ∧ t = s.halt .instructionBudgetExceeded none) ∨
    (s.run = .running ∧ s.budget ≠ 0 ∧ ¬ Readable s s.pc 4 ∧ t = s.halt .memoryFault none) ∨
    (s.run = .running ∧ s.budget ≠ 0 ∧ Readable s s.pc 4 ∧ decodeWord s.fetchWord = none ∧
      t = s.raise .unimplementedOpcode) ∨
    (∃ i, s.run = .running ∧ s.budget ≠ 0 ∧ Readable s s.pc 4 ∧ decodeWord s.fetchWord = some i ∧
      exec i s = .next t) := by
  cases hr : s.run with
  | halted r =>
    rw [step_halted hr] at h
    exact .inl ⟨r, rfl, (Host.Outcome.next.inj h).symm⟩
  | running =>
    refine .inr ?_
    by_cases hb : s.budget = 0
    · rw [step_budget_zero hr hb] at h
      exact .inl ⟨rfl, hb, (Host.Outcome.next.inj h).symm⟩
    · rw [step_fetch hr hb] at h
      refine .inr ?_
      by_cases hc : Readable s s.pc 4
      · rw [State.fetchAndExecute_of_readable hc] at h
        refine .inr ?_
        cases hi : decodeWord s.fetchWord with
        | none =>
          rw [State.execWord_none hi] at h
          exact .inl ⟨rfl, hb, hc, rfl, (Host.Outcome.next.inj h).symm⟩
        | some i =>
          rw [State.execWord_some hi] at h
          exact .inr ⟨i, rfl, hb, hc, rfl, h⟩
      · rw [State.fetchAndExecute_of_not_readable hc] at h
        exact .inl ⟨rfl, hb, hc, (Host.Outcome.next.inj h).symm⟩

/-! ### Runs -/

/-- A run of one step more is the step and then the run. -/
theorem run_succ {s t : State} (h : step s = .next t) (k : Nat) :
    Host.Core.run core (k + 1) s = Host.Core.run core k t := by
  have hc : core.step s = .next t := h
  refine (Host.Core.run.eq_2 core s k).trans ?_
  rw [hc]

/-- A halted core stays as it is through any run (R225). -/
theorem run_halted {s : State} {r : HaltRecord} (h : s.run = .halted r) (k : Nat) :
    Host.Core.run core k s = .next s := by
  induction k with
  | zero => rfl
  | succ k ih => rw [run_succ (step_halted h), ih]

end Sys2Proof.Machine
end

