-- ==== Sys2Proof/Laws/PerInstr.lean ====
section
/-! SUPPORT. The one family of statements made per instruction (LAWS.json): each instruction's encoding has its row
in the opcode table (R87 to R90). -/

namespace Sys2Proof.Laws

/-- The instruction's own word matches the row of the opcode table that bears its name, and the row's mask lies
within the bits that the instruction uses, so that no bit that selects is ignored. -/
def EncodingRow.Statement (i : Instr) : Prop :=
  ∃ r ∈ opcodeTable, r.mnemonic = i.mnemonic ∧ usedBits i &&& r.mask = r.mask ∧ r.matches (encode i) = true

/-- The bits that select in the SPECIAL table are the opcode and the funct (R88, R90). -/
theorem special_mask (rs rt rd : RegIdx) (shamt : BitVec 5) (funct : BitVec 6) :
    encodeR rs rt rd shamt funct &&& 0xFC00003F#32 = encodeR 0 0 0 0#5 funct := by
  rw [and_eq_iff_rFields]
  simp only [encodeR_extract]
  exact ⟨by decide, BitVec.and_zero, BitVec.and_zero, BitVec.and_zero, BitVec.and_zero, and_ones6 _⟩

/-- The bits that select in the primary table are the opcode (R87, R90). -/
theorem primary_mask (opcode : BitVec 6) (rs rt : RegIdx) (imm : BitVec 16) :
    encodeI opcode rs rt imm &&& 0xFC000000#32 = encodeI opcode 0 0 0#16 := by
  rw [and_eq_iff_iFields]
  simp only [encodeI_extract]
  exact ⟨and_ones6 _, BitVec.and_zero, BitVec.and_zero, BitVec.and_zero⟩

/-- The bits that select in the REGIMM table are the opcode and the `rt` field (R89, R90). -/
theorem regimm_mask (opcode : BitVec 6) (rs rt : RegIdx) (imm : BitVec 16) :
    encodeI opcode rs rt imm &&& 0xFC1F0000#32 = encodeI opcode 0 rt 0#16 := by
  rw [and_eq_iff_iFields]
  simp only [encodeI_extract]
  exact ⟨and_ones6 _, BitVec.and_zero, and_ones5 _, BitVec.and_zero⟩

/-- The bits that select a jump are the opcode (R87, R90). -/
theorem jump_mask (opcode : BitVec 6) (address : BitVec 26) :
    encodeJ opcode address &&& 0xFC000000#32 = encodeI opcode 0 0 0#16 := by
  have ho : opcodeField (encodeJ opcode address) = opcode := congrArg JFields.opcode (jFields_encodeJ opcode address)
  rw [word_eq_encodeI (encodeJ opcode address), primary_mask]
  rw [← opcodeField_of (w := encodeJ opcode address) rfl, ho]

/-- The row at place `k` of the table is the instruction's. -/
theorem encodingRow_of_row {i : Instr} (k : Nat) (n : String) (m p u : Word) (hr : opcodeTable[k]? = some ⟨n, m, p⟩)
    (hn : i.mnemonic = n) (hu : usedBits i = u) (hm : u &&& m = m) (he : encode i &&& m = p) :
    EncodingRow.Statement i := by
  refine ⟨⟨n, m, p⟩, List.mem_of_getElem? hr, hn.symm, ?_, ?_⟩
  · rw [hu, hm]
  · rw [Row.matches, he, beq_self_eq_true]

theorem EncodingRow.add (rd rs rt : RegIdx) : EncodingRow.Statement (.add rd rs rt) :=
  encodingRow_of_row 0 "add" 0xFC00003F#32 0x00000020#32 0xFFFFF83F#32 rfl rfl rfl (by decide)
    ((special_mask rs rt rd 0#5 0x20#6).trans (by decide))

theorem EncodingRow.addu (rd rs rt : RegIdx) : EncodingRow.Statement (.addu rd rs rt) :=
  encodingRow_of_row 1 "addu" 0xFC00003F#32 0x00000021#32 0xFFFFF83F#32 rfl rfl rfl (by decide)
    ((special_mask rs rt rd 0#5 0x21#6).trans (by decide))

theorem EncodingRow.sub (rd rs rt : RegIdx) : EncodingRow.Statement (.sub rd rs rt) :=
  encodingRow_of_row 2 "sub" 0xFC00003F#32 0x00000022#32 0xFFFFF83F#32 rfl rfl rfl (by decide)
    ((special_mask rs rt rd 0#5 0x22#6).trans (by decide))

theorem EncodingRow.subu (rd rs rt : RegIdx) : EncodingRow.Statement (.subu rd rs rt) :=
  encodingRow_of_row 3 "subu" 0xFC00003F#32 0x00000023#32 0xFFFFF83F#32 rfl rfl rfl (by decide)
    ((special_mask rs rt rd 0#5 0x23#6).trans (by decide))

theorem EncodingRow.and (rd rs rt : RegIdx) : EncodingRow.Statement (.and rd rs rt) :=
  encodingRow_of_row 4 "and" 0xFC00003F#32 0x00000024#32 0xFFFFF83F#32 rfl rfl rfl (by decide)
    ((special_mask rs rt rd 0#5 0x24#6).trans (by decide))

theorem EncodingRow.or (rd rs rt : RegIdx) : EncodingRow.Statement (.or rd rs rt) :=
  encodingRow_of_row 5 "or" 0xFC00003F#32 0x00000025#32 0xFFFFF83F#32 rfl rfl rfl (by decide)
    ((special_mask rs rt rd 0#5 0x25#6).trans (by decide))

theorem EncodingRow.xor (rd rs rt : RegIdx) : EncodingRow.Statement (.xor rd rs rt) :=
  encodingRow_of_row 6 "xor" 0xFC00003F#32 0x00000026#32 0xFFFFF83F#32 rfl rfl rfl (by decide)
    ((special_mask rs rt rd 0#5 0x26#6).trans (by decide))

theorem EncodingRow.nor (rd rs rt : RegIdx) : EncodingRow.Statement (.nor rd rs rt) :=
  encodingRow_of_row 7 "nor" 0xFC00003F#32 0x00000027#32 0xFFFFF83F#32 rfl rfl rfl (by decide)
    ((special_mask rs rt rd 0#5 0x27#6).trans (by decide))

theorem EncodingRow.slt (rd rs rt : RegIdx) : EncodingRow.Statement (.slt rd rs rt) :=
  encodingRow_of_row 8 "slt" 0xFC00003F#32 0x0000002A#32 0xFFFFF83F#32 rfl rfl rfl (by decide)
    ((special_mask rs rt rd 0#5 0x2A#6).trans (by decide))

theorem EncodingRow.sltu (rd rs rt : RegIdx) : EncodingRow.Statement (.sltu rd rs rt) :=
  encodingRow_of_row 9 "sltu" 0xFC00003F#32 0x0000002B#32 0xFFFFF83F#32 rfl rfl rfl (by decide)
    ((special_mask rs rt rd 0#5 0x2B#6).trans (by decide))

theorem EncodingRow.addi (rt rs : RegIdx) (imm : BitVec 16) : EncodingRow.Statement (.addi rt rs imm) :=
  encodingRow_of_row 10 "addi" 0xFC000000#32 0x20000000#32 0xFFFFFFFF#32 rfl rfl rfl (by decide)
    ((primary_mask 0x08#6 rs rt imm).trans (by decide))

theorem EncodingRow.addiu (rt rs : RegIdx) (imm : BitVec 16) : EncodingRow.Statement (.addiu rt rs imm) :=
  encodingRow_of_row 11 "addiu" 0xFC000000#32 0x24000000#32 0xFFFFFFFF#32 rfl rfl rfl (by decide)
    ((primary_mask 0x09#6 rs rt imm).trans (by decide))

theorem EncodingRow.slti (rt rs : RegIdx) (imm : BitVec 16) : EncodingRow.Statement (.slti rt rs imm) :=
  encodingRow_of_row 12 "slti" 0xFC000000#32 0x28000000#32 0xFFFFFFFF#32 rfl rfl rfl (by decide)
    ((primary_mask 0x0A#6 rs rt imm).trans (by decide))

theorem EncodingRow.sltiu (rt rs : RegIdx) (imm : BitVec 16) : EncodingRow.Statement (.sltiu rt rs imm) :=
  encodingRow_of_row 13 "sltiu" 0xFC000000#32 0x2C000000#32 0xFFFFFFFF#32 rfl rfl rfl (by decide)
    ((primary_mask 0x0B#6 rs rt imm).trans (by decide))

theorem EncodingRow.andi (rt rs : RegIdx) (imm : BitVec 16) : EncodingRow.Statement (.andi rt rs imm) :=
  encodingRow_of_row 14 "andi" 0xFC000000#32 0x30000000#32 0xFFFFFFFF#32 rfl rfl rfl (by decide)
    ((primary_mask 0x0C#6 rs rt imm).trans (by decide))

theorem EncodingRow.ori (rt rs : RegIdx) (imm : BitVec 16) : EncodingRow.Statement (.ori rt rs imm) :=
  encodingRow_of_row 15 "ori" 0xFC000000#32 0x34000000#32 0xFFFFFFFF#32 rfl rfl rfl (by decide)
    ((primary_mask 0x0D#6 rs rt imm).trans (by decide))

theorem EncodingRow.xori (rt rs : RegIdx) (imm : BitVec 16) : EncodingRow.Statement (.xori rt rs imm) :=
  encodingRow_of_row 16 "xori" 0xFC000000#32 0x38000000#32 0xFFFFFFFF#32 rfl rfl rfl (by decide)
    ((primary_mask 0x0E#6 rs rt imm).trans (by decide))

theorem EncodingRow.lui (rt : RegIdx) (imm : BitVec 16) : EncodingRow.Statement (.lui rt imm) :=
  encodingRow_of_row 17 "lui" 0xFC000000#32 0x3C000000#32 0xFC1FFFFF#32 rfl rfl rfl (by decide)
    ((primary_mask 0x0F#6 0 rt imm).trans (by decide))

theorem EncodingRow.sll (rd rt : RegIdx) (shamt : BitVec 5) : EncodingRow.Statement (.sll rd rt shamt) :=
  encodingRow_of_row 18 "sll" 0xFC00003F#32 0x00000000#32 0xFC1FFFFF#32 rfl rfl rfl (by decide)
    ((special_mask 0 rt rd shamt 0x00#6).trans (by decide))

theorem EncodingRow.srl (rd rt : RegIdx) (shamt : BitVec 5) : EncodingRow.Statement (.srl rd rt shamt) :=
  encodingRow_of_row 19 "srl" 0xFC00003F#32 0x00000002#32 0xFC1FFFFF#32 rfl rfl rfl (by decide)
    ((special_mask 0 rt rd shamt 0x02#6).trans (by decide))

theorem EncodingRow.sra (rd rt : RegIdx) (shamt : BitVec 5) : EncodingRow.Statement (.sra rd rt shamt) :=
  encodingRow_of_row 20 "sra" 0xFC00003F#32 0x00000003#32 0xFC1FFFFF#32 rfl rfl rfl (by decide)
    ((special_mask 0 rt rd shamt 0x03#6).trans (by decide))

theorem EncodingRow.sllv (rd rt rs : RegIdx) : EncodingRow.Statement (.sllv rd rt rs) :=
  encodingRow_of_row 21 "sllv" 0xFC00003F#32 0x00000004#32 0xFFFFF83F#32 rfl rfl rfl (by decide)
    ((special_mask rs rt rd 0#5 0x04#6).trans (by decide))

theorem EncodingRow.srlv (rd rt rs : RegIdx) : EncodingRow.Statement (.srlv rd rt rs) :=
  encodingRow_of_row 22 "srlv" 0xFC00003F#32 0x00000006#32 0xFFFFF83F#32 rfl rfl rfl (by decide)
    ((special_mask rs rt rd 0#5 0x06#6).trans (by decide))

theorem EncodingRow.srav (rd rt rs : RegIdx) : EncodingRow.Statement (.srav rd rt rs) :=
  encodingRow_of_row 23 "srav" 0xFC00003F#32 0x00000007#32 0xFFFFF83F#32 rfl rfl rfl (by decide)
    ((special_mask rs rt rd 0#5 0x07#6).trans (by decide))

theorem EncodingRow.mult (rs rt : RegIdx) : EncodingRow.Statement (.mult rs rt) :=
  encodingRow_of_row 24 "mult" 0xFC00003F#32 0x00000018#32 0xFFFF003F#32 rfl rfl rfl (by decide)
    ((special_mask rs rt 0 0#5 0x18#6).trans (by decide))

theorem EncodingRow.multu (rs rt : RegIdx) : EncodingRow.Statement (.multu rs rt) :=
  encodingRow_of_row 25 "multu" 0xFC00003F#32 0x00000019#32 0xFFFF003F#32 rfl rfl rfl (by decide)
    ((special_mask rs rt 0 0#5 0x19#6).trans (by decide))

theorem EncodingRow.div (rs rt : RegIdx) : EncodingRow.Statement (.div rs rt) :=
  encodingRow_of_row 26 "div" 0xFC00003F#32 0x0000001A#32 0xFFFF003F#32 rfl rfl rfl (by decide)
    ((special_mask rs rt 0 0#5 0x1A#6).trans (by decide))

theorem EncodingRow.divu (rs rt : RegIdx) : EncodingRow.Statement (.divu rs rt) :=
  encodingRow_of_row 27 "divu" 0xFC00003F#32 0x0000001B#32 0xFFFF003F#32 rfl rfl rfl (by decide)
    ((special_mask rs rt 0 0#5 0x1B#6).trans (by decide))

theorem EncodingRow.mfhi (rd : RegIdx) : EncodingRow.Statement (.mfhi rd) :=
  encodingRow_of_row 28 "mfhi" 0xFC00003F#32 0x00000010#32 0xFC00F83F#32 rfl rfl rfl (by decide)
    ((special_mask 0 0 rd 0#5 0x10#6).trans (by decide))

theorem EncodingRow.mflo (rd : RegIdx) : EncodingRow.Statement (.mflo rd) :=
  encodingRow_of_row 29 "mflo" 0xFC00003F#32 0x00000012#32 0xFC00F83F#32 rfl rfl rfl (by decide)
    ((special_mask 0 0 rd 0#5 0x12#6).trans (by decide))

theorem EncodingRow.mthi (rs : RegIdx) : EncodingRow.Statement (.mthi rs) :=
  encodingRow_of_row 30 "mthi" 0xFC00003F#32 0x00000011#32 0xFFE0003F#32 rfl rfl rfl (by decide)
    ((special_mask rs 0 0 0#5 0x11#6).trans (by decide))

theorem EncodingRow.mtlo (rs : RegIdx) : EncodingRow.Statement (.mtlo rs) :=
  encodingRow_of_row 31 "mtlo" 0xFC00003F#32 0x00000013#32 0xFFE0003F#32 rfl rfl rfl (by decide)
    ((special_mask rs 0 0 0#5 0x13#6).trans (by decide))

theorem EncodingRow.j (address : BitVec 26) : EncodingRow.Statement (.j address) :=
  encodingRow_of_row 32 "j" 0xFC000000#32 0x08000000#32 0xFFFFFFFF#32 rfl rfl rfl (by decide)
    ((jump_mask 0x02#6 address).trans (by decide))

theorem EncodingRow.jal (address : BitVec 26) : EncodingRow.Statement (.jal address) :=
  encodingRow_of_row 33 "jal" 0xFC000000#32 0x0C000000#32 0xFFFFFFFF#32 rfl rfl rfl (by decide)
    ((jump_mask 0x03#6 address).trans (by decide))

theorem EncodingRow.jr (rs : RegIdx) : EncodingRow.Statement (.jr rs) :=
  encodingRow_of_row 34 "jr" 0xFC00003F#32 0x00000008#32 0xFFE0003F#32 rfl rfl rfl (by decide)
    ((special_mask rs 0 0 0#5 0x08#6).trans (by decide))

theorem EncodingRow.jalr (rd rs : RegIdx) : EncodingRow.Statement (.jalr rd rs) :=
  encodingRow_of_row 35 "jalr" 0xFC00003F#32 0x00000009#32 0xFFE0F83F#32 rfl rfl rfl (by decide)
    ((special_mask rs 0 rd 0#5 0x09#6).trans (by decide))

theorem EncodingRow.beq (rs rt : RegIdx) (imm : BitVec 16) : EncodingRow.Statement (.beq rs rt imm) :=
  encodingRow_of_row 36 "beq" 0xFC000000#32 0x10000000#32 0xFFFFFFFF#32 rfl rfl rfl (by decide)
    ((primary_mask 0x04#6 rs rt imm).trans (by decide))

theorem EncodingRow.bne (rs rt : RegIdx) (imm : BitVec 16) : EncodingRow.Statement (.bne rs rt imm) :=
  encodingRow_of_row 37 "bne" 0xFC000000#32 0x14000000#32 0xFFFFFFFF#32 rfl rfl rfl (by decide)
    ((primary_mask 0x05#6 rs rt imm).trans (by decide))

theorem EncodingRow.blez (rs : RegIdx) (imm : BitVec 16) : EncodingRow.Statement (.blez rs imm) :=
  encodingRow_of_row 38 "blez" 0xFC000000#32 0x18000000#32 0xFFE0FFFF#32 rfl rfl rfl (by decide)
    ((primary_mask 0x06#6 rs 0 imm).trans (by decide))

theorem EncodingRow.bgtz (rs : RegIdx) (imm : BitVec 16) : EncodingRow.Statement (.bgtz rs imm) :=
  encodingRow_of_row 39 "bgtz" 0xFC000000#32 0x1C000000#32 0xFFE0FFFF#32 rfl rfl rfl (by decide)
    ((primary_mask 0x07#6 rs 0 imm).trans (by decide))

theorem EncodingRow.bltz (rs : RegIdx) (imm : BitVec 16) : EncodingRow.Statement (.bltz rs imm) :=
  encodingRow_of_row 40 "bltz" 0xFC1F0000#32 0x04000000#32 0xFFFFFFFF#32 rfl rfl rfl (by decide)
    ((regimm_mask 0x01#6 rs 0 imm).trans (by decide))

theorem EncodingRow.bgez (rs : RegIdx) (imm : BitVec 16) : EncodingRow.Statement (.bgez rs imm) :=
  encodingRow_of_row 41 "bgez" 0xFC1F0000#32 0x04010000#32 0xFFFFFFFF#32 rfl rfl rfl (by decide)
    ((regimm_mask 0x01#6 rs 1 imm).trans (by decide))

theorem EncodingRow.bltzal (rs : RegIdx) (imm : BitVec 16) : EncodingRow.Statement (.bltzal rs imm) :=
  encodingRow_of_row 42 "bltzal" 0xFC1F0000#32 0x04100000#32 0xFFFFFFFF#32 rfl rfl rfl (by decide)
    ((regimm_mask 0x01#6 rs 16 imm).trans (by decide))

theorem EncodingRow.bgezal (rs : RegIdx) (imm : BitVec 16) : EncodingRow.Statement (.bgezal rs imm) :=
  encodingRow_of_row 43 "bgezal" 0xFC1F0000#32 0x04110000#32 0xFFFFFFFF#32 rfl rfl rfl (by decide)
    ((regimm_mask 0x01#6 rs 17 imm).trans (by decide))

theorem EncodingRow.lb (rt : RegIdx) (imm : BitVec 16) (rs : RegIdx) : EncodingRow.Statement (.lb rt imm rs) :=
  encodingRow_of_row 44 "lb" 0xFC000000#32 0x80000000#32 0xFFFFFFFF#32 rfl rfl rfl (by decide)
    ((primary_mask 0x20#6 rs rt imm).trans (by decide))

theorem EncodingRow.lbu (rt : RegIdx) (imm : BitVec 16) (rs : RegIdx) : EncodingRow.Statement (.lbu rt imm rs) :=
  encodingRow_of_row 45 "lbu" 0xFC000000#32 0x90000000#32 0xFFFFFFFF#32 rfl rfl rfl (by decide)
    ((primary_mask 0x24#6 rs rt imm).trans (by decide))

theorem EncodingRow.lh (rt : RegIdx) (imm : BitVec 16) (rs : RegIdx) : EncodingRow.Statement (.lh rt imm rs) :=
  encodingRow_of_row 46 "lh" 0xFC000000#32 0x84000000#32 0xFFFFFFFF#32 rfl rfl rfl (by decide)
    ((primary_mask 0x21#6 rs rt imm).trans (by decide))

theorem EncodingRow.lhu (rt : RegIdx) (imm : BitVec 16) (rs : RegIdx) : EncodingRow.Statement (.lhu rt imm rs) :=
  encodingRow_of_row 47 "lhu" 0xFC000000#32 0x94000000#32 0xFFFFFFFF#32 rfl rfl rfl (by decide)
    ((primary_mask 0x25#6 rs rt imm).trans (by decide))

theorem EncodingRow.lw (rt : RegIdx) (imm : BitVec 16) (rs : RegIdx) : EncodingRow.Statement (.lw rt imm rs) :=
  encodingRow_of_row 48 "lw" 0xFC000000#32 0x8C000000#32 0xFFFFFFFF#32 rfl rfl rfl (by decide)
    ((primary_mask 0x23#6 rs rt imm).trans (by decide))

theorem EncodingRow.sb (rt : RegIdx) (imm : BitVec 16) (rs : RegIdx) : EncodingRow.Statement (.sb rt imm rs) :=
  encodingRow_of_row 49 "sb" 0xFC000000#32 0xA0000000#32 0xFFFFFFFF#32 rfl rfl rfl (by decide)
    ((primary_mask 0x28#6 rs rt imm).trans (by decide))

theorem EncodingRow.sh (rt : RegIdx) (imm : BitVec 16) (rs : RegIdx) : EncodingRow.Statement (.sh rt imm rs) :=
  encodingRow_of_row 50 "sh" 0xFC000000#32 0xA4000000#32 0xFFFFFFFF#32 rfl rfl rfl (by decide)
    ((primary_mask 0x29#6 rs rt imm).trans (by decide))

theorem EncodingRow.sw (rt : RegIdx) (imm : BitVec 16) (rs : RegIdx) : EncodingRow.Statement (.sw rt imm rs) :=
  encodingRow_of_row 51 "sw" 0xFC000000#32 0xAC000000#32 0xFFFFFFFF#32 rfl rfl rfl (by decide)
    ((primary_mask 0x2B#6 rs rt imm).trans (by decide))

theorem EncodingRow.lwl (rt : RegIdx) (imm : BitVec 16) (rs : RegIdx) : EncodingRow.Statement (.lwl rt imm rs) :=
  encodingRow_of_row 52 "lwl" 0xFC000000#32 0x88000000#32 0xFFFFFFFF#32 rfl rfl rfl (by decide)
    ((primary_mask 0x22#6 rs rt imm).trans (by decide))

theorem EncodingRow.lwr (rt : RegIdx) (imm : BitVec 16) (rs : RegIdx) : EncodingRow.Statement (.lwr rt imm rs) :=
  encodingRow_of_row 53 "lwr" 0xFC000000#32 0x98000000#32 0xFFFFFFFF#32 rfl rfl rfl (by decide)
    ((primary_mask 0x26#6 rs rt imm).trans (by decide))

theorem EncodingRow.swl (rt : RegIdx) (imm : BitVec 16) (rs : RegIdx) : EncodingRow.Statement (.swl rt imm rs) :=
  encodingRow_of_row 54 "swl" 0xFC000000#32 0xA8000000#32 0xFFFFFFFF#32 rfl rfl rfl (by decide)
    ((primary_mask 0x2A#6 rs rt imm).trans (by decide))

theorem EncodingRow.swr (rt : RegIdx) (imm : BitVec 16) (rs : RegIdx) : EncodingRow.Statement (.swr rt imm rs) :=
  encodingRow_of_row 55 "swr" 0xFC000000#32 0xB8000000#32 0xFFFFFFFF#32 rfl rfl rfl (by decide)
    ((primary_mask 0x2E#6 rs rt imm).trans (by decide))

theorem EncodingRow.syscall : EncodingRow.Statement .syscall :=
  encodingRow_of_row 56 "syscall" 0xFC00003F#32 0x0000000C#32 0xFC00003F#32 rfl rfl rfl (by decide)
    ((special_mask 0 0 0 0#5 0x0C#6).trans (by decide))

theorem EncodingRow.brk : EncodingRow.Statement .brk :=
  encodingRow_of_row 57 "break" 0xFC00003F#32 0x0000000D#32 0xFC00003F#32 rfl rfl rfl (by decide)
    ((special_mask 0 0 0 0#5 0x0D#6).trans (by decide))

end Sys2Proof.Laws
end

