-- ==== Sys2Proof/Tests/Slice0.lean ====
section
/-! SUPPORT. Tests of the model and witnesses of the statements' hypotheses. The expected results come from the spec:
the words of the decode tests are written out from the tables of 30_encoding.md, and the steps are vectors of
95_test_vectors.md. -/

open Sys2Proof Sys2Proof.Machine

namespace Sys2Proof.Tests

/-! ### Well-formedness: an ill-formed record for each check, and the decoder refuses its word too -/

/-- R88: funct 0x01 is not in the SPECIAL table. -/
theorem test_refuses_funct : Shape.wellFormed (.r ⟨0x00#6, 1, 2, 3, 0#5, 0x01#6⟩) = false := by decide

/-- R82: an R-format record has opcode 0. -/
theorem test_refuses_r_opcode : Shape.wellFormed (.r ⟨0x08#6, 1, 2, 3, 0#5, 0x20#6⟩) = false := by decide

/-- R89: `rt` 2 is not in the REGIMM table. -/
theorem test_refuses_selector : Shape.wellFormed (.i ⟨0x01#6, 1, 2, 5#16⟩) = false := by decide

/-- R87: opcode 0x10 is not in the primary table. -/
theorem test_refuses_i_opcode : Shape.wellFormed (.i ⟨0x10#6, 2, 2, 0x6000#16⟩) = false := by decide

/-- R84: a J-format record has opcode 2 or 3. -/
theorem test_refuses_j_opcode : Shape.wellFormed (.j ⟨0x04#6, 0#26⟩) = false := by decide

/-- R80: three bytes are no instruction word; and a word that selects nothing is turned down by its name. -/
theorem test_rejects_by_name :
    decodeBytes [0x00#8, 0x00#8, 0x00#8] = .error (.tooShort 3) ∧
    decodeBytes [0x04#8, 0x22#8, 0x00#8, 0x05#8, 0x00#8] = .error (.unimplementedOpcode 0x04220005#32) ∧
    decodeBytes [0x00#8, 0x22#8, 0x18#8, 0x20#8, 0xAA#8] = .ok (.add 3 1 2, [0xAA#8]) := by
  refine ⟨?_, ?_, ?_⟩ <;> rfl

/-! ### Decoding: every constructor, from its word written out field by field (R82 to R84, R87 to R89) -/

/-- A word from its R-format fields as numbers: opcode, rs, rt, rd, shamt, funct. -/
def rWord (opcode rs rt rd shamt funct : Nat) : Word :=
  BitVec.ofNat 32 (opcode * 2 ^ 26 + rs * 2 ^ 21 + rt * 2 ^ 16 + rd * 2 ^ 11 + shamt * 2 ^ 6 + funct)

/-- A word from its I-format fields as numbers: opcode, rs, rt, immediate. -/
def iWord (opcode rs rt imm : Nat) : Word :=
  BitVec.ofNat 32 (opcode * 2 ^ 26 + rs * 2 ^ 21 + rt * 2 ^ 16 + imm)

/-- The words bit by bit, one of each format. -/
theorem test_decode_bits :
    decodeWord 0b00000000001000100001100000100000#32 = some (.add 3 1 2) ∧
    decodeWord 0b00100111101111011111111111111000#32 = some (.addiu 29 29 0xFFF8#16) ∧
    decodeWord 0b00000100001100000000000000000010#32 = some (.bltzal 1 2#16) ∧
    decodeWord 0b00001100000100000000000000010000#32 = some (.jal 0x0100010#26) := by decide

theorem test_decode_alu :
    decodeWord (rWord 0 1 2 3 0 0x20) = some (.add 3 1 2) ∧ decodeWord (rWord 0 1 2 3 0 0x21) = some (.addu 3 1 2) ∧
    decodeWord (rWord 0 1 2 3 0 0x22) = some (.sub 3 1 2) ∧ decodeWord (rWord 0 1 2 3 0 0x23) = some (.subu 3 1 2) ∧
    decodeWord (rWord 0 1 2 3 0 0x24) = some (.and 3 1 2) ∧ decodeWord (rWord 0 1 2 3 0 0x25) = some (.or 3 1 2) ∧
    decodeWord (rWord 0 1 2 3 0 0x26) = some (.xor 3 1 2) ∧ decodeWord (rWord 0 1 2 3 0 0x27) = some (.nor 3 1 2) ∧
    decodeWord (rWord 0 1 2 3 0 0x2A) = some (.slt 3 1 2) ∧
    decodeWord (rWord 0 1 2 3 0 0x2B) = some (.sltu 3 1 2) := by decide

theorem test_decode_immediate :
    decodeWord (iWord 0x08 1 2 0x8001) = some (.addi 2 1 0x8001#16) ∧
    decodeWord (iWord 0x09 1 2 0x8001) = some (.addiu 2 1 0x8001#16) ∧
    decodeWord (iWord 0x0A 1 2 0x8001) = some (.slti 2 1 0x8001#16) ∧
    decodeWord (iWord 0x0B 1 2 0x8001) = some (.sltiu 2 1 0x8001#16) ∧
    decodeWord (iWord 0x0C 1 2 0x8001) = some (.andi 2 1 0x8001#16) ∧
    decodeWord (iWord 0x0D 1 2 0x8001) = some (.ori 2 1 0x8001#16) ∧
    decodeWord (iWord 0x0E 1 2 0x8001) = some (.xori 2 1 0x8001#16) ∧
    decodeWord (iWord 0x0F 5 2 0x8001) = some (.lui 2 0x8001#16) := by decide

theorem test_decode_shift :
    decodeWord (rWord 0 7 1 2 4 0x00) = some (.sll 2 1 4#5) ∧ decodeWord (rWord 0 7 1 2 4 0x02) = some (.srl 2 1 4#5) ∧
    decodeWord (rWord 0 7 1 2 4 0x03) = some (.sra 2 1 4#5) ∧ decodeWord (rWord 0 2 1 3 9 0x04) = some (.sllv 3 1 2) ∧
    decodeWord (rWord 0 2 1 3 9 0x06) = some (.srlv 3 1 2) ∧
    decodeWord (rWord 0 2 1 3 9 0x07) = some (.srav 3 1 2) := by decide

theorem test_decode_muldiv :
    decodeWord (rWord 0 1 2 7 7 0x18) = some (.mult 1 2) ∧ decodeWord (rWord 0 1 2 7 7 0x19) = some (.multu 1 2) ∧
    decodeWord (rWord 0 1 2 7 7 0x1A) = some (.div 1 2) ∧ decodeWord (rWord 0 1 2 7 7 0x1B) = some (.divu 1 2) ∧
    decodeWord (rWord 0 7 7 3 7 0x10) = some (.mfhi 3) ∧ decodeWord (rWord 0 7 7 3 7 0x12) = some (.mflo 3) ∧
    decodeWord (rWord 0 1 7 7 7 0x11) = some (.mthi 1) ∧ decodeWord (rWord 0 1 7 7 7 0x13) = some (.mtlo 1) := by decide

theorem test_decode_jump_branch :
    decodeWord (BitVec.ofNat 32 (0x02 * 2 ^ 26 + 0x2000001)) = some (.j 0x2000001#26) ∧
    decodeWord (BitVec.ofNat 32 (0x03 * 2 ^ 26 + 0x2000001)) = some (.jal 0x2000001#26) ∧
    decodeWord (rWord 0 5 7 7 7 0x08) = some (.jr 5) ∧ decodeWord (rWord 0 5 7 2 7 0x09) = some (.jalr 2 5) ∧
    decodeWord (iWord 0x04 1 2 0x8001) = some (.beq 1 2 0x8001#16) ∧
    decodeWord (iWord 0x05 1 2 0x8001) = some (.bne 1 2 0x8001#16) ∧
    decodeWord (iWord 0x06 1 9 0x8001) = some (.blez 1 0x8001#16) ∧
    decodeWord (iWord 0x07 1 9 0x8001) = some (.bgtz 1 0x8001#16) ∧
    decodeWord (iWord 0x01 1 0x00 0x8001) = some (.bltz 1 0x8001#16) ∧
    decodeWord (iWord 0x01 1 0x01 0x8001) = some (.bgez 1 0x8001#16) ∧
    decodeWord (iWord 0x01 1 0x10 0x8001) = some (.bltzal 1 0x8001#16) ∧
    decodeWord (iWord 0x01 1 0x11 0x8001) = some (.bgezal 1 0x8001#16) := by decide

theorem test_decode_memory :
    decodeWord (iWord 0x20 1 2 0x8001) = some (.lb 2 0x8001#16 1) ∧
    decodeWord (iWord 0x21 1 2 0x8001) = some (.lh 2 0x8001#16 1) ∧
    decodeWord (iWord 0x22 1 2 0x8001) = some (.lwl 2 0x8001#16 1) ∧
    decodeWord (iWord 0x23 1 2 0x8001) = some (.lw 2 0x8001#16 1) ∧
    decodeWord (iWord 0x24 1 2 0x8001) = some (.lbu 2 0x8001#16 1) ∧
    decodeWord (iWord 0x25 1 2 0x8001) = some (.lhu 2 0x8001#16 1) ∧
    decodeWord (iWord 0x26 1 2 0x8001) = some (.lwr 2 0x8001#16 1) ∧
    decodeWord (iWord 0x28 1 2 0x8001) = some (.sb 2 0x8001#16 1) ∧
    decodeWord (iWord 0x29 1 2 0x8001) = some (.sh 2 0x8001#16 1) ∧
    decodeWord (iWord 0x2A 1 2 0x8001) = some (.swl 2 0x8001#16 1) ∧
    decodeWord (iWord 0x2B 1 2 0x8001) = some (.sw 2 0x8001#16 1) ∧
    decodeWord (iWord 0x2E 1 2 0x8001) = some (.swr 2 0x8001#16 1) := by decide

theorem test_decode_system :
    decodeWord 0x0048D14C#32 = some .syscall ∧ decodeWord 0x000001CD#32 = some .brk := by decide

/-- R88, R91: all 64 funct values against the rows of the opcode table. -/
theorem test_special_table : ∀ k : Fin 64,
    (decodeWord (rWord 0 1 2 3 4 k.val)).map Instr.mnemonic =
      (opcodeTable.find? fun r => r.matches (rWord 0 1 2 3 4 k.val)).map Row.mnemonic := by decide

/-- R89, R91: all 32 `rt` selectors under opcode 1 against the rows of the opcode table. -/
theorem test_regimm_table : ∀ k : Fin 32,
    (decodeWord (iWord 1 1 k.val 5)).map Instr.mnemonic =
      (opcodeTable.find? fun r => r.matches (iWord 1 1 k.val 5)).map Row.mnemonic := by decide

/-- R87, R91: all 64 opcodes against the rows of the opcode table. -/
theorem test_primary_table : ∀ k : Fin 64,
    (decodeWord (iWord k.val 1 17 5)).map Instr.mnemonic =
      (opcodeTable.find? fun r => r.matches (iWord k.val 1 17 5)).map Row.mnemonic := by decide

/-! ### Helpers for the steps -/

/-- A small state: the word at `pc`, the registers and the bytes given, and 0 elsewhere. -/
def small (pc word : Word) (regs : List (RegIdx × Word)) (bytes : List (Word × Byte)) : State where
  gpr := regs.foldl (fun g c => g.set c.1 c.2) (Vector.replicate 32 0#32)
  hi := 0x11111111#32
  lo := 0x22222222#32
  pc := pc
  mem := bytes.foldl (fun m c => m.writeByte c.1 c.2) (Memory.memWrite [] pc 4 word.toNat)
  run := .running
  budget := 5
  present := none
  bridge := []

/-- One step of `s` gives exactly the state `t`. -/
def steps (s t : State) : Bool :=
  match step s with
  | .next u => decide (u = t)
  | _ => false

/-- One step of `s` moves `pc` to `pc`, uses one unit of budget, sets these registers and bytes, and changes
nothing else. -/
def runs (s : State) (pc : Word) (regs : List (RegIdx × Word)) (bytes : List (Word × Byte)) : Bool :=
  steps s { s with
    gpr := regs.foldl (fun g c => g.set c.1 c.2) s.gpr
    mem := bytes.foldl (fun m c => m.writeByte c.1 c.2) s.mem
    pc := pc
    budget := s.budget - 1 }

/-- One step of `s` moves `pc` to `pc`, uses one unit of budget, sets `HI` and `LO`, and changes nothing else. -/
def runsHiLo (s : State) (pc hi lo : Word) : Bool :=
  steps s { s with hi := hi, lo := lo, pc := pc, budget := s.budget - 1 }

/-- One step of `s` halts it with this record and changes nothing else. -/
def haltsAt (s : State) (c : Cause) (pc : Word) (word : Option Word) : Bool :=
  steps s { s with run := .halted ⟨c, pc, word⟩ }

/-- The memory image M of the vectors. -/
def bytesM : List (Word × Byte) :=
  [(0x1000#32, 0x80#8), (0x1001#32, 0x7F#8), (0x1002#32, 0xFF#8), (0x1003#32, 0x01#8),
   (0x1004#32, 0xAA#8), (0x1005#32, 0xBB#8), (0x1006#32, 0xCC#8), (0x1007#32, 0xDD#8)]

/-- The memory image U of the vectors. -/
def bytesU : List (Word × Byte) :=
  [(0x1000#32, 0xAA#8), (0x1001#32, 0xBB#8), (0x1002#32, 0xCC#8), (0x1003#32, 0xDD#8)]

/-! ### ALU (vectors 2.1) -/

/-- `add r3, r1, r2`. -/
theorem test_add_wraps :
    runs (small 0x00400000#32 0x00221820#32 [(1, 0x7FFFFFFF#32), (2, 0x00000001#32)] [])
      0x00400004#32 [(3, 0x80000000#32)] [] = true := by
  decide

/-- `add r0, r1, r2`. -/
theorem test_add_into_register_0 :
    runs (small 0x00400000#32 0x00220020#32 [(1, 0x00000005#32), (2, 0x00000007#32)] [])
      0x00400004#32 [] [] = true := by
  decide

/-- `addu r3, r1, r2`. -/
theorem test_addu :
    runs (small 0x00400000#32 0x00221821#32 [(1, 0xFFFFFFFF#32), (2, 0x00000002#32)] [])
      0x00400004#32 [(3, 0x00000001#32)] [] = true := by
  decide

/-- `sub r3, r1, r2`. -/
theorem test_sub_wraps :
    runs (small 0x00400000#32 0x00221822#32 [(1, 0x80000000#32), (2, 0x00000001#32)] [])
      0x00400004#32 [(3, 0x7FFFFFFF#32)] [] = true := by
  decide

/-- `subu r3, r1, r2`. -/
theorem test_subu :
    runs (small 0x00400000#32 0x00221823#32 [(1, 0x00000000#32), (2, 0x00000001#32)] [])
      0x00400004#32 [(3, 0xFFFFFFFF#32)] [] = true := by
  decide

/-- `and r3, r1, r2`. -/
theorem test_and :
    runs (small 0x00400000#32 0x00221824#32 [(1, 0xFF00FF00#32), (2, 0x0FF00FF0#32)] [])
      0x00400004#32 [(3, 0x0F000F00#32)] [] = true := by
  decide

/-- `or r3, r1, r2`. -/
theorem test_or :
    runs (small 0x00400000#32 0x00221825#32 [(1, 0xFF00FF00#32), (2, 0x0FF00FF0#32)] [])
      0x00400004#32 [(3, 0xFFF0FFF0#32)] [] = true := by
  decide

/-- `xor r3, r1, r2`. -/
theorem test_xor :
    runs (small 0x00400000#32 0x00221826#32 [(1, 0xFF00FF00#32), (2, 0x0FF00FF0#32)] [])
      0x00400004#32 [(3, 0xF0F0F0F0#32)] [] = true := by
  decide

/-- `nor r3, r1, r2`. -/
theorem test_nor :
    runs (small 0x00400000#32 0x00221827#32 [(1, 0xFF00FF00#32), (2, 0x0FF00FF0#32)] [])
      0x00400004#32 [(3, 0x000F000F#32)] [] = true := by
  decide

/-- `slt r3, r1, r2`. -/
theorem test_slt_negative :
    runs (small 0x00400000#32 0x0022182A#32 [(1, 0xFFFFFFFF#32), (2, 0x00000001#32), (3, 0x00000009#32)] [])
      0x00400004#32 [(3, 0x00000001#32)] [] = true := by
  decide

/-- `slt r3, r1, r2`. -/
theorem test_slt_zero_minus_one :
    runs (small 0x00400000#32 0x0022182A#32 [(1, 0x00000000#32), (2, 0xFFFFFFFF#32), (3, 0x00000009#32)] [])
      0x00400004#32 [(3, 0x00000000#32)] [] = true := by
  decide

/-- `sltu r3, r1, r2`. -/
theorem test_sltu_zero_max :
    runs (small 0x00400000#32 0x0022182B#32 [(1, 0x00000000#32), (2, 0xFFFFFFFF#32), (3, 0x00000009#32)] [])
      0x00400004#32 [(3, 0x00000001#32)] [] = true := by
  decide

/-- `sltu r3, r1, r2`. -/
theorem test_sltu_sign_bit :
    runs (small 0x00400000#32 0x0022182B#32 [(1, 0x80000000#32), (2, 0x7FFFFFFF#32), (3, 0x00000009#32)] [])
      0x00400004#32 [(3, 0x00000000#32)] [] = true := by
  decide

/-- `addi r2, r1, 1`. -/
theorem test_addi_wraps :
    runs (small 0x00400000#32 0x20220001#32 [(1, 0x7FFFFFFF#32)] [])
      0x00400004#32 [(2, 0x80000000#32)] [] = true := by
  decide

/-- `addiu r2, r1, -32768`. -/
theorem test_addiu_lowest_immediate :
    runs (small 0x00400000#32 0x24228000#32 [(1, 0x00010000#32)] [])
      0x00400004#32 [(2, 0x00008000#32)] [] = true := by
  decide

/-- `slti r2, r1, -1`. -/
theorem test_slti_negative_immediate :
    runs (small 0x00400000#32 0x2822FFFF#32 [(1, 0xFFFFFFFE#32), (2, 0x00000009#32)] [])
      0x00400004#32 [(2, 0x00000001#32)] [] = true := by
  decide

/-- `sltiu r2, r1, 0x8000`. -/
theorem test_sltiu_extended_immediate :
    runs (small 0x00400000#32 0x2C228000#32 [(1, 0x00008000#32), (2, 0x00000009#32)] [])
      0x00400004#32 [(2, 0x00000001#32)] [] = true := by
  decide

/-- `andi r2, r1, 0x8000`. -/
theorem test_andi_sign_extends :
    runs (small 0x00400000#32 0x30228000#32 [(1, 0x12345678#32)] [])
      0x00400004#32 [(2, 0x12340000#32)] [] = true := by
  decide

/-- `ori r2, r0, 0x8000`. -/
theorem test_ori_sign_extends :
    runs (small 0x00400000#32 0x34028000#32 [] []) 0x00400004#32 [(2, 0xFFFF8000#32)] [] = true := by
  decide

/-- `xori r2, r1, 0xFFFF`. -/
theorem test_xori_sign_extends :
    runs (small 0x00400000#32 0x3822FFFF#32 [(1, 0x12345678#32)] [])
      0x00400004#32 [(2, 0xEDCBA987#32)] [] = true := by
  decide

/-- `lui r2, 0xFFFF (rs field = 5)`. -/
theorem test_lui_ignores_rs :
    runs (small 0x00400000#32 0x3CA2FFFF#32 [(5, 0x12345678#32)] [])
      0x00400004#32 [(2, 0xFFFF0000#32)] [] = true := by
  decide

/-! ### Shifts (vectors 2.2) -/

/-- `sll r2, r1, 31`. -/
theorem test_sll_by_31 :
    runs (small 0x00400000#32 0x000117C0#32 [(1, 0x00000003#32)] [])
      0x00400004#32 [(2, 0x80000000#32)] [] = true := by
  decide

/-- `srl r2, r1, 4`. -/
theorem test_srl_zero_fill :
    runs (small 0x00400000#32 0x00011102#32 [(1, 0x87654321#32)] [])
      0x00400004#32 [(2, 0x08765432#32)] [] = true := by
  decide

/-- `sra r2, r1, 4`. -/
theorem test_sra_sign_fill :
    runs (small 0x00400000#32 0x00011103#32 [(1, 0x87654321#32)] [])
      0x00400004#32 [(2, 0xF8765432#32)] [] = true := by
  decide

/-- `sllv r3, r1, r2`. -/
theorem test_sllv_amount_32_is_0 :
    runs (small 0x00400000#32 0x00411804#32 [(1, 0x00000001#32), (2, 0x00000020#32), (3, 0x00000009#32)] [])
      0x00400004#32 [(3, 0x00000001#32)] [] = true := by
  decide

/-- `srlv r3, r1, r2`. -/
theorem test_srlv_low_5_bits :
    runs (small 0x00400000#32 0x00411806#32 [(1, 0x87654321#32), (2, 0xFFFFFFE8#32)] [])
      0x00400004#32 [(3, 0x00876543#32)] [] = true := by
  decide

/-- `srav r3, r1, r2`. -/
theorem test_srav_amount_33_is_1 :
    runs (small 0x00400000#32 0x00411807#32 [(1, 0x80000000#32), (2, 0x00000021#32)] [])
      0x00400004#32 [(3, 0xC0000000#32)] [] = true := by
  decide

/-! ### Multiply, divide, HI and LO (vectors 2.3) -/

/-- `mult r1, r2`. -/
theorem test_mult_signed :
    runsHiLo (small 0x00400000#32 0x00220018#32 [(1, 0xFFFFFFFE#32), (2, 0x00000003#32)] [])
      0x00400004#32 0xFFFFFFFF#32 0xFFFFFFFA#32 = true := by
  decide

/-- `mult r1, r2`. -/
theorem test_mult_most_negative :
    runsHiLo (small 0x00400000#32 0x00220018#32 [(1, 0x80000000#32), (2, 0xFFFFFFFF#32)] [])
      0x00400004#32 0x00000000#32 0x80000000#32 = true := by
  decide

/-- `multu r1, r2`. -/
theorem test_multu_largest :
    runsHiLo (small 0x00400000#32 0x00220019#32 [(1, 0xFFFFFFFF#32), (2, 0xFFFFFFFF#32)] [])
      0x00400004#32 0xFFFFFFFE#32 0x00000001#32 = true := by
  decide

/-- `div r1, r2`. -/
theorem test_div_rounds_to_zero :
    runsHiLo (small 0x00400000#32 0x0022001A#32 [(1, 0xFFFFFFF9#32), (2, 0x00000002#32)] [])
      0x00400004#32 0xFFFFFFFF#32 0xFFFFFFFD#32 = true := by
  decide

/-- `div r1, r2`. -/
theorem test_div_overflow :
    runsHiLo (small 0x00400000#32 0x0022001A#32 [(1, 0x80000000#32), (2, 0xFFFFFFFF#32)] [])
      0x00400004#32 0x00000000#32 0x80000000#32 = true := by
  decide

/-- `divu r1, r2`. -/
theorem test_divu :
    runsHiLo (small 0x00400000#32 0x0022001B#32 [(1, 0xFFFFFFF9#32), (2, 0x00000002#32)] [])
      0x00400004#32 0x00000001#32 0x7FFFFFFC#32 = true := by
  decide

/-- `divu r1, r2`. -/
theorem test_divu_by_zero_halts :
    haltsAt (small 0x00400000#32 0x0022001B#32 [(1, 0x00000005#32), (2, 0x00000000#32)] [])
      .arithmeticEdgeCase 0x00400000#32 (some 0x0022001B#32) = true := by
  decide

/-- `mfhi r3`. -/
theorem test_mfhi :
    runs ({ small 0x00400000#32 0x00001810#32 [] [] with hi := 0xDEADBEEF#32, lo := 0x01020304#32 })
      0x00400004#32 [(3, 0xDEADBEEF#32)] [] = true := by
  decide

/-- `mflo r3`. -/
theorem test_mflo :
    runs ({ small 0x00400000#32 0x00001812#32 [] [] with hi := 0xDEADBEEF#32, lo := 0x01020304#32 })
      0x00400004#32 [(3, 0x01020304#32)] [] = true := by
  decide

/-- `mthi r1`. -/
theorem test_mthi :
    runsHiLo (small 0x00400000#32 0x00200011#32 [(1, 0xCAFEBABE#32)] [])
      0x00400004#32 0xCAFEBABE#32 0x22222222#32 = true := by
  decide

/-- `mtlo r1`. -/
theorem test_mtlo :
    runsHiLo (small 0x00400000#32 0x00200013#32 [(1, 0xCAFEBABE#32)] [])
      0x00400004#32 0x11111111#32 0xCAFEBABE#32 = true := by
  decide

/-! ### Jumps and branches (vectors 2.4) -/

/-- `j (same word)`. -/
theorem test_j_keeps_region : runs (small 0xB0000000#32 0x08100010#32 [] []) 0xB0400040#32 [] [] = true := by decide

/-- `j (same word as the first row)`. -/
theorem test_j_region_of_its_own_address :
    runs (small 0x0FFFFFFC#32 0x08100010#32 [] []) 0x00400040#32 [] [] = true := by
  decide

/-- `jal 0x00400040`. -/
theorem test_jal :
    runs (small 0x00400000#32 0x0C100010#32 [(31, 0x00001111#32)] [])
      0x00400040#32 [(31, 0x00400004#32)] [] = true := by
  decide

/-- `jal (address = 0)`. -/
theorem test_jal_link_wraps :
    runs (small 0xFFFFFFFC#32 0x0C000000#32 [(31, 0x00001111#32)] [])
      0xF0000000#32 [(31, 0x00000000#32)] [] = true := by
  decide

/-- `jr r1`. -/
theorem test_jr_misaligned_target :
    runs (small 0x00400000#32 0x00200008#32 [(1, 0x00400102#32)] []) 0x00400102#32 [] [] = true := by
  decide

/-- `jalr r5 (rd field 0)`. -/
theorem test_jalr_rd_0_links_31 :
    runs (small 0x00400000#32 0x00A00009#32 [(5, 0x00400200#32)] [])
      0x00400200#32 [(31, 0x00400004#32)] [] = true := by
  decide

/-- `jalr r5, r5`. -/
theorem test_jalr_reads_before_linking :
    runs (small 0x00400000#32 0x00A02809#32 [(5, 0x00400200#32)] [])
      0x00400200#32 [(5, 0x00400004#32)] [] = true := by
  decide

/-- `beq r1, r2, 4`. -/
theorem test_beq_taken :
    runs (small 0x00400000#32 0x10220004#32 [(1, 0x00000007#32), (2, 0x00000007#32)] [])
      0x00400014#32 [] [] = true := by
  decide

/-- `beq r0, r0, -2`. -/
theorem test_beq_backward : runs (small 0x00400000#32 0x1000FFFE#32 [] []) 0x003FFFFC#32 [] [] = true := by decide

/-- `bne r1, r2, 3`. -/
theorem test_bne_taken :
    runs (small 0x00400000#32 0x14220003#32 [(1, 0x00000007#32), (2, 0x00000008#32)] [])
      0x00400010#32 [] [] = true := by
  decide

/-- `bne r1, r2, 3`. -/
theorem test_bne_not_taken :
    runs (small 0x00400000#32 0x14220003#32 [(1, 0x00000007#32), (2, 0x00000007#32)] [])
      0x00400004#32 [] [] = true := by
  decide

/-- `blez r1, 2`. -/
theorem test_blez_negative :
    runs (small 0x00400000#32 0x18200002#32 [(1, 0xFFFFFFFF#32)] []) 0x0040000C#32 [] [] = true := by
  decide

/-- `blez r1, 2`. -/
theorem test_blez_positive :
    runs (small 0x00400000#32 0x18200002#32 [(1, 0x00000001#32)] []) 0x00400004#32 [] [] = true := by
  decide

/-- `bgtz r1, 2`. -/
theorem test_bgtz_positive :
    runs (small 0x00400000#32 0x1C200002#32 [(1, 0x00000001#32)] []) 0x0040000C#32 [] [] = true := by
  decide

/-- `bgtz r1, 2`. -/
theorem test_bgtz_negative :
    runs (small 0x00400000#32 0x1C200002#32 [(1, 0x80000000#32)] []) 0x00400004#32 [] [] = true := by
  decide

/-- `bltz r1, 2`. -/
theorem test_bltz_taken :
    runs (small 0x00400000#32 0x04200002#32 [(1, 0xFFFFFFFF#32)] []) 0x0040000C#32 [] [] = true := by
  decide

/-- `bltz r1, 2`. -/
theorem test_bltz_zero :
    runs (small 0x00400000#32 0x04200002#32 [(1, 0x00000000#32)] []) 0x00400004#32 [] [] = true := by
  decide

/-- `bgez r1, 2`. -/
theorem test_bgez_zero :
    runs (small 0x00400000#32 0x04210002#32 [(1, 0x00000000#32)] []) 0x0040000C#32 [] [] = true := by
  decide

/-- `bgez r1, 2`. -/
theorem test_bgez_negative :
    runs (small 0x00400000#32 0x04210002#32 [(1, 0xFFFFFFFF#32)] []) 0x00400004#32 [] [] = true := by
  decide

/-- `bltzal r1, 2`. -/
theorem test_bltzal_not_taken_keeps_link :
    runs (small 0x00400000#32 0x04300002#32 [(1, 0x00000000#32), (31, 0x00001111#32)] [])
      0x00400004#32 [] [] = true := by
  decide

/-- `bltzal r31, 2`. -/
theorem test_bltzal_tests_old_link :
    runs (small 0x00400000#32 0x07F00002#32 [(31, 0x80000000#32)] [])
      0x0040000C#32 [(31, 0x00400004#32)] [] = true := by
  decide

/-- `bgezal r1, 2`. -/
theorem test_bgezal_taken :
    runs (small 0x00400000#32 0x04310002#32 [(1, 0x00000000#32), (31, 0x00001111#32)] [])
      0x0040000C#32 [(31, 0x00400004#32)] [] = true := by
  decide

/-- `bgezal r1, 2`. -/
theorem test_bgezal_not_taken_keeps_link :
    runs (small 0x00400000#32 0x04310002#32 [(1, 0xFFFFFFFF#32), (31, 0x00001111#32)] [])
      0x00400004#32 [] [] = true := by
  decide

/-- `(opcode 1, rt = 2)`. -/
theorem test_unimplemented_regimm_halts :
    haltsAt (small 0x00400000#32 0x04220005#32 [(1, 0xFFFFFFFF#32)] [])
      .unimplementedOpcode 0x00400000#32 (some 0x04220005#32) = true := by
  decide

/-! ### Loads and stores (vectors 2.5) -/

/-- `lb r2, 0(r1)`. -/
theorem test_lb_sign_extends :
    runs (small 0x00400000#32 0x80220000#32 [(1, 0x00001000#32)] bytesM)
      0x00400004#32 [(2, 0xFFFFFF80#32)] [] = true := by
  decide

/-- `lbu r2, 0(r1)`. -/
theorem test_lbu_zero_extends :
    runs (small 0x00400000#32 0x90220000#32 [(1, 0x00001000#32)] bytesM)
      0x00400004#32 [(2, 0x00000080#32)] [] = true := by
  decide

/-- `lh r2, 1(r1)`. -/
theorem test_lh_odd_address :
    runs (small 0x00400000#32 0x84220001#32 [(1, 0x00001000#32)] bytesM)
      0x00400004#32 [(2, 0x00007FFF#32)] [] = true := by
  decide

/-- `lhu r2, 3(r1)`. -/
theorem test_lhu_across_words :
    runs (small 0x00400000#32 0x94220003#32 [(1, 0x00001000#32)] bytesM)
      0x00400004#32 [(2, 0x000001AA#32)] [] = true := by
  decide

/-- `lw r2, 2(r1)`. -/
theorem test_lw_unaligned :
    runs (small 0x00400000#32 0x8C220002#32 [(1, 0x00001000#32)] bytesM)
      0x00400004#32 [(2, 0xFF01AABB#32)] [] = true := by
  decide

/-- `lw r2, -4(r1)`. -/
theorem test_lw_wraps :
    runs (small 0x00400000#32 0x8C22FFFC#32 [(1, 0x00000002#32)] [(0xFFFFFFFE#32, 0x11#8), (0xFFFFFFFF#32, 0x22#8), (0x0000#32, 0x33#8), (0x0001#32, 0x44#8)])
      0x00400004#32 [(2, 0x11223344#32)] [] = true := by
  decide

/-- `sb r2, 0(r1)`. -/
theorem test_sb :
    runs (small 0x00400000#32 0xA0220000#32 [(1, 0x00001001#32), (2, 0x123456EE#32)] bytesM)
      0x00400004#32 [] [(0x1001#32, 0xEE#8)] = true := by
  decide

/-- `sh r2, 1(r1)`. -/
theorem test_sh_odd_address :
    runs (small 0x00400000#32 0xA4220001#32 [(1, 0x00001002#32), (2, 0x1234BEEF#32)] bytesM)
      0x00400004#32 [] [(0x1003#32, 0xBE#8), (0x1004#32, 0xEF#8)] = true := by
  decide

/-- `sw r0, 4(r1)`. -/
theorem test_sw_zeros :
    runs (small 0x00400000#32 0xAC200004#32 [(1, 0x00001000#32)] bytesM)
      0x00400004#32 [] [(0x1004#32, 0x00#8), (0x1005#32, 0x00#8), (0x1006#32, 0x00#8), (0x1007#32, 0x00#8)] = true := by
  decide

/-- `sw r2, -2(r0)`. -/
theorem test_sw_wraps :
    runs (small 0x00400000#32 0xAC02FFFE#32 [(2, 0x11223344#32)] bytesM)
      0x00400004#32 [] [(0x0000#32, 0x33#8), (0x0001#32, 0x44#8), (0xFFFFFFFE#32, 0x11#8), (0xFFFFFFFF#32, 0x22#8)] = true := by
  decide

/-! ### Partial-word loads and stores (vectors 2.6) -/

/-- `lwl r9, 1(r8)`. -/
theorem test_lwl_offset_1 :
    runs (small 0x00400000#32 0x89090001#32 [(8, 0x00001000#32), (9, 0x12345678#32)] bytesU)
      0x00400004#32 [(9, 0xAABB5678#32)] [] = true := by
  decide

/-- `lwl r9, 2(r8)`. -/
theorem test_lwl_offset_2 :
    runs (small 0x00400000#32 0x89090002#32 [(8, 0x00001000#32), (9, 0x12345678#32)] bytesU)
      0x00400004#32 [(9, 0xAABBCC78#32)] [] = true := by
  decide

/-- `lwr r9, 1(r8)`. -/
theorem test_lwr_offset_1 :
    runs (small 0x00400000#32 0x99090001#32 [(8, 0x00001000#32), (9, 0x12345678#32)] bytesU)
      0x00400004#32 [(9, 0x12BBCCDD#32)] [] = true := by
  decide

/-- `lwr r9, 2(r8)`. -/
theorem test_lwr_offset_2 :
    runs (small 0x00400000#32 0x99090002#32 [(8, 0x00001000#32), (9, 0x12345678#32)] bytesU)
      0x00400004#32 [(9, 0x1234CCDD#32)] [] = true := by
  decide

/-- `swl r9, 1(r8)`. -/
theorem test_swl_offset_1 :
    runs (small 0x00400000#32 0xA9090001#32 [(8, 0x00001000#32), (9, 0x11223344#32)] bytesU)
      0x00400004#32 [] [(0x1000#32, 0x11#8), (0x1001#32, 0x22#8), (0x1002#32, 0xCC#8), (0x1003#32, 0xDD#8)] = true := by
  decide

/-- `swl r9, 2(r8)`. -/
theorem test_swl_offset_2 :
    runs (small 0x00400000#32 0xA9090002#32 [(8, 0x00001000#32), (9, 0x11223344#32)] bytesU)
      0x00400004#32 [] [(0x1000#32, 0x11#8), (0x1001#32, 0x22#8), (0x1002#32, 0x33#8), (0x1003#32, 0xDD#8)] = true := by
  decide

/-- `swr r9, 1(r8)`. -/
theorem test_swr_offset_1 :
    runs (small 0x00400000#32 0xB9090001#32 [(8, 0x00001000#32), (9, 0x11223344#32)] bytesU)
      0x00400004#32 [] [(0x1000#32, 0xAA#8), (0x1001#32, 0x22#8), (0x1002#32, 0x33#8), (0x1003#32, 0x44#8)] = true := by
  decide

/-- `swr r9, 2(r8)`. -/
theorem test_swr_offset_2 :
    runs (small 0x00400000#32 0xB9090002#32 [(8, 0x00001000#32), (9, 0x11223344#32)] bytesU)
      0x00400004#32 [] [(0x1000#32, 0xAA#8), (0x1001#32, 0xBB#8), (0x1002#32, 0x33#8), (0x1003#32, 0x44#8)] = true := by
  decide

/-! ### System instructions, unimplemented words (vectors 2.7) -/

/-- `syscall`. -/
theorem test_syscall_exit :
    haltsAt ({ small 0x00400000#32 0x0000000C#32 [(2, 0x0000000A#32)] [] with bridge := [⟨none, none, none, .exit⟩] })
      .exit 0x00400000#32 (some 0x0000000C#32) = true := by
  decide

/-- `break (bits 25:6 = 7)`. -/
theorem test_break_ignores_code :
    haltsAt (small 0x00400000#32 0x000001CD#32 [] []) .breakpoint 0x00400000#32 (some 0x000001CD#32) = true := by
  decide

/-- `(opcode 0, funct 0x0F)`. -/
theorem test_unimplemented_funct_halts :
    haltsAt (small 0x00400000#32 0x0000000F#32 [] [])
      .unimplementedOpcode 0x00400000#32 (some 0x0000000F#32) = true := by
  decide

/-! ### Control unit, fetch, budget (vectors 2.8), reset, strict mode -/

/-- Budget 0 halts before the fetch, with no word. -/
theorem test_budget_0 : haltsAt { small 0x00400000#32 0x24080001#32 [] [] with budget := 0 }
    .instructionBudgetExceeded 0x00400000#32 none = true := by decide

/-- A fetch from unwritten memory is a no-op. -/
theorem test_fetch_unwritten : runs { small 0x00400000#32 0#32 [] [] with pc := 0x00500000#32 }
    0x00500004#32 [] [] = true := by decide

/-- A misaligned fetch reads the four bytes there. -/
theorem test_fetch_misaligned :
    runs { small 0x00400000#32 0x24080001#32 [] [(0x00400004#32, 0x24#8), (0x00400005#32, 0x09#8), (0x00400007#32, 0x02#8)]
      with pc := 0x00400002#32 } 0x00000000#32 [(4, 0x00400006#32)] [] = true := by decide

/-- `pc` wraps. -/
theorem test_pc_wraps : runs (small 0xFFFFFFFC#32 0#32 [] []) 0x00000000#32 [] [] = true := by decide

/-- R270: the reset values of the common start state of 95_test_vectors.md §3. -/
theorem test_reset : State.reset.readReg 28 = 0x10008000#32 ∧ State.reset.readReg 29 = 0x7FFFEFFC#32 ∧
    State.reset.readReg 31 = 0x00400000#32 ∧ State.reset.readReg 1 = 0#32 ∧ State.reset.pc = 0x00400000#32 ∧
    State.reset.run = .running := by decide

/-- R243: in strict mode, with the four instruction bytes present, a load of a byte that is not present halts
with `MemoryFault`. -/
theorem test_strict_load_faults :
    haltsAt { small 0x1000#32 0x8C220000#32 [(1, 0x1001#32)] [] with
      present := some [0x1000, 0x1001, 0x1002, 0x1003] } .memoryFault 0x1000#32 (some 0x8C220000#32) = true := by decide

/-- R243: in strict mode a fetch of a byte that is not present halts with `MemoryFault` and no word. -/
theorem test_strict_fetch_faults :
    haltsAt { small 0x1000#32 0x8C220000#32 [] [] with present := some [0x1000, 0x1001, 0x1002] }
      .memoryFault 0x1000#32 none = true := by decide

/-- R243: in strict mode a store makes its bytes present. -/
theorem test_strict_store_adds :
    steps { small 0x1000#32 0xA0220000#32 [(1, 0x2000#32)] [] with present := some [0x1000, 0x1001, 0x1002, 0x1003] }
      { small 0x1000#32 0xA0220000#32 [(1, 0x2000#32)] [] with
        present := some [0x1000, 0x1001, 0x1002, 0x1003, 0x2000], pc := 0x1004#32, budget := 4 } = true := by decide

/-- R215: what the bridge writes to memory is there after the `syscall`, the last write to a byte winning. -/
theorem test_syscall_writes_memory :
    runs { small 0x00400000#32 0x0000000C#32 [(2, 3#32)] [] with
      bridge := [⟨some 4#32, none, none, .exit⟩, ⟨some 3#32, none, none, .ret 2#32 [(0x1000#32, 0x41#8), (0x1000#32, 0x42#8)]⟩] }
      0x00400004#32 [(2, 2#32)] [(0x1000#32, 0x42#8)] = true := by decide

/-- The host's two questions, on the word of `addi r2, r1, 1`, right after reset. -/
theorem test_placed_word : decodeTableWord 32 0x20220001 = some (.addi 2 1 1#16) ∧
    runs (State.reset.withFetchWord 32 0x20220001) 0x00400004#32 [(2, 1#32)] [] = true := by decide

/-- A boot from an image of one segment: two bytes from the file, then a zero (R271). -/
theorem test_boot : (boot (.image ⟨0x1000#32, 0x3000#32, 0x2000#32, [⟨1, 2, 0x1000#32, 3, 0#32⟩], [9#8, 7#8, 8#8]⟩)
    10 true []).map (fun s => (s.mem, s.present, s.pc, s.readReg 29)) =
      some ([(0x1000, 7#8), (0x1001, 8#8)], some [0x1000, 0x1001, 0x1002], 0x1000#32, 0x2000#32) := by decide

/-! ### Witnesses: states and operands that meet the hypotheses of the statements -/

/-- The small state of the witnesses in tolerant mode: `lw r2, 0(r1)` at 0x1000 with r1 = 0x2003. -/
def wTolerant : State := small 0x1000#32 0x8C220000#32 [(1, 0x2003#32)] [(0x2003#32, 0x80#8)]

/-- The same state in strict mode, with every byte of the word that holds 0x2003 present and the one after it
not: a read of one byte at 0x2003 is met, a read of two is not. -/
def wStrict : State :=
  { wTolerant with present := some [0x1000, 0x1001, 0x1002, 0x1003, 0x2000, 0x2001, 0x2002, 0x2003] }

/-- A state with this word at 0x1000. -/
def wAt (word : Word) : State := small 0x1000#32 word [(1, 0x80000000#32), (2, 7#32)] []

theorem readable_of_check {s : State} {a : Word} {n : Nat} (h : s.canRead a n = true) : Readable s a n :=
  (s.canRead_iff a n).1 h

theorem not_readable_of_check {s : State} {a : Word} {n : Nat} (h : s.canRead a n = false) : ¬ Readable s a n :=
  fun e => by have := (s.canRead_iff a n).2 e; rw [h] at this; cases this

/-- `add r3, r1, r2` with its unused field 31 (vector 2.7). -/
theorem witness_DecodeIgnoresUnusedBits :
    decodeWord 0x00221FE0#32 = some (.add 3 1 2) ∧ 0x00221FE0#32 &&& usedBits (.add 3 1 2) = encode (.add 3 1 2) ∧
    0x00221FE0#32 ≠ encode (.add 3 1 2) := by decide

theorem witness_DecodeFollowsOpcodeTable :
    (⟨"break", 0xFC00003F#32, 0x0000000D#32⟩ : Row) ∈ opcodeTable ∧
    (⟨"break", 0xFC00003F#32, 0x0000000D#32⟩ : Row).matches 0x000001CD#32 = true ∧
    decodeWord 0x000001CD#32 = some .brk ∧ (wAt 0xFFFFFFFF#32).run = .running ∧ (wAt 0xFFFFFFFF#32).budget ≠ 0 ∧
    Readable (wAt 0xFFFFFFFF#32) (wAt 0xFFFFFFFF#32).pc 4 ∧
    decodeWord (wordAt (wAt 0xFFFFFFFF#32).mem (wAt 0xFFFFFFFF#32).pc) = none :=
  ⟨by decide, by decide, by decide, by decide, by decide, readable_of_check (by decide), by decide⟩

theorem witness_ClassifyByOpcode :
    fieldNat 0x0000000F#32 26 6 = 0 ∧ fieldNat 0x08000000#32 26 6 = 2 ∧ fieldNat 0x0C000000#32 26 6 = 3 ∧
    fieldNat 0x04220005#32 26 6 = 1 ∧ fieldNat 0xFFFFFFFF#32 26 6 = 63 := by decide

theorem witness_MemoryByteLaws :
    Memory.wf [(0, 1#8), (2 ^ 32 - 1, 0xFF#8)] ∧ Memory.wf (Memory.writeByte [(0, 1#8)] 0xFFFFFFFF#32 0xFF#8) := by decide

/-- At both ends of the range of `n`, with the largest value. -/
theorem witness_MemoryMultiByteLaws :
    (0 ≤ 4 ∧ 0 < 2 ^ (8 * 0)) ∧ (4 ≤ 4 ∧ 0xFFFFFFFF < 2 ^ (8 * 4)) ∧ (0xFFFFFFFE#32 - 0xFFFFFFFE#32 : Word).toNat < 4 ∧
    (1#32 - 0xFFFFFFFE#32 : Word).toNat < 4 ∧ ¬ (2#32 - 0xFFFFFFFE#32 : Word).toNat < 4 := by decide

/-- `sw r9, 16(r8)` of program 6. -/
theorem witness_StoreIntoNextFetch :
    let s := small 0x0040000C#32 0xAD090010#32 [(8, 0x00400000#32), (9, 0x240A004D#32)] []
    s.effAddr 8 16#16 = s.pc + 4#32 ∧ (match exec (.sw 9 16#16 8) s with
      | .next t => decide (t.run = .running) && decide (t.budget ≠ 0)
      | _ => false) = true := by decide

/-- An image of two segments, the second over the end of the first. -/
def wImage : ExecutableImage :=
  ⟨0x1000#32, 0x3000#32, 0x2000#32, [⟨0, 2, 0x1000#32, 3, 0#32⟩] ++ [⟨1, 1, 0x1002#32, 2, 0#32⟩], [9#8, 7#8, 8#8]⟩

theorem witness_BootFromImage : (∀ g ∈ wImage.segments, g.fileLength ≤ g.memorySize) ∧
    imageMemory wImage = [(0x1000, 9#8), (0x1001, 7#8), (0x1002, 7#8)] ∧
    (boot (.image wImage) 10 true []).map (fun s => s.present) = some (some [0x1000, 0x1001, 0x1002, 0x1003]) ∧
    (boot (.image wImage) 10 false []).map (fun s => s.present) = some none ∧
    ((0#32 - 0xFFFFFFFF#32 : Word).toNat < 2 ∧ ¬ (1#32 - 0xFFFFFFFF#32 : Word).toNat < 2) := by decide

/-- Two segments; then one whose file bytes are more than its size, wrap past the top of memory, and end past the
file's end. -/
theorem witness_ImageMemoryBySegments : ({ wImage with segments := [] } : ExecutableImage).segments = [] ∧
    wImage.segments = [⟨0, 2, 0x1000#32, 3, 0#32⟩] ++ [⟨1, 1, 0x1002#32, 2, 0#32⟩] ∧ 1 ≤ 2 ^ 32 ∧ 2 ≤ 2 ^ 32 ∧
    (0x1002#32 - 0x1002#32 : Word).toNat < 1 ∧ ¬ (0x1003#32 - 0x1002#32 : Word).toNat < 1 ∧
    (0x1003#32 - 0x1002#32 : Word).toNat < 2 ∧ ¬ (0x1001#32 - 0x1002#32 : Word).toNat < 2 ∧
    imageMemory { wImage with segments := [] ++ [⟨1, 3, 0xFFFFFFFF#32, 1, 0#32⟩] } = [(0, 8#8), (0xFFFFFFFF, 7#8)] ∧
    (1#32 - 0xFFFFFFFF#32 : Word).toNat < 3 ∧ ¬ (2#32 - 0xFFFFFFFF#32 : Word).toNat < 3 := by decide

theorem witness_InvHoldsAtReset :
    InputsWf Config.resetInputs ∧ InputsWf { Config.resetInputs with initMem := [(5, 1#8)], present := some [5, 6] } := by
  refine ⟨⟨by decide, fun q h => by cases h⟩, ⟨by decide, fun q h => by cases h; decide⟩⟩

theorem inv_wTolerant : Invariant wTolerant := ⟨by decide, by decide, fun p h => (by cases h), fun r h => (by cases h)⟩

theorem inv_wStrict : Invariant wStrict := ⟨by decide, by decide, fun p h => (by cases h; decide), fun r h => (by cases h)⟩

/-- In tolerant mode, in strict mode, and in a halted state. -/
theorem witness_InvKeptByStep : Invariant wTolerant ∧ (∃ t, step wTolerant = .next t) ∧ Invariant wStrict ∧
    (∃ t, step wStrict = .next t) ∧ Invariant { wTolerant with run := .halted ⟨.breakpoint, 0x1000#32, some 0x8C220000#32⟩ } := by
  refine ⟨inv_wTolerant, ⟨_, rfl⟩, inv_wStrict, ⟨_, rfl⟩, by decide, by decide, fun p h => (by cases h), fun r h => ?_⟩
  cases h
  decide

/-- A word for each clause about words. -/
theorem witness_AdditionWraps :
    (fieldNat 0x00221820#32 26 6 = 0 ∧ fieldNat 0x00221820#32 0 6 = 0x20) ∧
    (fieldNat 0x00221FE1#32 26 6 = 0 ∧ fieldNat 0x00221FE1#32 0 6 = 0x21) ∧
    fieldNat 0x2022FFFF#32 26 6 = 0x08 ∧ fieldNat 0x24228000#32 26 6 = 0x09 := by decide

theorem witness_SubtractionWraps :
    (fieldNat 0x00221822#32 26 6 = 0 ∧ fieldNat 0x00221822#32 0 6 = 0x22) ∧
    (fieldNat 0x00221FE3#32 26 6 = 0 ∧ fieldNat 0x00221FE3#32 0 6 = 0x23) := by decide

theorem witness_LogicalBitwise :
    (fieldNat 0x00221824#32 26 6 = 0 ∧ fieldNat 0x00221824#32 0 6 = 0x24) ∧
    (fieldNat 0x00221825#32 26 6 = 0 ∧ fieldNat 0x00221825#32 0 6 = 0x25) ∧
    (fieldNat 0x00221826#32 26 6 = 0 ∧ fieldNat 0x00221826#32 0 6 = 0x26) ∧
    (fieldNat 0x00221827#32 26 6 = 0 ∧ fieldNat 0x00221827#32 0 6 = 0x27) := by decide

theorem witness_LogicalImmediateSignExtends :
    fieldNat 0x30228000#32 26 6 = 0x0C ∧ fieldNat 0x34028000#32 26 6 = 0x0D ∧ fieldNat 0x3822FFFF#32 26 6 = 0x0E := by
  decide

theorem witness_SetOnLessThan :
    (fieldNat 0x0022182A#32 26 6 = 0 ∧ fieldNat 0x0022182A#32 0 6 = 0x2A) ∧
    (fieldNat 0x0022182B#32 26 6 = 0 ∧ fieldNat 0x0022182B#32 0 6 = 0x2B) ∧
    fieldNat 0x2822FFFF#32 26 6 = 0x0A ∧ fieldNat 0x2C228000#32 26 6 = 0x0B := by decide

/-- The operands of conflict C1, and two of one sign. -/
theorem witness_SltSltuDifferBySign : (3 : RegIdx) ≠ 0 ∧ negative 0#32 ≠ negative 0xFFFFFFFF#32 ∧
    negative 0xFFFFFFFE#32 = negative 0xFFFFFFFF#32 := by decide

theorem witness_LoadUpperImmediate : fieldNat 0x3CA2FFFF#32 26 6 = 0x0F := by decide

theorem witness_LeftShifts :
    (fieldNat 0x000117C0#32 26 6 = 0 ∧ fieldNat 0x000117C0#32 0 6 = 0x00) ∧
    (fieldNat 0x00411804#32 26 6 = 0 ∧ fieldNat 0x00411804#32 0 6 = 0x04) := by decide

theorem witness_LogicalRightShifts :
    (fieldNat 0x000117C2#32 26 6 = 0 ∧ fieldNat 0x000117C2#32 0 6 = 0x02) ∧
    (fieldNat 0x00411806#32 26 6 = 0 ∧ fieldNat 0x00411806#32 0 6 = 0x06) := by decide

theorem witness_ArithmeticRightShifts :
    (fieldNat 0x000117C3#32 26 6 = 0 ∧ fieldNat 0x000117C3#32 0 6 = 0x03) ∧
    (fieldNat 0x00411807#32 26 6 = 0 ∧ fieldNat 0x00411807#32 0 6 = 0x07) := by decide

theorem witness_MultiplyExact :
    (fieldNat 0x00220018#32 26 6 = 0 ∧ fieldNat 0x00220018#32 0 6 = 0x18) ∧
    (fieldNat 0x00220019#32 26 6 = 0 ∧ fieldNat 0x00220019#32 0 6 = 0x19) := by decide

/-- A divisor that is not 0, the overflow's own, and a divisor that is 0. -/
theorem witness_DivideSigned :
    (fieldNat 0x0022001A#32 26 6 = 0 ∧ fieldNat 0x0022001A#32 0 6 = 0x1A) ∧
    (small 0#32 0#32 [(1, 0x80000000#32), (2, 0xFFFFFFFF#32)] []).readReg 2 ≠ 0#32 ∧
    (small 0#32 0#32 [(1, 5#32)] []).readReg 2 = 0#32 ∧ (small 0#32 0#32 [(1, 5#32)] []).readReg 0 = 0#32 := by decide

theorem witness_DivideUnsigned :
    (fieldNat 0x0022001B#32 26 6 = 0 ∧ fieldNat 0x0022001B#32 0 6 = 0x1B) ∧
    (small 0#32 0#32 [(1, 0x80000000#32), (2, 0xFFFFFFFF#32)] []).readReg 2 ≠ 0#32 ∧
    (small 0#32 0#32 [(1, 5#32)] []).readReg 2 = 0#32 := by decide

theorem witness_HiLoMoves :
    (fieldNat 0x00001810#32 26 6 = 0 ∧ fieldNat 0x00001810#32 0 6 = 0x10) ∧
    (fieldNat 0x00001812#32 26 6 = 0 ∧ fieldNat 0x00001812#32 0 6 = 0x12) ∧
    (fieldNat 0x00200011#32 26 6 = 0 ∧ fieldNat 0x00200011#32 0 6 = 0x11) ∧
    (fieldNat 0x00200013#32 26 6 = 0 ∧ fieldNat 0x00200013#32 0 6 = 0x13) := by decide

theorem witness_JumpInRegion : fieldNat 0x0BFFFFFF#32 26 6 = 2 ∧ fieldNat 0x0C000000#32 26 6 = 3 := by decide

theorem witness_JumpByRegister :
    (fieldNat 0x03E00008#32 26 6 = 0 ∧ fieldNat 0x03E00008#32 0 6 = 0x08) ∧
    (fieldNat 0x00A00009#32 26 6 = 0 ∧ fieldNat 0x00A00009#32 0 6 = 0x09) ∧ (5 : RegIdx) ≠ 0 := by decide

theorem witness_BranchOnEquality : fieldNat 0x10220004#32 26 6 = 4 ∧ fieldNat 0x14220003#32 26 6 = 5 ∧
    (small 0#32 0#32 [(1, 7#32), (2, 7#32)] []).readReg 1 = (small 0#32 0#32 [(1, 7#32), (2, 7#32)] []).readReg 2 := by
  decide

theorem witness_BranchOnSign : fieldNat 0x18200002#32 26 6 = 6 ∧ fieldNat 0x1C200002#32 26 6 = 7 ∧
    (fieldNat 0x04200002#32 26 6 = 1 ∧ fieldNat 0x04200002#32 16 5 = 0) ∧
    (fieldNat 0x04210002#32 26 6 = 1 ∧ fieldNat 0x04210002#32 16 5 = 1) := by decide

/-- Register 1 is negative, register 2 is positive, register 0 is zero. -/
theorem witness_BranchAndLinkIfTaken :
    (fieldNat 0x04300002#32 26 6 = 1 ∧ fieldNat 0x04300002#32 16 5 = 16) ∧
    (fieldNat 0x04310002#32 26 6 = 1 ∧ fieldNat 0x04310002#32 16 5 = 17) ∧
    negative ((wAt 0#32).readReg 1) = true ∧ negative ((wAt 0#32).readReg 2) = false ∧
    negative ((wAt 0#32).readReg 0) = false := by decide

theorem witness_AlignmentKeptButByRegisterJumps : (∃ t, step (wAt 0x10220004#32) = .next t) ∧
    (wAt 0x10220004#32).pc.toNat % 4 = 0 ∧ decodeWord (wAt 0x10220004#32).fetchWord = some (.beq 1 2 4#16) ∧
    jumpsByRegister (.beq 1 2 4#16) = false := ⟨⟨_, rfl⟩, by decide⟩

/-- One byte at 0x2003 can be read in both modes; in strict mode the byte after it cannot. -/
theorem witness_LoadByte : fieldNat 0x80220000#32 26 6 = 0x20 ∧ fieldNat 0x90220000#32 26 6 = 0x24 ∧
    Readable wTolerant (wTolerant.effAddr 1 0#16) 1 ∧ Readable wStrict (wStrict.effAddr 1 0#16) 1 ∧
    ¬ Readable wStrict (wStrict.effAddr 1 1#16) 1 :=
  ⟨by decide, by decide, readable_of_check (by decide), readable_of_check (by decide), not_readable_of_check (by decide)⟩

/-- The last two and four bytes that are present can be read, and one byte on they cannot. -/
theorem witness_LoadHalfwordAndWord : fieldNat 0x84220000#32 26 6 = 0x21 ∧ fieldNat 0x94220000#32 26 6 = 0x25 ∧
    fieldNat 0x8C220000#32 26 6 = 0x23 ∧
    Readable wStrict (wStrict.effAddr 1 0xFFFF#16) 2 ∧ ¬ Readable wStrict (wStrict.effAddr 1 0#16) 2 ∧
    Readable wStrict (wStrict.effAddr 1 0xFFFD#16) 4 ∧ ¬ Readable wStrict (wStrict.effAddr 1 0xFFFE#16) 4 :=
  ⟨by decide, by decide, by decide, readable_of_check (by decide), not_readable_of_check (by decide),
    readable_of_check (by decide), not_readable_of_check (by decide)⟩

theorem witness_StoreBytes : fieldNat 0xA0220000#32 26 6 = 0x28 ∧ fieldNat 0xA4220000#32 26 6 = 0x29 ∧
    fieldNat 0xAC220000#32 26 6 = 0x2B := by decide

/-- At offset 3, and one word on, where nothing is present. -/
theorem witness_LoadPartialWord : fieldNat 0x89090002#32 26 6 = 0x22 ∧ fieldNat 0x99090002#32 26 6 = 0x26 ∧
    wordOffset (wStrict.effAddr 1 0#16) = 3 ∧ Readable wStrict (wordBase (wStrict.effAddr 1 0#16)) 4 ∧
    Readable wStrict (wStrict.effAddr 1 0#16) 1 ∧ wordOffset (wStrict.effAddr 1 1#16) = 0 ∧
    ¬ Readable wStrict (wordBase (wStrict.effAddr 1 1#16)) 1 ∧ ¬ Readable wStrict (wStrict.effAddr 1 1#16) 4 :=
  ⟨by decide, by decide, by decide, readable_of_check (by decide), readable_of_check (by decide), by decide,
    not_readable_of_check (by decide), not_readable_of_check (by decide)⟩

theorem witness_StorePartialWord : fieldNat 0xA9090002#32 26 6 = 0x2A ∧ fieldNat 0xB9090002#32 26 6 = 0x2E := by decide

/-- Into the base register itself, by `lwl r1, 0(r1)` and then `lwr r1, 0(r2)` with the address in register 2; and
into another register, by the same base. -/
theorem witness_PartialLoadPair :
    let s := small 0x1000#32 0#32 [(1, 0x2003#32), (2, 0x2003#32)] []
    (1 : RegIdx) ≠ 0 ∧ Readable s (wordBase (s.effAddr 1 0#16)) 4 ∧
    (∀ i ∈ [Instr.lwl 1 0#16 1, Instr.lwr 1 0#16 1], (match exec i s with
      | .next t => decide (t.effAddr 2 0#16 = s.effAddr 1 0#16)
      | _ => false) = true) ∧
    (∀ i ∈ [Instr.lwl 9 0#16 1, Instr.lwr 9 0#16 1], (match exec i s with
      | .next t => decide (t.effAddr 1 0#16 = s.effAddr 1 0#16)
      | _ => false) = true) :=
  ⟨by decide, readable_of_check (by decide), by decide, by decide⟩

/-- An address outside the word stored to. -/
theorem witness_PartialStorePair : ¬ (0x1004#32 - 0x1000#32 : Word).toNat < 4 ∧ ¬ (0xFFF#32 - 0x1000#32 : Word).toNat < 4 := by
  decide

/-- A bridge that returns, with a write to an address that is not present and one that is; and one that exits. -/
theorem witness_SyscallFollowsBridge :
    (fieldNat 0x0048D14C#32 26 6 = 0 ∧ fieldNat 0x0048D14C#32 0 6 = 0x0C) ∧
    askBridge [⟨some 7#32, none, none, .ret 1#32 [(0#32, 5#8)]⟩] (wAt 0xC#32).bridgeQuery = .ret 1#32 [(0#32, 5#8)] ∧
    askBridge [⟨none, none, none, .exit⟩] (wAt 0xC#32).bridgeQuery = .exit ∧
    wStrict.present = some [0x1000, 0x1001, 0x1002, 0x1003, 0x2000, 0x2001, 0x2002, 0x2003] ∧
    askBridge [⟨none, none, none, .ret 1#32 [(0x2003#32, 5#8), (0x2004#32, 0#8)]⟩] wStrict.bridgeQuery =
      .ret 1#32 [(0x2003#32, 5#8), (0x2004#32, 0#8)] := by
  refine ⟨by decide, ?_, ?_, ?_, ?_⟩ <;> rfl

theorem witness_BreakHalts : fieldNat 0x000001CD#32 26 6 = 0 ∧ fieldNat 0x000001CD#32 0 6 = 0x0D := by decide

/-- In strict mode too. -/
theorem witness_StepRunsDecodedInstruction : wStrict.run = .running ∧ wStrict.budget ≠ 0 ∧
    Readable wStrict wStrict.pc 4 ∧
    decodeBytes [wStrict.mem.readByte wStrict.pc, wStrict.mem.readByte (wStrict.pc + 1#32),
      wStrict.mem.readByte (wStrict.pc + 2#32), wStrict.mem.readByte (wStrict.pc + 3#32)] = .ok (.lw 2 0#16 1, []) :=
  ⟨by decide, by decide, readable_of_check (by decide), rfl⟩

theorem witness_UnimplementedWordHalts : (wAt 0xFFFFFFFF#32).run = .running ∧ (wAt 0xFFFFFFFF#32).budget ≠ 0 ∧
    Readable (wAt 0xFFFFFFFF#32) (wAt 0xFFFFFFFF#32).pc 4 ∧
    ∀ r ∈ opcodeTable, r.matches (wordAt (wAt 0xFFFFFFFF#32).mem (wAt 0xFFFFFFFF#32).pc) = false :=
  ⟨by decide, by decide, readable_of_check (by decide), by decide⟩

/-- Halted; budget 0; and in strict mode an instruction whose last byte is not present. -/
theorem witness_StepWithoutFetch :
    ({ wTolerant with run := .halted ⟨.exit, 0#32, none⟩ } : State).run = .halted ⟨.exit, 0#32, none⟩ ∧
    (wTolerant.run = .running ∧ ({ wTolerant with budget := 0 } : State).budget = 0) ∧
    ({ wStrict with pc := 0x2001#32 } : State).run = .running ∧ ({ wStrict with pc := 0x2001#32 } : State).budget ≠ 0 ∧
    ¬ Readable { wStrict with pc := 0x2001#32 } 0x2001#32 4 :=
  ⟨by decide, by decide, by decide, by decide, not_readable_of_check (by decide)⟩

theorem witness_ZeroWordIsNop : (wAt 0#32).run = .running ∧ (wAt 0#32).budget ≠ 0 ∧
    Readable (wAt 0#32) (wAt 0#32).pc 4 ∧ wordAt (wAt 0#32).mem (wAt 0#32).pc = 0#32 :=
  ⟨by decide, by decide, readable_of_check (by decide), by decide⟩

/-- A step that halts on a `break`, and one in strict mode that halts on the fetch. -/
theorem witness_HaltIsPrecise :
    ((wAt 0xD#32).run = .running ∧ ∃ t, step (wAt 0xD#32) = .next t ∧ t.run = .halted ⟨.breakpoint, 0x1000#32, some 0xD#32⟩) ∧
    (wStrict.run = .running ∧ ∃ t, step { wStrict with pc := 0x2001#32 } = .next t ∧
      t.run = .halted ⟨.memoryFault, 0x2001#32, none⟩) :=
  ⟨⟨rfl, _, rfl, rfl⟩, ⟨rfl, _, rfl, rfl⟩⟩

/-- An instruction that raises its cause, and one that raises none. -/
theorem witness_OnlyOwnCauseHalts :
    ((wAt 0#32).run = .running ∧ Raises (wAt 0#32) .arithmeticEdgeCase (.div 1 0) ∧
      ∃ t, exec (.div 1 0) (wAt 0#32) = .next t) ∧
    (wTolerant.run = .running ∧ (∀ c, ¬ Raises wTolerant c (.add 3 1 2)) ∧ ∃ t, exec (.add 3 1 2) wTolerant = .next t) := by
  refine ⟨⟨rfl, ⟨rfl, rfl⟩, _, rfl⟩, rfl, ?_, _, rfl⟩
  rintro c ⟨-, a, n, h, -⟩
  cases h

/-- A step that completes and one that halts. -/
theorem witness_BudgetCountsCompleted :
    (wTolerant.run = .running ∧ ∃ t, step wTolerant = .next t ∧ t.run = .running) ∧
    ((wAt 0xD#32).run = .running ∧ ∃ t, step (wAt 0xD#32) = .next t ∧ t.run ≠ .running) :=
  ⟨⟨rfl, _, rfl, by decide⟩, ⟨rfl, _, rfl, by decide⟩⟩

theorem witness_BudgetInvisible : ∃ t, exec (.sw 2 0#16 1) wTolerant = .next t := ⟨_, rfl⟩

theorem witness_PcAdvancesByFour : canJump (.lw 2 0#16 1) = false ∧ wTolerant.run = .running ∧
    ∃ t, exec (.lw 2 0#16 1) wTolerant = .next t ∧ t.run = .running := ⟨rfl, rfl, _, rfl, by decide⟩

theorem witness_OnlyStoresWriteMemory : writesMem (.lw 2 0#16 1) = false ∧
    ∃ t, exec (.lw 2 0#16 1) wStrict = .next t := ⟨rfl, _, rfl⟩

/-- A register that is not the destination; an instruction that does not write `HI`, and one that does not write
`LO`. -/
theorem witness_OnlyNamedRegistersWritten : (3 : RegIdx) ∉ writtenRegs (.add 0 1 2) ∧
    writesHi (.mtlo 1) = false ∧ writesLo (.mthi 1) = false ∧ ∃ t, exec (.add 0 1 2) wTolerant = .next t :=
  ⟨by decide, rfl, rfl, _, rfl⟩

theorem witness_ParametersConstant : (∃ t, step wStrict = .next t) ∧
    ∃ t, step { wTolerant with run := .halted ⟨.exit, 0#32, none⟩ } = .next t := ⟨⟨_, rfl⟩, _, rfl⟩

theorem witness_PlacedWordRunsNext : decodeTableWord 32 0x000001CD = some .brk ∧
    decodeTableWord 32 0x20220001 = some (.addi 2 1 1#16) := by decide

end Sys2Proof.Tests
end

section
/-! PROOF. The state right after reset (R36, R270). -/

namespace Sys2Proof.Machine

/-- The state after reset before the loader's three registers are set: the first line of R270's procedure. -/
def State.resetCleared (p : ResetInputs) : State :=
  { State.resetWith p with gpr := Vector.replicate 32 0#32 }

/-- Reset clears the registers and then writes 28, 29 and 31, in the order of R270. -/
theorem State.resetWith_eq_writeReg (p : ResetInputs) :
    State.resetWith p =
      (((State.resetCleared p).writeReg 28 p.gp).writeReg 29 p.sp).writeReg 31 p.entry := rfl

theorem State.readReg_resetCleared (p : ResetInputs) (r : RegIdx) :
    (State.resetCleared p).readReg r = 0#32 := by
  by_cases h0 : r = 0
  · subst h0; rfl
  · rw [State.readReg_of_ne _ h0]
    exact Vector.getElem_replicate r.isLt

/-- The registers as read after reset (R36). -/
theorem State.readReg_resetWith (p : ResetInputs) (r : RegIdx) :
    (State.resetWith p).readReg r =
      if r = 28 then p.gp else if r = 29 then p.sp else if r = 31 then p.entry else 0#32 := by
  by_cases h28 : r = 28
  · subst h28; rfl
  · by_cases h29 : r = 29
    · subst h29; rfl
    · by_cases h31 : r = 31
      · subst h31; rfl
      · rw [State.resetWith_eq_writeReg]
        simp only [State.readReg_writeReg, State.readReg_resetCleared, if_neg h28, if_neg h29, if_neg h31, ite_self]

/-- Settles O9: the registers by the law of register writes and the first fetch by its own; the other fields are
set by `State.resetWith` itself. -/
theorem resetValues : Obligations.ResetValues := by
  intro p
  exact ⟨State.readReg_resetWith p, rfl, rfl, rfl, rfl, rfl, rfl, State.fetchWord_eq (State.resetWith p)⟩

end Sys2Proof.Machine
end

section
/-! PROOF. Bytes and words of memory (R52 to R54). -/

namespace Sys2Proof

/-- Byte `k` of a word as a number is what `MemWrite` stores at `addr + k` (R56, R205). -/
theorem byteOf_eq_ofNat (v : Word) (k : Nat) : byteOf v k = BitVec.ofNat 8 (v.toNat / 256 ^ (3 - k)) := by
  apply BitVec.eq_of_toNat_eq
  rw [byteOf_toNat, BitVec.toNat_ofNat]

/-- A word written is read back (R54). -/
theorem Memory.readWord_memWrite (m : Memory) (a v : Word) : (m.memWrite a 4 v.toNat).readWord a = v := by
  have hv : v.toNat < 256 ^ 4 := v.isLt
  rw [Memory.readWord, Memory.memRead_memWrite m a 4 v.toNat (by decide), Nat.mod_eq_of_lt hv,
    BitVec.ofNat_toNat, BitVec.setWidth_eq]

/-- A word write stores the four bytes of the word and changes no other address (R54). -/
theorem Memory.readByte_memWrite_word (m : Memory) (a x v : Word) :
    (m.memWrite a 4 v.toNat).readByte x =
      if (x - a).toNat < 4 then byteOf v (x - a).toNat else m.readByte x := by
  rw [Memory.readByte_memWrite m a x 4 v.toNat (by decide), byteOf_eq_ofNat]

/-- Settles O6: the law of byte writes, the big-endian reading of a word, and the two laws of the word write. -/
theorem memoryByteLaws : Obligations.MemoryByteLaws :=
  ⟨Memory.readByte_writeByte, Memory.readWord_eq, Memory.readWord_memWrite, Memory.readByte_memWrite_word⟩

end Sys2Proof
end

section
/-! PROOF. Which instruction a word selects (R81, R91, R95): the shape of a word, the well-formed records, and the
rows of the opcode table. -/

namespace Sys2Proof

/-! ### The shape of a word (R81) -/

theorem classify_r {w : Word} (h : fieldNat w 26 6 = 0) : classify w = .r (rFields w) :=
  if_pos ((opcodeField_eq_iff w 0 (by decide)).2 h)

theorem classify_j {w : Word} (h : fieldNat w 26 6 = 2 ∨ fieldNat w 26 6 = 3) : classify w = .j (jFields w) := by
  have h0 : opcodeField w ≠ 0x00#6 := fun e => by
    have := (opcodeField_eq_iff w 0 (by decide)).1 e
    omega
  have h23 : opcodeField w = 0x02#6 ∨ opcodeField w = 0x03#6 :=
    h.imp (opcodeField_eq_iff w 2 (by decide)).2 (opcodeField_eq_iff w 3 (by decide)).2
  rw [classify, if_neg h0, if_pos h23]

theorem classify_i {w : Word} (h : fieldNat w 26 6 = 1 ∨ 4 ≤ fieldNat w 26 6) : classify w = .i (iFields w) := by
  have hne (k : Nat) (hk : k < 64) (hw : fieldNat w 26 6 ≠ k) : opcodeField w ≠ BitVec.ofNat 6 k :=
    mt (opcodeField_eq_iff w k hk).1 hw
  rw [classify, if_neg (hne 0 (by decide) (by omega)),
    if_neg (not_or.2 ⟨hne 2 (by decide) (by omega), hne 3 (by decide) (by omega)⟩)]

/-- Settles O4: the shape of a word by its opcode, and each record's opcode is the word's. -/
theorem classifyByOpcode : Obligations.ClassifyByOpcode := fun w =>
  ⟨fun h => ⟨_, classify_r h, opcodeField_toNat w⟩, fun h => ⟨_, classify_j h, opcodeField_toNat w⟩,
    fun h => ⟨_, classify_i h, opcodeField_toNat w⟩⟩

/-! ### The records that select an instruction (R91, R95) -/

theorem selectSpecial_isSome (f : RFields) : (selectSpecial f).isSome = specialFuncts.contains f.funct := by
  unfold selectSpecial
  split <;> simp_all [specialFuncts]

theorem selectRegimm_isSome (f : IFields) : (selectRegimm f).isSome = regimmSelectors.contains f.rt := by
  unfold selectRegimm
  split <;> simp_all [regimmSelectors]

theorem selectPrimary_isSome (f : IFields) : (selectPrimary f).isSome = primaryIOpcodes.contains f.opcode := by
  unfold selectPrimary
  split <;> simp_all [primaryIOpcodes]

theorem selectJump_isSome (f : JFields) : (selectJump f).isSome = jumpOpcodes.contains f.opcode := by
  unfold selectJump
  split <;> simp_all [jumpOpcodes]

/-- R91: a record selects an instruction exactly when it is well formed. -/
theorem select_isSome (sh : Shape) : (select sh).isSome = sh.wellFormed := by
  cases sh with
  | r f =>
    simp only [select, Shape.wellFormed, RFields.wellFormed]
    split
    next h => rw [selectSpecial_isSome, h, beq_self_eq_true, Bool.true_and]
    next h => rw [beq_false_of_ne h]; rfl
  | i f =>
    simp only [select, Shape.wellFormed, IFields.wellFormed]
    split
    next h => rw [selectRegimm_isSome, h]; rfl
    next h => rw [selectPrimary_isSome, beq_false_of_ne h, Bool.false_and, Bool.or_false]
  | j f => exact selectJump_isSome f

/-! ### The bits that select (R90, R95) -/

/-- Two words agree in the bits that select: the opcode, and with it the funct of the SPECIAL table or the `rt`
selector of the REGIMM table. -/
structure SameKey (v w : Word) : Prop where
  opcode : fieldNat v 26 6 = fieldNat w 26 6
  funct : fieldNat v 26 6 = 0 → v.extractLsb' 0 6 = w.extractLsb' 0 6
  rt : fieldNat v 26 6 = 1 → v.extractLsb' 16 5 = w.extractLsb' 16 5

theorem selectSpecial_mnemonic {f g : RFields} (h : f.funct = g.funct) :
    (selectSpecial f).map Instr.mnemonic = (selectSpecial g).map Instr.mnemonic := by
  unfold selectSpecial
  rw [h]
  split <;> rfl

theorem selectRegimm_mnemonic {f g : IFields} (h : f.rt = g.rt) :
    (selectRegimm f).map Instr.mnemonic = (selectRegimm g).map Instr.mnemonic := by
  unfold selectRegimm
  rw [h]
  split <;> rfl

theorem selectPrimary_mnemonic {f g : IFields} (h : f.opcode = g.opcode) :
    (selectPrimary f).map Instr.mnemonic = (selectPrimary g).map Instr.mnemonic := by
  unfold selectPrimary
  rw [h]
  split <;> rfl

theorem selectJump_mnemonic {f g : JFields} (h : f.opcode = g.opcode) :
    (selectJump f).map Instr.mnemonic = (selectJump g).map Instr.mnemonic := by
  unfold selectJump
  rw [h]
  split <;> rfl

/-- The bits that select name the instruction: no other bit changes which one it is. -/
theorem SameKey.mnemonic {v w : Word} (h : SameKey v w) :
    (decodeWord v).map Instr.mnemonic = (decodeWord w).map Instr.mnemonic := by
  obtain ⟨hop, hfunct, hrt⟩ := h
  have hfield : opcodeField v = opcodeField w := BitVec.eq_of_toNat_eq (by rwa [opcodeField_toNat, opcodeField_toNat])
  rw [decodeWord_eq v, decodeWord_eq w, ← hop]
  split
  next h0 => exact selectSpecial_mnemonic (hfunct h0)
  split
  next _ h1 => exact selectRegimm_mnemonic (congrArg regOf (hrt h1))
  split
  · exact selectJump_mnemonic hfield
  · exact selectPrimary_mnemonic hfield

/-! ### The rows of the opcode table (R87 to R90) -/

theorem Row.matches_iff (r : Row) (w : Word) : r.matches w = true ↔ w &&& r.mask = r.pattern := beq_iff_eq

/-- Where a row's mask is all ones in a field, a word that the row matches has the row's value there. -/
theorem Row.extract_of_matches {r : Row} {w : Word} (h : r.matches w = true) {lo width : Nat}
    (hm : r.mask.extractLsb' lo width = BitVec.allOnes width) :
    r.pattern.extractLsb' lo width = w.extractLsb' lo width := by
  rw [← (r.matches_iff w).1 h, extract_and, hm, BitVec.and_allOnes]

/-- Every row's mask covers the bits that select in the row's own table. -/
theorem opcodeTable_masks : ∀ r ∈ opcodeTable, r.mask.extractLsb' 26 6 = BitVec.allOnes 6 ∧
    (fieldNat r.pattern 26 6 = 0 → r.mask.extractLsb' 0 6 = BitVec.allOnes 6) ∧
    (fieldNat r.pattern 26 6 = 1 → r.mask.extractLsb' 16 5 = BitVec.allOnes 5) := by decide

theorem opcodeTable_patterns :
    ∀ r ∈ opcodeTable, (decodeWord r.pattern).map Instr.mnemonic = some r.mnemonic := by decide

/-- A row is the first of its name, so that its name gives the row back. -/
theorem opcodeTable_find_mnemonic :
    ∀ r ∈ opcodeTable, opcodeTable.find? (·.mnemonic == r.mnemonic) = some r := by decide

theorem opcodeTable_mnemonic_inj {r q : Row} (hr : r ∈ opcodeTable) (hq : q ∈ opcodeTable)
    (h : r.mnemonic = q.mnemonic) : r = q :=
  Option.some.inj (by rw [← opcodeTable_find_mnemonic r hr, h, opcodeTable_find_mnemonic q hq])

theorem sameKey_of_matches {r : Row} (hr : r ∈ opcodeTable) {w : Word} (h : r.matches w = true) :
    SameKey r.pattern w := by
  obtain ⟨hop, hfunct, hrt⟩ := opcodeTable_masks r hr
  refine ⟨?_, fun h0 => Row.extract_of_matches h (hfunct h0), fun h1 => Row.extract_of_matches h (hrt h1)⟩
  rw [← extract_toNat, Row.extract_of_matches h hop, extract_toNat]

/-- A word that a row matches selects the instruction that the row names. -/
theorem decodeWord_mnemonic_of_matches {r : Row} (hr : r ∈ opcodeTable) {w : Word} (h : r.matches w = true) :
    (decodeWord w).map Instr.mnemonic = some r.mnemonic :=
  (sameKey_of_matches hr h).mnemonic.symm.trans (opcodeTable_patterns r hr)

/-- No two rows match one word, for the instruction it selects has one name and a name has one row. -/
theorem eq_of_matches {r q : Row} (hr : r ∈ opcodeTable) (hq : q ∈ opcodeTable) {w : Word} (h : r.matches w = true)
    (h' : q.matches w = true) : r = q :=
  opcodeTable_mnemonic_inj hr hq
    (Option.some.inj ((decodeWord_mnemonic_of_matches hr h).symm.trans (decodeWord_mnemonic_of_matches hq h')))

/-! ### Every instruction has a row (R87 to R89) -/

theorem specialFuncts_row : ∀ k ∈ specialFuncts,
    ∃ r ∈ opcodeTable, r.mask = 0xFC00003F#32 ∧ r.pattern = encodeR 0 0 0 0#5 k := by decide

theorem regimmSelectors_row : ∀ k ∈ regimmSelectors,
    ∃ r ∈ opcodeTable, r.mask = 0xFC1F0000#32 ∧ r.pattern = encodeI 0x01#6 0 k 0#16 := by decide

theorem opcodes_row : ∀ k ∈ primaryIOpcodes ++ jumpOpcodes,
    ∃ r ∈ opcodeTable, r.mask = 0xFC000000#32 ∧ r.pattern = encodeI k 0 0 0#16 := by decide

/-- A row with the mask and pattern of a word matches it. -/
theorem exists_matches {w m p : Word} (hw : w &&& m = p) (h : ∃ r ∈ opcodeTable, r.mask = m ∧ r.pattern = p) :
    ∃ r ∈ opcodeTable, r.matches w = true := by
  obtain ⟨r, hr, rfl, rfl⟩ := h
  exact ⟨r, hr, (r.matches_iff w).2 hw⟩

/-- A well-formed opcode outside the two nested tables has a row of its own. -/
theorem exists_matches_of_opcode {w : Word} (h : opcodeField w ∈ primaryIOpcodes ++ jumpOpcodes) :
    ∃ r ∈ opcodeTable, r.matches w = true := by
  refine exists_matches ?_ (opcodes_row _ h)
  have hw := Laws.primary_mask (BitVec.ofNat 6 (fieldNat w 26 6)) (rsOf w) (rtOf w) (immOf w)
  rwa [← word_eq_encodeI w, ← opcodeField_of rfl] at hw

/-- A well-formed funct under opcode 0 has a row. -/
theorem exists_matches_of_funct {w : Word} (h0 : fieldNat w 26 6 = 0) (h : (rFields w).funct ∈ specialFuncts) :
    ∃ r ∈ opcodeTable, r.matches w = true := by
  refine exists_matches ?_ (specialFuncts_row _ h)
  have hw := Laws.special_mask (rsOf w) (rtOf w) (rdOf w) (shamtOf w) (BitVec.ofNat 6 (fieldNat w 0 6))
  rw [← word_eq_encodeR h0] at hw
  rw [hw, rFields_eq]

/-- A well-formed `rt` selector under opcode 1 has a row. -/
theorem exists_matches_of_selector {w : Word} (h1 : opcodeField w = 0x01#6) (h : (iFields w).rt ∈ regimmSelectors) :
    ∃ r ∈ opcodeTable, r.matches w = true := by
  refine exists_matches ?_ (regimmSelectors_row _ h)
  have hw := Laws.regimm_mask (BitVec.ofNat 6 (fieldNat w 26 6)) (rsOf w) (rtOf w) (immOf w)
  rw [← word_eq_encodeI w, ← opcodeField_of rfl, h1] at hw
  rw [hw, iFields_eq]

/-- A well-formed word has a row, in the table that its opcode gives. -/
theorem exists_matches_of_wellFormed {w : Word} (h : (classify w).wellFormed = true) :
    ∃ r ∈ opcodeTable, r.matches w = true := by
  have hcases : fieldNat w 26 6 = 0 ∨ (fieldNat w 26 6 = 2 ∨ fieldNat w 26 6 = 3) ∨
      (fieldNat w 26 6 = 1 ∨ 4 ≤ fieldNat w 26 6) := by omega
  rcases hcases with h0 | h23 | h14
  · rw [classify_r h0] at h
    exact exists_matches_of_funct h0 (List.contains_iff_mem.1 (Bool.and_eq_true_iff.1 h).2)
  · rw [classify_j h23] at h
    exact exists_matches_of_opcode (List.mem_append_right _ (List.contains_iff_mem.1 h))
  · rw [classify_i h14] at h
    rcases Bool.or_eq_true_iff.1 h with hp | hr
    · exact exists_matches_of_opcode (List.mem_append_left _ (List.contains_iff_mem.1 hp))
    · obtain ⟨h1, hrt⟩ := Bool.and_eq_true_iff.1 hr
      exact exists_matches_of_selector (eq_of_beq h1) (List.contains_iff_mem.1 hrt)

/-- A word selects an instruction exactly when its record is well formed (R91, R95). -/
theorem decodeWord_isSome (w : Word) : (decodeWord w).isSome = (classify w).wellFormed := select_isSome (classify w)

/-- A word that selects an instruction has a row. -/
theorem exists_matches_of_decodeWord {w : Word} {i : Instr} (h : decodeWord w = some i) :
    ∃ r ∈ opcodeTable, r.matches w = true :=
  exists_matches_of_wellFormed (by rw [← decodeWord_isSome, h, Option.isSome_some])

namespace Machine

/-- A word that selects no instruction halts the core when it is executed (R217). -/
theorem step_unimplemented {s : State} (hr : s.run = .running) (hb : s.budget ≠ 0) (hc : Readable s s.pc 4)
    (hd : decodeWord (wordAt s.mem s.pc) = none) :
    HaltsWith (step s) s .unimplementedOpcode (some (wordAt s.mem s.pc)) := by
  rw [← State.fetchWord_eq] at hd
  rw [step_fetch hr hb, State.fetchAndExecute_of_readable hc, State.execWord_none hd]
  exact State.raise_spec s _

end Machine

/-- Settles O3: the rows are counted; a word decodes exactly when its record is well formed, and then it has a row;
a row that matches agrees with the word in the bits that select, so it names the word's instruction, and names of
rows are distinct. -/
theorem decodeFollowsOpcodeTable : Obligations.DecodeFollowsOpcodeTable :=
  ⟨by decide, by decide, by decide, decodeWord_isSome,
    fun _ _ hr h => Option.map_eq_some_iff.1 (decodeWord_mnemonic_of_matches hr h),
    fun _ _ h => exists_matches_of_decodeWord h, fun _ => Machine.step_unimplemented,
    fun _ _ _ hr hq h h' => eq_of_matches hr hq h h'⟩

end Sys2Proof
end

section
/-! PROOF. The words that select an instruction by opcode and funct, or by opcode alone (R87, R88, R90). -/

namespace Sys2Proof

/-- R88: a word with opcode 0 selects what the SPECIAL table holds for its funct, with the word's own fields. -/
theorem specialWords {k : Nat} {f : Word → Instr}
    (h : ∀ w, selectSpecial ⟨0x00#6, rsOf w, rtOf w, rdOf w, shamtOf w, BitVec.ofNat 6 k⟩ = some (f w)) :
    SpecialWords k f := by
  intro w h0 hk
  rw [decode_special h0, rFields_eq, h0, hk]
  exact h w

/-- R87: a word with an I-format opcode selects what the PRIMARY table holds for it, with the word's own fields. -/
theorem opcodeWords {k : Nat} {f : Word → Instr} (hk : 4 ≤ k)
    (h : ∀ w, selectPrimary ⟨BitVec.ofNat 6 k, rsOf w, rtOf w, immOf w⟩ = some (f w)) : OpcodeWords k f := by
  intro w hw
  rw [decode_primary (hw ▸ hk), iFields_eq, hw]
  exact h w

end Sys2Proof
end

section
/-! PROOF. The ALU instructions (40_alu.md). Each writes one value to its destination (`State.writeBack_spec`), so
what is left to say of each is the arithmetic of that value. -/

namespace Sys2Proof.Machine

/-! ### Sums, differences and the upper immediate as numbers -/

/-- A difference of words is the integers' difference modulo 2^32 (R113). -/
theorem toNat_sub_emod (a b : Word) : ((a - b).toNat : Int) = ((a.toNat : Int) - b.toNat) % 2 ^ 32 := by
  have hb := b.isLt
  rw [BitVec.toNat_sub]
  omega

/-- The operand of `lui` is the immediate times 2^16 (R128). -/
theorem upperImm_toNat (imm : BitVec 16) : (upperImm imm).toNat = imm.toNat * 2 ^ 16 := by
  rw [upperImm, BitVec.toNat_append, Nat.shiftLeft_eq]
  exact Nat.or_zero _

/-! ### Comparisons as 1 or 0 (R129) -/

theorem flagWord_decide (p : Prop) [Decidable p] : flagWord (decide p) = if p then 1#32 else 0#32 := by
  simp only [flagWord, decide_eq_true_eq]

theorem flagWord_lessSigned (a b : Word) :
    flagWord (lessSigned a b) = if a.toInt < b.toInt then 1#32 else 0#32 := flagWord_decide _

theorem flagWord_lessUnsigned (a b : Word) :
    flagWord (lessUnsigned a b) = if a.toNat < b.toNat then 1#32 else 0#32 := flagWord_decide _

/-- R123: the sign-extended immediate has the immediate's own signed value. -/
theorem flagWord_lessSigned_sext16 (a : Word) (imm : BitVec 16) :
    flagWord (lessSigned a (sext16 imm)) = if a.toInt < imm.toInt then 1#32 else 0#32 := by
  rw [flagWord_lessSigned, sext16_toInt]

/-- R124: the sign-extended immediate as an unsigned operand is the immediate modulo 2^32. -/
theorem flagWord_lessUnsigned_sext16 (a : Word) (imm : BitVec 16) :
    flagWord (lessUnsigned a (sext16 imm)) = if (a.toNat : Int) < imm.toInt % 2 ^ 32 then 1#32 else 0#32 := by
  simp only [flagWord_lessUnsigned, ← sext16_toNat, Int.ofNat_lt]

/-! ### The obligations of 40_alu.md -/

/-- Settles O14: a sum of words is modulo 2^32, and the sum with an immediate is that of an effective address. -/
theorem additionWraps : Obligations.AdditionWraps := by
  refine ⟨specialWords fun _ => rfl, specialWords fun _ => rfl, opcodeWords (by decide) fun _ => rfl,
    opcodeWords (by decide) fun _ => rfl, fun rd rs rt s => ?_, fun rt rs imm s => ?_⟩
  · have hsum := BitVec.toNat_add (s.readReg rs) (s.readReg rt)
    exact ⟨s.writeBack_spec rd _ hsum, s.writeBack_spec rd _ hsum⟩
  · have hsum := s.effAddr_toNat rs imm
    exact ⟨s.writeBack_spec rt _ hsum, s.writeBack_spec rt _ hsum⟩

/-- Settles O15: with and without the `u`, the difference of the words modulo 2^32. -/
theorem subtractionWraps : Obligations.SubtractionWraps := by
  refine ⟨specialWords fun _ => rfl, specialWords fun _ => rfl, fun rd rs rt s => ?_⟩
  have hdiff := toNat_sub_emod (s.readReg rs) (s.readReg rt)
  exact ⟨s.writeBack_spec rd _ hdiff, s.writeBack_spec rd _ hdiff⟩

/-- Settles O16: each operation by the library's law for one bit. -/
theorem logicalBitwise : Obligations.LogicalBitwise := by
  refine ⟨specialWords fun _ => rfl, specialWords fun _ => rfl, specialWords fun _ => rfl, specialWords fun _ => rfl,
    fun rd rs rt s => ⟨?and, ?or, ?xor, ?nor⟩⟩
  case and => exact s.writeBack_spec rd _ fun _ _ => BitVec.getLsbD_and
  case or => exact s.writeBack_spec rd _ fun _ _ => BitVec.getLsbD_or
  case xor => exact s.writeBack_spec rd _ fun _ _ => BitVec.getLsbD_xor
  case nor =>
    refine s.writeBack_spec rd _ fun k hk => ?_
    rw [BitVec.getLsbD_not, BitVec.getLsbD_or, decide_eq_true hk, Bool.true_and]

/-- Settles O17: the law for one bit, with that bit of the sign-extended immediate as the second operand. -/
theorem logicalImmediateSignExtends : Obligations.LogicalImmediateSignExtends := by
  refine ⟨opcodeWords (by decide) fun _ => rfl, opcodeWords (by decide) fun _ => rfl,
    opcodeWords (by decide) fun _ => rfl, fun rt rs imm s => ⟨?andi, ?ori, ?xori⟩⟩
  case andi =>
    refine s.writeBack_spec rt _ fun k hk => ?_
    rw [BitVec.getLsbD_and, sext16_getLsbD imm k hk]
  case ori =>
    refine s.writeBack_spec rt _ fun k hk => ?_
    rw [BitVec.getLsbD_or, sext16_getLsbD imm k hk]
  case xori =>
    refine s.writeBack_spec rt _ fun k hk => ?_
    rw [BitVec.getLsbD_xor, sext16_getLsbD imm k hk]

/-- Settles O18: the flag word of each comparison, the immediate read by its sign in both. -/
theorem setOnLessThan : Obligations.SetOnLessThan := by
  refine ⟨specialWords fun _ => rfl, specialWords fun _ => rfl, opcodeWords (by decide) fun _ => rfl,
    opcodeWords (by decide) fun _ => rfl, fun rd rs rt s => ⟨?slt, ?sltu⟩, fun rt rs imm s => ⟨?slti, ?sltiu⟩⟩
  case slt => exact s.writeBack_spec rd _ (flagWord_lessSigned _ _)
  case sltu => exact s.writeBack_spec rd _ (flagWord_lessUnsigned _ _)
  case slti => exact s.writeBack_spec rt _ (flagWord_lessSigned_sext16 _ imm)
  case sltiu => exact s.writeBack_spec rt _ (flagWord_lessUnsigned_sext16 _ imm)

/-- Settles O20: the operand of `lui` as a number. -/
theorem loadUpperImmediate : Obligations.LoadUpperImmediate :=
  ⟨opcodeWords (by decide) fun _ => rfl, fun rt imm s => s.writeBack_spec rt _ (upperImm_toNat imm)⟩

end Sys2Proof.Machine
end

section
/-! PROOF. The shift instructions (41_shift.md). Each writes the shifted word to its destination
(`State.writeBack_spec`), so what is left to say is that word as a number; the amount of a variable shift is the
register's value modulo 32 (`shiftAmount_eq`). -/

namespace Sys2Proof.Machine

/-! ### Shifted words as numbers (R140) -/

/-- A left shift multiplies by a power of 2 modulo 2^32. -/
theorem shiftLeft_toNat (a : Word) (n : Nat) : (a <<< n).toNat = a.toNat * 2 ^ n % 2 ^ 32 := by
  rw [BitVec.toNat_shiftLeft, Nat.shiftLeft_eq]

/-- A logical right shift divides the unsigned value by a power of 2, rounding down. -/
theorem ushiftRight_toNat (a : Word) (n : Nat) : (a >>> n).toNat = a.toNat / 2 ^ n := by
  rw [BitVec.toNat_ushiftRight, Nat.shiftRight_eq_div_pow]

/-- An arithmetic right shift divides the signed value by a power of 2, rounding toward minus infinity: the divisor
is positive, so floor division is the library's `/`. -/
theorem sshiftRight_toInt (a : Word) (n : Nat) : (a.sshiftRight n).toInt = Int.fdiv a.toInt (2 ^ n) := by
  have hpos : (0 : Int) ≤ 2 ^ n := Int.pow_nonneg (by decide)
  have hcast : ((2 ^ n : Nat) : Int) = 2 ^ n := Int.natCast_pow 2 n
  rw [BitVec.toInt_sshiftRight, Int.shiftRight_eq_div_pow, hcast, Int.fdiv_eq_ediv_of_nonneg _ hpos]

/-! ### The obligations of 41_shift.md -/

/-- Settles O21: the left shift as a number, by the constant amount and by the register's value modulo 32. -/
theorem leftShifts : Obligations.LeftShifts := by
  refine ⟨specialWords fun _ => rfl, specialWords fun _ => rfl, fun rd rt shamt s => ?sll, fun rd rt rs s => ?sllv⟩
  case sll => exact s.writeBack_spec rd _ (shiftLeft_toNat _ _)
  case sllv =>
    rw [← shiftAmount_eq]
    exact s.writeBack_spec rd _ (shiftLeft_toNat _ _)

/-- Settles O22: the logical right shift as a quotient of the unsigned value. -/
theorem logicalRightShifts : Obligations.LogicalRightShifts := by
  refine ⟨specialWords fun _ => rfl, specialWords fun _ => rfl, fun rd rt shamt s => ?srl, fun rd rt rs s => ?srlv⟩
  case srl => exact s.writeBack_spec rd _ (ushiftRight_toNat _ _)
  case srlv =>
    rw [← shiftAmount_eq]
    exact s.writeBack_spec rd _ (ushiftRight_toNat _ _)

/-- Settles O23: the arithmetic right shift as a floor quotient of the signed value. -/
theorem arithmeticRightShifts : Obligations.ArithmeticRightShifts := by
  refine ⟨specialWords fun _ => rfl, specialWords fun _ => rfl, fun rd rt shamt s => ?sra, fun rd rt rs s => ?srav⟩
  case sra => exact s.writeBack_spec rd _ (sshiftRight_toInt _ _)
  case srav =>
    rw [← shiftAmount_eq]
    exact s.writeBack_spec rd _ (sshiftRight_toInt _ _)

end Sys2Proof.Machine
end

section
/-! PROOF. Multiplication, division and the moves of `HI` and `LO` (42_muldiv.md). Each writes both accumulators, a
move the old value to the one it leaves (`State.writeHiLo_retire_spec`), or halts on a divisor of 0
(`State.raise_spec`); what is left to say is the product, the quotient and the remainder as numbers. -/

namespace Sys2Proof.Machine

/-! ### Products (R150) -/

/-- A product goes to `HI` and `LO` as two words that join to it. -/
theorem State.writeProduct_spec (s : State) (p : BitVec 64) {P : Word → Word → Prop}
    (hP : ∀ hi lo : Word, hi ++ lo = p → P hi lo) : WritesHiLo (s.writeProduct p) s P :=
  s.writeHiLo_retire_spec _ _ (hP _ _ BitVec.extractLsb'_append_extractLsb')

/-- Two joined words as a signed number: the upper one carries the sign. -/
theorem append_toInt (hi lo : Word) : (hi ++ lo).toInt = hi.toInt * 2 ^ 32 + lo.toNat := by
  rw [BitVec.toInt_append, Int.mul_comm hi.toInt]
  rfl

/-- Two joined words as an unsigned number. -/
theorem append_toNat (hi lo : Word) : (hi ++ lo).toNat = hi.toNat * 2 ^ 32 + lo.toNat := by
  rw [BitVec.toNat_append, ← Nat.shiftLeft_add_eq_or_of_lt lo.isLt, Nat.shiftLeft_eq]

/-- R151: the product of two signed words is exact in 64 bits, being at most 2^62 in size. -/
theorem ofInt_mul_toInt (a b : Word) : (BitVec.ofInt 64 (a.toInt * b.toInt)).toInt = a.toInt * b.toInt := by
  have hlo : -2 ^ 62 ≤ a.toInt * b.toInt := BitVec.le_toInt_mul_toInt
  have hhi : a.toInt * b.toInt ≤ 2 ^ 62 := BitVec.toInt_mul_toInt_le
  exact BitVec.toInt_ofInt_eq_self (by decide) (by omega) (by omega)

/-- R152: the product of two unsigned words is below 2^64. -/
theorem ofNat_mul_toNat (a b : Word) : (BitVec.ofNat 64 (a.toNat * b.toNat)).toNat = a.toNat * b.toNat := by
  have hlt : a.toNat * b.toNat < 2 ^ 32 * 2 ^ 32 := Nat.mul_lt_mul'' a.isLt b.isLt
  rw [BitVec.toNat_ofNat]
  exact Nat.mod_eq_of_lt hlt

/-! ### Quotients and remainders (R150) -/

/-- The quotient goes to `LO` and the remainder to `HI`. -/
theorem State.writeQuotient_spec (s : State) (q r : Int) {P : Word → Word → Prop}
    (hP : P (BitVec.ofInt 32 r) (BitVec.ofInt 32 q)) : WritesHiLo (s.writeQuotient q r) s P :=
  s.writeHiLo_retire_spec _ _ hP

/-- What guards both divisions (R242): a divisor of 0 halts the core, and any other goes on. -/
theorem State.guardDivisor_spec (s : State) (d : Word) {o : Host.Outcome State Fault Refusal}
    {P : Word → Word → Prop} (h : d ≠ 0#32 → WritesHiLo o s P) :
    (d ≠ 0#32 → WritesHiLo (if d = 0#32 then .next (s.raise .arithmeticEdgeCase) else o) s P) ∧
    (d = 0#32 → HaltsWith (if d = 0#32 then .next (s.raise .arithmeticEdgeCase) else o) s .arithmeticEdgeCase
      (some (wordAt s.mem s.pc))) := by
  refine ⟨fun hd => ?_, fun hd => ?_⟩
  · rw [if_neg hd]
    exact h hd
  · rw [if_pos hd]
    exact s.raise_spec _

theorem toInt_ne_zero {d : Word} (h : d ≠ 0#32) : d.toInt ≠ 0 := BitVec.toInt_ne.2 h

theorem toNat_pos {d : Word} (h : d ≠ 0#32) : 0 < d.toNat := Nat.pos_of_ne_zero (BitVec.toNat_ne.1 h)

/-- A truncated remainder is smaller than the divisor in size (R153). -/
theorem natAbs_tmod_lt (n : Int) {d : Int} (h : d ≠ 0) : (n.tmod d).natAbs < d.natAbs := by
  rw [Int.natAbs_tmod]
  exact Nat.mod_lt _ (Int.natAbs_pos.2 h)

/-- A truncated remainder that is not 0 has the dividend's sign (R153). -/
theorem tmod_sign (n d : Int) : (0 < n.tmod d → 0 < n) ∧ (n.tmod d < 0 → n < 0) := by
  have hpos : 0 ≤ n → 0 ≤ n.tmod d := Int.tmod_nonneg d
  have hneg : 0 ≤ -n → 0 ≤ -n.tmod d := fun h => Int.neg_tmod n d ▸ Int.tmod_nonneg d h
  omega

/-- The remainder by a word fits in a word, for it is smaller than the divisor in size. -/
theorem ofInt_tmod_toInt (n : Int) {d : Word} (h : d ≠ 0#32) :
    (BitVec.ofInt 32 (n.tmod d.toInt)).toInt = n.tmod d.toInt := by
  have hr := natAbs_tmod_lt n (toInt_ne_zero h)
  have hlo : -2 ^ 31 ≤ d.toInt := d.le_toInt
  have hhi : d.toInt < 2 ^ 31 := BitVec.toInt_lt
  exact BitVec.toInt_ofInt_eq_self (by decide) (by omega) (by omega)

/-- A number no larger than a word is kept by that word. -/
theorem ofInt_natCast_toNat {k : Nat} {n : Word} (h : k ≤ n.toNat) : (BitVec.ofInt 32 (k : Int)).toNat = k := by
  rw [BitVec.ofInt_natCast, BitVec.toNat_ofNat, Nat.mod_eq_of_lt (Nat.lt_of_le_of_lt h n.isLt)]

/-! ### Moves into one accumulator (R157, R158) -/

/-- A move into `HI` is a write of both accumulators that gives `LO` its own old value. -/
theorem State.writeHi_retire_spec (s : State) (v : Word) :
    WritesHiLo (.next ((s.writeHi v).retire .noJump)) s (fun hi lo => hi = v ∧ lo = s.lo) :=
  s.writeHiLo_retire_spec v s.lo ⟨rfl, rfl⟩

/-- A move into `LO` is a write of both accumulators that gives `HI` its own old value. -/
theorem State.writeLo_retire_spec (s : State) (v : Word) :
    WritesHiLo (.next ((s.writeLo v).retire .noJump)) s (fun hi lo => hi = s.hi ∧ lo = v) :=
  s.writeHiLo_retire_spec s.hi v ⟨rfl, rfl⟩

/-! ### The obligations of 42_muldiv.md -/

/-- Settles O24: `HI` and `LO` join to the product, which 64 bits hold exactly, signed or unsigned. -/
theorem multiplyExact : Obligations.MultiplyExact := by
  refine ⟨specialWords fun _ => rfl, specialWords fun _ => rfl, fun rs rt s => ⟨?mult, ?multu⟩⟩
  case mult =>
    refine s.writeProduct_spec _ fun hi lo hp => ?_
    rw [← append_toInt, hp, ofInt_mul_toInt]
  case multu =>
    refine s.writeProduct_spec _ fun hi lo hp => ?_
    rw [← append_toNat, hp, ofNat_mul_toNat]

/-- Settles O25: the quotient and the remainder are the truncated ones. The remainder fits in `HI`; the quotient
is kept in `LO` modulo 2^32, which the one overflow needs (D8). -/
theorem divideSigned : Obligations.DivideSigned := by
  refine ⟨specialWords fun _ => rfl, fun rs rt s => s.guardDivisor_spec _ fun hd => s.writeQuotient_spec _ _ ?_⟩
  obtain ⟨hpos, hneg⟩ := tmod_sign (s.readReg rs).toInt (s.readReg rt).toInt
  exact ⟨_, _, (Int.tdiv_mul_add_tmod _ _).symm, natAbs_tmod_lt _ (toInt_ne_zero hd), hpos, hneg,
    toNat_ofInt_eq _, ofInt_tmod_toInt _ hd⟩

/-- Settles O26: the floor quotient and the remainder are no larger than the dividend, so a word keeps both. -/
theorem divideUnsigned : Obligations.DivideUnsigned := by
  refine ⟨specialWords fun _ => rfl, fun rs rt s => s.guardDivisor_spec _ fun hd => s.writeQuotient_spec _ _ ?_⟩
  rw [ofInt_natCast_toNat (Nat.div_le_self _ _), ofInt_natCast_toNat (Nat.mod_le _ _)]
  exact ⟨(Nat.div_add_mod' _ _).symm, Nat.mod_lt _ (toNat_pos hd)⟩

/-- Settles O27: a move out writes one register, and a move into one accumulator writes the other's old value. -/
theorem hiLoMoves : Obligations.HiLoMoves :=
  ⟨specialWords fun _ => rfl, specialWords fun _ => rfl, specialWords fun _ => rfl, specialWords fun _ => rfl,
    fun rd s => ⟨s.writeBack_spec rd _ rfl, s.writeBack_spec rd _ rfl⟩,
    fun _ s => ⟨s.writeHi_retire_spec _, s.writeLo_retire_spec _⟩⟩

end Sys2Proof.Machine
end

section
/-! PROOF. The words that select a branch by its `rt` selector, or a jump by its opcode (R87, R89, R90). -/

namespace Sys2Proof

/-- R89: a word with opcode 1 selects what the REGIMM table holds for its `rt` selector, with the word's own
fields. -/
theorem regimmWords {k : Nat} {f : Word → Instr} (hk : k < 32)
    (h : ∀ w, selectRegimm ⟨0x01#6, rsOf w, ⟨k, hk⟩, immOf w⟩ = some (f w)) : RegimmWords k f := by
  intro w h1 hrt
  have hsel : rtOf w = ⟨k, hk⟩ := Fin.ext hrt
  rw [decode_regimm h1, iFields_eq, h1, hsel]
  exact h w

/-- R87: a word with a J-format opcode selects that jump, with the word's own address field. -/
theorem jumpWords {k : Nat} {f : Word → Instr} (hk : k = 2 ∨ k = 3)
    (h : ∀ w, selectJump ⟨BitVec.ofNat 6 k, addressOf w⟩ = some (f w)) : OpcodeWords k f := by
  intro w hw
  rw [decode_jump (hw ▸ hk), jFields_eq, hw]
  exact h w

end Sys2Proof
end

section
/-! PROOF. The jump and branch instructions (43_jump_branch.md). A jump is `State.jump_spec` or, when it links,
`State.link_spec`; a branch takes the target or the next instruction by its condition, so what is left to say is
the target as a number and the condition in the spec's words. -/

namespace Sys2Proof.Machine

/-! ### The conditions as tests of bits (R172 to R177) -/

theorem condEq_eq_true_iff (a b : Word) : condEq a b = true ↔ a = b := beq_iff_eq

theorem not_condEq_eq_false_iff (a b : Word) : (!condEq a b) = false ↔ a = b := by
  rw [Bool.not_eq_false', condEq_eq_true_iff]

theorem condLez_eq_true_iff (v : Word) : condLez v = true ↔ negative v = true ∨ v = 0#32 := by
  rw [condLez_eq, Bool.or_eq_true, beq_iff_eq]

theorem condGtz_eq_false_iff (v : Word) : condGtz v = false ↔ negative v = true ∨ v = 0#32 := by
  rw [condGtz_eq, Bool.not_eq_false', Bool.or_eq_true, beq_iff_eq]

theorem condLtz_eq_true_iff (v : Word) : condLtz v = true ↔ negative v = true := by rw [condLtz_eq]

theorem condGez_eq_false_iff (v : Word) : condGez v = false ↔ negative v = true := by
  rw [condGez_eq, Bool.not_eq_false']

/-! ### Branches to the spec's target (R166) -/

/-- A branch whose condition says `p` goes to the target when `p` holds. -/
theorem State.branchIf_when (s : State) {c : Bool} {p : Prop} [Decidable p] (imm : BitVec 16)
    (h : c = true ↔ p) : JumpsTo (s.branchIf c imm) s (if p then takenTarget s.pc imm else s.pc + 4#32) := by
  have hb := s.branchIf_spec c imm
  simp only [h, branchTarget_eq] at hb
  exact hb

/-- A branch whose condition says that `p` fails goes to the target unless `p` holds. -/
theorem State.branchIf_unless (s : State) {c : Bool} {p : Prop} [Decidable p] (imm : BitVec 16)
    (h : c = false ↔ p) : JumpsTo (s.branchIf c imm) s (if p then s.pc + 4#32 else takenTarget s.pc imm) := by
  have hnot : c = true ↔ ¬ p := by rw [← h, Bool.not_eq_false]
  have hb := s.branchIf_when imm hnot
  rwa [ite_not] at hb

/-- R178, R179: taken, a linking branch writes register 31. -/
theorem State.branchLinkIf_taken (s : State) {c : Bool} (imm : BitVec 16) (h : c = true) :
    LinksTo (s.branchLinkIf c imm) s 31 (takenTarget s.pc imm) := by
  rw [State.branchLinkIf, if_pos h, branchTarget_eq]
  exact s.link_spec linkReg _

/-- R178, R179: not taken, a linking branch writes no register. -/
theorem State.branchLinkIf_not_taken (s : State) {c : Bool} (imm : BitVec 16) (h : c = false) :
    JumpsTo (s.branchLinkIf c imm) s (s.pc + 4#32) := by
  rw [State.branchLinkIf, h]
  exact s.noJump_spec

/-- R171: `jalr` links its destination and jumps to the register as it was before the link. -/
theorem execJalr_spec (rd rs : RegIdx) (s : State) :
    LinksTo (exec (.jalr rd rs) s) s (jalrDest rd) (s.readReg rs) := s.link_spec _ _

/-! ### The obligations of 43_jump_branch.md -/

/-- Settles O28: the jump's target, which keeps the top 4 bits of `pc`, is the region and the word index in it. -/
theorem jumpInRegion : Obligations.JumpInRegion := by
  refine ⟨jumpWords (by decide) fun _ => rfl, jumpWords (by decide) fun _ => rfl, fun address s => ?_⟩
  rw [← jumpTarget_eq]
  exact ⟨s.jump_spec _, s.link_spec linkReg _⟩

/-- Settles O29: the destination of `jalr` is register 31 for the field 0 and `rd` itself for any other. -/
theorem jumpByRegister : Obligations.JumpByRegister := by
  refine ⟨specialWords fun _ => rfl, specialWords fun _ => rfl, fun rs s => s.jump_spec _,
    execJalr_spec 0, fun rd rs s hrd => ?_⟩
  have hdest : jalrDest rd = rd := if_neg hrd
  have hlink := execJalr_spec rd rs s
  rwa [hdest] at hlink

/-- Settles O30: `beq` branches when the words are equal, `bne` unless they are. -/
theorem branchOnEquality : Obligations.BranchOnEquality :=
  ⟨opcodeWords (by decide) fun _ => rfl, opcodeWords (by decide) fun _ => rfl, fun _ _ imm s =>
    ⟨s.branchIf_when imm (condEq_eq_true_iff _ _), s.branchIf_unless imm (not_condEq_eq_false_iff _ _)⟩⟩

/-- Settles O31: `blez` and `bltz` branch when the test holds, `bgtz` and `bgez` unless it does. -/
theorem branchOnSign : Obligations.BranchOnSign := by
  refine ⟨opcodeWords (by decide) fun _ => rfl, opcodeWords (by decide) fun _ => rfl,
    regimmWords (by decide) fun _ => rfl, regimmWords (by decide) fun _ => rfl,
    fun rs imm s => ⟨?blez, ?bgtz, ?bltz, ?bgez⟩⟩
  case blez => exact s.branchIf_when imm (condLez_eq_true_iff _)
  case bgtz => exact s.branchIf_unless imm (condGtz_eq_false_iff _)
  case bltz => exact s.branchIf_when imm (condLtz_eq_true_iff _)
  case bgez => exact s.branchIf_unless imm (condGez_eq_false_iff _)

/-- Settles O32: the two conditions are bit 31 of the old register and its negation, so one of the two branches is
taken and links, and the other goes on. -/
theorem branchAndLinkIfTaken : Obligations.BranchAndLinkIfTaken := by
  refine ⟨regimmWords (by decide) fun _ => rfl, regimmWords (by decide) fun _ => rfl,
    fun rs imm s => ⟨fun hneg => ⟨?_, ?_⟩, fun hpos => ⟨?_, ?_⟩⟩⟩
  · exact s.branchLinkIf_taken imm ((condLtz_eq_true_iff _).2 hneg)
  · exact s.branchLinkIf_not_taken imm ((condGez_eq_false_iff _).2 hneg)
  · exact s.branchLinkIf_not_taken imm ((condLtz_eq _).trans hpos)
  · exact s.branchLinkIf_taken imm ((condGez_eq _).trans (by rw [hpos, Bool.not_false]))

end Sys2Proof.Machine
end

section
/-! PROOF. The loads and stores of bytes, halfwords and words (44_load_store.md). A load is `State.load_spec` and a
store is `State.store_retire_spec`, both at the address of `State.effAddr_toNat`, so what is left to say is the
value loaded in terms of the bytes in memory, and the bytes stored in terms of the register. -/

namespace Sys2Proof.Machine

/-! ### The value of a load (R191 to R195) -/

theorem sext8Nat_memRead_toInt (m : Memory) (a : Word) : (sext8Nat (m.memRead a 1)).toInt = (m.readByte a).toInt := by
  rw [sext8Nat, Memory.memRead_one, BitVec.ofNat_toNat, BitVec.setWidth_eq, BitVec.toInt_signExtend_of_le (by decide)]

theorem zext8Nat_memRead_toNat (m : Memory) (a : Word) : (zext8Nat (m.memRead a 1)).toNat = (m.readByte a).toNat := by
  rw [zext8Nat, Memory.memRead_one, BitVec.ofNat_toNat, BitVec.setWidth_eq, BitVec.toNat_setWidth_of_le (by decide)]

theorem sext16Nat_memRead_toInt (m : Memory) (a : Word) : (sext16Nat (m.memRead a 2)).toInt = (halfAt m a).toInt := by
  rw [sext16Nat, Memory.memRead_two, BitVec.toInt_signExtend_of_le (by decide)]

theorem zext16Nat_memRead_toNat (m : Memory) (a : Word) : (zext16Nat (m.memRead a 2)).toNat = (halfAt m a).toNat := by
  rw [zext16Nat, Memory.memRead_two, BitVec.toNat_setWidth_of_le (by decide)]

/-! ### The bytes of a store (R196 to R198) -/

/-- Byte `k` of the low `n` bytes of a word, as `MemWrite` takes it from their number (R56), is a byte of the word:
the `4 - n` bytes above them come before it. -/
theorem ofNat_low_eq_byteOf (v : Word) {n k : Nat} (hn : n ≤ 4) (hk : k < n) :
    BitVec.ofNat 8 ((v.extractLsb' 0 (8 * n)).toNat / 256 ^ (n - 1 - k)) = byteOf v (4 - n + k) := by
  have hplace : 3 - (4 - n + k) = n - 1 - k := by omega
  have hsplit : 2 ^ (8 * n) = 256 ^ (n - 1 - k) * 256 ^ (k + 1) := by
    rw [← Nat.pow_add, Nat.pow_mul]
    congr 1
    omega
  apply BitVec.eq_of_toNat_eq
  rw [byteOf_toNat, hplace, BitVec.toNat_ofNat, BitVec.extractLsb'_toNat, Nat.shiftRight_zero, hsplit,
    Nat.mod_mul_right_div_self]
  exact Nat.mod_mod_of_dvd _ (Nat.dvd_mul_left 256 (256 ^ k))

/-! ### The obligations of 44_load_store.md -/

/-- Settles O35: the byte read, extended by its sign or by zeros. -/
theorem loadByte : Obligations.LoadByte := by
  refine ⟨opcodeWords (by decide) fun _ => rfl, opcodeWords (by decide) fun _ => rfl,
    fun rt imm rs s => ⟨s.effAddr_toNat rs imm, ?lb, ?lbu⟩⟩
  case lb => exact s.load_spec _ 1 rt _ (sext8Nat_memRead_toInt _ _)
  case lbu => exact s.load_spec _ 1 rt _ (zext8Nat_memRead_toNat _ _)

/-- Settles O36: the halfword read, extended by its sign or by zeros, and the word read as it is. -/
theorem loadHalfwordAndWord : Obligations.LoadHalfwordAndWord := by
  refine ⟨opcodeWords (by decide) fun _ => rfl, opcodeWords (by decide) fun _ => rfl,
    opcodeWords (by decide) fun _ => rfl, fun rt imm rs s => ⟨s.effAddr_toNat rs imm, ?lh, ?lhu, ?lw⟩⟩
  case lh => exact s.load_spec _ 2 rt _ (sext16Nat_memRead_toInt _ _)
  case lhu => exact s.load_spec _ 2 rt _ (zext16Nat_memRead_toNat _ _)
  case lw => exact s.load_spec _ 4 rt _ (Memory.readWord_eq _ _)

/-- Settles O37: `sb` and `sh` store the low bytes of the register, and `sw` all four. -/
theorem storeBytes : Obligations.StoreBytes := by
  refine ⟨opcodeWords (by decide) fun _ => rfl, opcodeWords (by decide) fun _ => rfl,
    opcodeWords (by decide) fun _ => rfl, fun rt imm rs s => ⟨s.effAddr_toNat rs imm, ?sb, ?sh, ?sw⟩⟩
  case sb =>
    refine s.store_retire_spec _ 1 _ (by decide) _ fun k hk => ?_
    obtain rfl : k = 0 := Nat.lt_one_iff.1 hk
    exact ofNat_low_eq_byteOf _ (by decide) hk
  case sh => exact s.store_retire_spec _ 2 _ (by decide) _ fun k hk => ofNat_low_eq_byteOf _ (by decide) hk
  case sw => exact s.store_retire_spec _ 4 _ (by decide) _ fun k _ => (byteOf_eq_ofNat _ k).symm

end Sys2Proof.Machine
end

section
/-! PROOF. The partial-word loads (45_unaligned.md). Both are `State.load_spec`; the word merged is that of
`mergeLeft_byte` and `mergeRight_byte`, so what is left to say is that the bytes read are those of the aligned word. -/

namespace Sys2Proof.Machine

/-! ### The aligned word (R205) -/

theorem wordBase_aligned (a : Word) : (wordBase a).toNat % 4 = 0 := by
  rw [wordBase_toNat, wordOffset]
  omega

/-! ### The bytes of a partial-word load (R206, R207) -/

/-- R206: `lwl` merges the bytes read from `base` on into the top of the register. -/
theorem mergeLeft_memRead_byte (m : Memory) (base old : Word) {off k : Nat} (ho : off < 4) (hk : k < 4) :
    byteOf (mergeLeft old off (m.memRead base (off + 1))) k =
      if k ≤ off then m.readByte (base + BitVec.ofNat 32 k) else byteOf old k := by
  apply BitVec.eq_of_toNat_eq
  rw [mergeLeft_byte old off _ k ho hk (m.memRead_lt _ _), apply_ite BitVec.toNat, byteOf_toNat]
  refine ite_congr rfl (fun hle => ?_) fun _ => rfl
  exact m.memRead_byte base (off + 1) k (by omega) (by omega)

/-- R207: `lwr` merges the bytes read from `base + off` on into the bottom of the register. -/
theorem mergeRight_memRead_byte (m : Memory) {base a : Word} (old : Word) {off k : Nat}
    (ha : base + BitVec.ofNat 32 off = a) (ho : off < 4) (hk : k < 4) :
    byteOf (mergeRight old off (m.memRead a (4 - off))) k =
      if off ≤ k then m.readByte (base + BitVec.ofNat 32 k) else byteOf old k := by
  apply BitVec.eq_of_toNat_eq
  rw [mergeRight_byte old off _ k ho hk (m.memRead_lt _ _), apply_ite BitVec.toNat, byteOf_toNat]
  refine ite_congr rfl (fun hle => ?_) fun _ => rfl
  have hplace : 4 - off - 1 - (k - off) = 3 - k := by omega
  have haddr : a + BitVec.ofNat 32 (k - off) = base + BitVec.ofNat 32 k := by
    rw [← ha, BitVec.add_assoc, ← BitVec.ofNat_add, Nat.add_sub_cancel' hle]
  have hbyte := m.memRead_byte a (4 - off) (k - off) (by omega) (by omega)
  rwa [hplace, haddr] at hbyte

/-! ### The obligation of 45_unaligned.md -/

/-- Settles O38: `lwl` reads from the aligned word's own address, `lwr` from the effective address, which is `off`
bytes on in that word. -/
theorem loadPartialWord : Obligations.LoadPartialWord := by
  refine ⟨opcodeWords (by decide) fun _ => rfl, opcodeWords (by decide) fun _ => rfl, fun rt imm rs s =>
    ⟨s.effAddr_toNat rs imm, wordBase_aligned _, wordBase_add_offset _, wordOffset_lt _, ?lwl, ?lwr⟩⟩
  case lwl => exact s.load_spec _ _ rt _ fun k hk => mergeLeft_memRead_byte _ _ _ (wordOffset_lt _) hk
  case lwr => exact s.load_spec _ _ rt _ fun k hk => mergeRight_memRead_byte _ _ (wordBase_add _) (wordOffset_lt _) hk

end Sys2Proof.Machine
end

section
/-! PROOF. The halts of 46_system.md that hold at every execution: `break`, and a word that selects no instruction.
Both are the halt transition `State.raise`, with the word at `pc`. -/

namespace Sys2Proof

/-- A word that no row of the opcode table matches selects no instruction (R87 to R89, R95). -/
theorem decodeWord_eq_none_of_no_match {w : Word} (h : ∀ r ∈ opcodeTable, r.matches w = false) :
    decodeWord w = none := by
  refine Option.eq_none_iff_forall_ne_some.2 fun i hi => ?_
  obtain ⟨r, hr, hm⟩ := exists_matches_of_decodeWord hi
  exact Bool.false_ne_true ((h r hr).symm.trans hm)

namespace Machine

/-- R216: `break` is the halt transition with cause `Breakpoint`. -/
theorem exec_brk (s : State) : exec .brk s = .next (s.raise .breakpoint) := rfl

/-! ### The obligations of 46_system.md -/

/-- Settles O45: a word without a row selects no instruction, and the step of such a word is the halt. -/
theorem unimplementedWordHalts : Obligations.UnimplementedWordHalts :=
  fun _ hr hb hc hrows => step_unimplemented hr hb hc (decodeWord_eq_none_of_no_match hrows)

/-- Settles O43: funct 0x0D selects `break` in the SPECIAL table whatever the fields hold, and `break` raises. -/
theorem breakHalts : Obligations.BreakHalts := by
  refine ⟨specialWords fun _ => rfl, fun s => ?halts⟩
  case halts =>
    rw [exec_brk]
    exact s.raise_spec .breakpoint

end Machine

end Sys2Proof
end

section
/-! PROOF. The halts of 60_exceptions.md: which cause a step can stop on, and that the stop is precise. Every halt of
a running core is the one transition `State.halt`, with the word that `recordWord` gives for its cause. -/

namespace Sys2Proof.Machine

/-- `halt` is the halt transition of R250. -/
theorem State.halt_spec (s : State) (c : Cause) (w : Option Word) : HaltsWith (.next (s.halt c w)) s c w := rfl

/-! ### The word of a halt record (R33, R250) -/

/-- Only the control unit ends a run on the budget: it is no instruction's own cause (R245, R249). -/
theorem not_raises_instructionBudgetExceeded (s : State) (i : Instr) : ¬ Raises s .instructionBudgetExceeded i := by
  intro h
  cases i
  case brk => cases h
  all_goals cases h.1

theorem recordWord_of_readable {s : State} {c : Cause} (hc : Readable s s.pc 4)
    (hne : c ≠ .instructionBudgetExceeded) : recordWord s c = some s.fetchWord := by
  rw [State.fetchWord_eq]
  cases c
  case instructionBudgetExceeded => exact absurd rfl hne
  case memoryFault => exact if_pos ((s.canRead_iff _ _).2 hc)
  case exit | breakpoint | unimplementedOpcode | arithmeticEdgeCase => rfl

theorem recordWord_memoryFault_of_not_readable {s : State} (hc : ¬ Readable s s.pc 4) :
    recordWord s .memoryFault = none :=
  if_neg fun e => hc ((s.canRead_iff _ _).1 e)

/-- Once the word at `pc` is fetched, `raise` is the halt with the word that the cause calls for. -/
theorem State.raise_eq_halt_recordWord {s : State} {c : Cause} (hc : Readable s s.pc 4)
    (hne : c ≠ .instructionBudgetExceeded) : s.raise c = s.halt c (recordWord s c) := by
  rw [recordWord_of_readable hc hne]; rfl

/-! ### The causes of a step (R249) -/

theorem stepRaises_of_decode_none {s : State} (hb : s.budget ≠ 0) (hc : Readable s s.pc 4)
    (hi : decodeWord s.fetchWord = none) : StepRaises s .unimplementedOpcode := by
  rw [State.fetchWord_eq] at hi
  exact .inr (.inr ⟨hb, hc, by rw [hi]⟩)

theorem stepRaises_of_raises {s : State} {i : Instr} {c : Cause} (hb : s.budget ≠ 0) (hc : Readable s s.pc 4)
    (hi : decodeWord s.fetchWord = some i) (h : Raises s c i) : StepRaises s c := by
  rw [State.fetchWord_eq] at hi
  exact .inr (.inr ⟨hb, hc, by rw [hi]; exact h⟩)

/-- An instruction that halts a running core raises its own cause; one that retires leaves the core running. -/
theorem exec_halted {i : Instr} {s t : State} {r : HaltRecord} (hr : s.run = .running) (he : exec i s = .next t)
    (ht : t.run = .halted r) : ∃ c, t = s.raise c ∧ Raises s c i := by
  obtain ⟨c, rfl, hraises, -⟩ | ⟨u, d, rfl, hbody, -⟩ := exec_cases he
  · exact ⟨c, rfl, hraises⟩
  · rw [State.retire_run, hbody.run, hr] at ht
    cases ht

/-- A step that halts a running core is the halt transition on a cause that arose, with that cause's word. -/
theorem step_halts {s t : State} {r : HaltRecord} (hr : s.run = .running) (hs : step s = .next t)
    (ht : t.run = .halted r) : ∃ c, t = s.halt c (recordWord s c) ∧ StepRaises s c := by
  obtain ⟨r', hr', -⟩ | ⟨-, hb, rfl⟩ | ⟨-, hb, hc, rfl⟩ | ⟨-, hb, hc, hi, rfl⟩ | ⟨i, -, hb, hc, hi, he⟩ := step_cases hs
  · cases hr.symm.trans hr'
  · exact ⟨_, rfl, .inl ⟨hb, rfl⟩⟩
  · exact ⟨.memoryFault, by rw [recordWord_memoryFault_of_not_readable hc], .inr (.inl ⟨hb, hc, rfl⟩)⟩
  · exact ⟨_, State.raise_eq_halt_recordWord hc (by decide), stepRaises_of_decode_none hb hc hi⟩
  · obtain ⟨c, rfl, hraises⟩ := exec_halted hr he ht
    have hne : c ≠ .instructionBudgetExceeded := by
      rintro rfl
      exact not_raises_instructionBudgetExceeded s i hraises
    exact ⟨c, State.raise_eq_halt_recordWord hc hne, stepRaises_of_raises hb hc hi hraises⟩

/-! ### The obligations of 60_exceptions.md -/

/-- Settles O49: the state after the step is `State.halt` on the cause that arose, which fixes the record; a halted
core steps to itself. -/
theorem haltIsPrecise : Obligations.HaltIsPrecise := by
  intro s t r hr hs ht
  obtain ⟨c, rfl, hraises⟩ := step_halts hr hs ht
  obtain rfl : ⟨c, s.pc, recordWord s c⟩ = r := RunState.halted.inj ht
  exact ⟨rfl, rfl, rfl, hraises, step_halted rfl⟩

/-- Settles O46: the three checks before an instruction, in their order (R226, R249). -/
theorem stepWithoutFetch : Obligations.StepWithoutFetch := by
  refine ⟨fun s r hr => step_halted hr, fun s hr hb => ?budget, fun s hr hb hc => ?fetchFault⟩
  case budget =>
    rw [step_budget_zero hr hb]
    exact s.halt_spec _ _
  case fetchFault =>
    rw [step_fetch hr hb, State.fetchAndExecute_of_not_readable hc]
    exact s.halt_spec _ _

end Sys2Proof.Machine
end

section
/-! PROOF. The encoder and the decoder (30_encoding.md §1 to §3): an instruction's word decodes to it, and a word
decodes to an instruction exactly when it agrees with the instruction's own word in the bits that it uses. -/

namespace Sys2Proof

/-! ### The round trip (R82 to R89) -/

/-- The word of an instruction decodes to it: each encoding is looked up in the table of its format. -/
theorem decodeWord_encode (i : Instr) : decodeWord (encode i) = some i := by
  cases i
  case add | addu | sub | subu | and | or | xor | nor | slt | sltu | sll | srl | sra | sllv | srlv | srav | mult |
      multu | div | divu | mfhi | mflo | mthi | mtlo | jr | jalr | syscall | brk =>
    exact decode_encodeR ..
  case j | jal => exact decode_encodeJ _ (by decide) _
  case bltz | bgez | bltzal | bgezal => exact decode_encodeRegimm ..
  case addi | addiu | slti | sltiu | andi | ori | xori | lui | beq | bne | blez | bgtz | lb | lbu | lh | lhu | lw |
      sb | sh | sw | lwl | lwr | swl | swr =>
    exact decode_encodeI _ (by decide) ..

/-- Two instructions have different words. -/
theorem encode_injective : Function.Injective encode := fun i j h =>
  Option.some.inj (by rw [← decodeWord_encode i, h, decodeWord_encode j])

/-- Settles O1: the round trip of the word, and the bytes of a word decode as the word does. -/
theorem decodeOfEncode : Obligations.DecodeOfEncode := by
  refine fun i => ⟨decodeWord_encode i, fun rest => ?_⟩
  rw [decodeBytes_wordBytes, decodeWord_encode]

/-! ### A decoded word in its used bits (R90)

The fields of a word that an instruction uses are those of the instruction's own word, and a field that it does not
use is masked to 0, the value the encoder gives it. -/

theorem fieldOf_zero : fieldOf 0 = 0#5 := rfl

theorem encodeR_and_usedBits {f : RFields} {i : Instr} (h : selectSpecial f = some i) :
    encodeR f.rs f.rt f.rd f.shamt f.funct &&& usedBits i = encode i := by
  unfold selectSpecial at h
  split at h <;> cases h <;>
    simp [*, usedBits, encode, and_eq_iff_rFields, encodeR_extract, fieldOf_zero, and_ones5, and_ones6]

theorem encodeI_and_usedBits_of_regimm {f : IFields} {i : Instr} (hop : f.opcode = 0x01#6)
    (h : selectRegimm f = some i) : encodeI f.opcode f.rs f.rt f.imm &&& usedBits i = encode i := by
  unfold selectRegimm at h
  split at h <;> cases h <;> simp [*, usedBits, encode, and_ones32]

theorem encodeI_and_usedBits_of_primary {f : IFields} {i : Instr} (h : selectPrimary f = some i) :
    encodeI f.opcode f.rs f.rt f.imm &&& usedBits i = encode i := by
  unfold selectPrimary at h
  split at h <;> cases h <;>
    simp [*, usedBits, encode, and_eq_iff_iFields, encodeI_extract, fieldOf_zero, and_ones5, and_ones6, and_ones16]

theorem encodeJ_and_usedBits {f : JFields} {i : Instr} (h : selectJump f = some i) :
    encodeJ f.opcode f.address &&& usedBits i = encode i := by
  unfold selectJump at h
  split at h <;> cases h <;> simp [*, usedBits, encode, and_ones32]

/-- A word that decodes to an instruction agrees with the instruction's own word in the bits it uses: every word is
the encoding of its own fields, in the format of the table it is looked up in. -/
theorem and_usedBits_of_decodeWord {w : Word} {i : Instr} (h : decodeWord w = some i) :
    w &&& usedBits i = encode i := by
  rw [decodeWord_eq] at h
  split at h
  next h0 =>
    have hw := encodeR_and_usedBits h
    rw [rFields_eq] at hw
    rwa [← word_eq_encodeR h0] at hw
  split at h
  next _ h1 =>
    have hop : (iFields w).opcode = 0x01#6 := opcodeField_of h1
    have hw := encodeI_and_usedBits_of_regimm hop h
    rw [iFields_eq] at hw
    rwa [← word_eq_encodeI] at hw
  split at h
  · have hw := encodeJ_and_usedBits h
    rw [jFields_eq] at hw
    rwa [← word_eq_encodeJ] at hw
  · have hw := encodeI_and_usedBits_of_primary h
    rw [iFields_eq] at hw
    rwa [← word_eq_encodeI] at hw

/-! ### A word in the used bits of an instruction (R90) -/

/-- The used bits of the instruction that a name stands for, by its row in the opcode table. -/
def usedBitsNamed (name : String) : Word :=
  ((opcodeTable.find? (·.mnemonic == name)).bind fun r => decodeWord r.pattern).elim 0#32 usedBits

/-- Which bits an instruction uses depends on its name alone, and not on its operands. -/
theorem usedBits_eq_named (i : Instr) : usedBits i = usedBitsNamed i.mnemonic := by
  cases i <;> rfl

/-- An instruction uses every bit that selects it. -/
theorem usedBitsNamed_and_mask : ∀ r ∈ opcodeTable, usedBitsNamed r.mnemonic &&& r.mask = r.mask := by decide

/-- A word that agrees with an instruction's own word in the bits it uses decodes to an instruction of that name:
the row that matches the instruction's own word matches it too. -/
theorem decodeWord_mnemonic_of_and_usedBits {i : Instr} {w : Word} (h : w &&& usedBits i = encode i) :
    (decodeWord w).map Instr.mnemonic = some i.mnemonic := by
  obtain ⟨r, hr, hm⟩ := exists_matches_of_decodeWord (decodeWord_encode i)
  have hname : i.mnemonic = r.mnemonic :=
    Option.some.inj (by rw [← decodeWord_mnemonic_of_matches hr hm, decodeWord_encode, Option.map_some])
  have hmask : usedBits i &&& r.mask = r.mask := by
    rw [usedBits_eq_named, hname, usedBitsNamed_and_mask r hr]
  have hw : r.matches w = true := by
    rw [r.matches_iff, and_mask_of_and h hmask, (r.matches_iff _).1 hm]
  rw [hname, decodeWord_mnemonic_of_matches hr hw]

/-- Settles O2: from left to right by the fields of the word. From right to left the word decodes to an instruction
of the same name, which uses the same bits and so has the same word. -/
theorem decodeIgnoresUnusedBits : Obligations.DecodeIgnoresUnusedBits := by
  refine fun i w => ⟨and_usedBits_of_decodeWord, fun h => ?_⟩
  obtain ⟨j, hj, hname⟩ := Option.map_eq_some_iff.1 (decodeWord_mnemonic_of_and_usedBits h)
  have hused : usedBits j = usedBits i := by rw [usedBits_eq_named j, hname, ← usedBits_eq_named]
  have hword : encode j = encode i := by rw [← and_usedBits_of_decodeWord hj, hused, h]
  rw [hj, encode_injective hword]

/-- Settles O5: each word is decoded by evaluation. -/
theorem sampleWordsDecode : Obligations.SampleWordsDecode := by
  unfold Obligations.SampleWordsDecode
  decide

end Sys2Proof
end

section
/-! PROOF. What one step of a running core can do (R226, R249), and what every step keeps: the invariant, the
alignment of `pc`, the parameters of a run; how the budget counts; and that every run ends. -/

namespace Sys2Proof.Machine

/-! ### A step of a running core -/

/-- A step of a running core that leaves it running retires an instruction: the one at `pc`. -/
theorem step_retires {s t : State} (hr : s.run = .running) (hs : step s = .next t) (ht : t.run = .running) :
    ∃ i u d, s.budget ≠ 0 ∧ decodeWord s.fetchWord = some i ∧ t = u.retire d ∧ Body i s u d := by
  obtain ⟨r, hr', -⟩ | ⟨-, -, rfl⟩ | ⟨-, -, -, rfl⟩ | ⟨-, -, -, -, rfl⟩ | ⟨i, -, hb, -, hi, he⟩ := step_cases hs
  · cases hr.symm.trans hr'
  · cases ht
  · cases ht
  · cases ht
  · obtain ⟨c, rfl, -⟩ | ⟨u, d, rfl, hbody, -⟩ := exec_cases he
    · cases ht
    · exact ⟨i, u, d, hb, hi, rfl, hbody⟩

/-- What a step can do, by its effect: nothing when the core is halted, the halt transition on a cause that arose, or
an instruction that retires. -/
theorem step_effect {s t : State} (hs : step s = .next t) :
    (s.run ≠ .running ∧ t = s) ∨
    (s.run = .running ∧ ∃ c, t = s.halt c (recordWord s c) ∧ StepRaises s c) ∨
    (s.run = .running ∧ ∃ i u d, s.budget ≠ 0 ∧ decodeWord s.fetchWord = some i ∧ t = u.retire d ∧ Body i s u d) := by
  cases hr : s.run with
  | halted r => exact .inl ⟨nofun, Host.Outcome.next.inj (hs.symm.trans (step_halted hr))⟩
  | running =>
    cases ht : t.run with
    | halted r => exact .inr (.inl ⟨rfl, step_halts hr hs ht⟩)
    | running => exact .inr (.inr ⟨rfl, step_retires hr hs ht⟩)

/-- Executing an instruction answers a next state. -/
theorem exec_next (i : Instr) (s : State) : ∃ t, exec i s = .next t := by
  obtain ⟨c, he, -⟩ | ⟨u, d, he, -⟩ := exec_effect i s
  · exact ⟨_, he⟩
  · exact ⟨_, he⟩

/-- Settles O48: by the checks of one step in their order (R249); every one of them answers a next state. -/
theorem everyStepAnswersNext : Obligations.EveryStepAnswersNext := by
  intro s
  cases hr : s.run with
  | halted r => exact ⟨_, step_halted hr⟩
  | running =>
    by_cases hb : s.budget = 0
    · exact ⟨_, step_budget_zero hr hb⟩
    rw [step_fetch hr hb]
    by_cases hc : Readable s s.pc 4
    · rw [State.fetchAndExecute_of_readable hc]
      cases hi : decodeWord s.fetchWord with
      | none => exact ⟨_, State.execWord_none hi⟩
      | some i => rw [State.execWord_some hi]; exact exec_next i s
    · exact ⟨_, State.fetchAndExecute_of_not_readable hc⟩

/-! ### The invariant (R20, R33, R35, R243) -/

theorem StepRaises.budget_iff {s : State} {c : Cause} (h : StepRaises s c) :
    c = .instructionBudgetExceeded ↔ s.budget = 0 := by
  obtain ⟨hb, rfl⟩ | ⟨hb, -, rfl⟩ | ⟨hb, -, h⟩ := h
  · exact ⟨fun _ => hb, fun _ => rfl⟩
  · exact ⟨nofun, fun e => absurd e hb⟩
  · refine ⟨?_, fun e => absurd e hb⟩
    rintro rfl
    split at h
    · cases h
    · exact absurd h (not_raises_instructionBudgetExceeded s _)

/-- A memory fault is raised on bytes that cannot be read, which strict mode alone has (R63, R243). -/
theorem Raises.not_readable {s : State} {i : Instr} (h : Raises s .memoryFault i) : ∃ a n, ¬ Readable s a n := by
  cases i
  case brk => cases h
  case div | divu | syscall => cases h.1
  all_goals
    obtain ⟨-, a, n, -, hr⟩ := h
    exact ⟨a, n, hr⟩

theorem StepRaises.not_readable {s : State} (h : StepRaises s .memoryFault) : ∃ a n, ¬ Readable s a n := by
  obtain ⟨-, hc⟩ | ⟨-, hr, -⟩ | ⟨-, -, h⟩ := h
  · cases hc
  · exact ⟨_, _, hr⟩
  · split at h
    · cases h
    · exact h.not_readable

theorem StepRaises.strict {s : State} (h : StepRaises s .memoryFault) : s.present ≠ none := by
  obtain ⟨a, n, hr⟩ := h.not_readable
  exact fun hp => hr (readable_of_tolerant hp a n)

/-- The halt transition on a cause that arose leaves a record that is true of the state. -/
theorem Invariant.halt {s : State} (h : Invariant s) {c : Cause} (hc : StepRaises s c) :
    Invariant (s.halt c (recordWord s c)) where
  mem := h.mem
  zero := h.zero
  present := h.present
  record r hr := by
    obtain rfl : ⟨c, s.pc, recordWord s c⟩ = r := RunState.halted.inj hr
    refine ⟨rfl, rfl, hc.budget_iff, ?_⟩
    rintro rfl
    exact hc.strict

/-- An instruction that retires keeps the invariant. -/
theorem Body.invariant {i : Instr} {s u : State} {d : Directive} (hb : Body i s u d) (h : Invariant s)
    (hr : s.run = .running) : Invariant (u.retire d) where
  mem := hb.wf h.mem
  zero := hb.zero.trans h.zero
  present := hb.present h.present
  record r hrec := by
    rw [State.retire_run, hb.run, hr] at hrec
    cases hrec

/-- Settles O13: by the effect of the step. -/
theorem invKeptByStep : Obligations.InvKeptByStep := by
  intro s t hinv hs
  obtain ⟨-, rfl⟩ | ⟨-, c, rfl, hc⟩ | ⟨hr, i, u, d, -, -, rfl, hbody⟩ := step_effect hs
  · exact hinv
  · exact hinv.halt hc
  · exact hbody.invariant hinv hr

/-- The invariant after reset is the good form of the inputs: the core is running, with no halt record. -/
theorem invariant_resetWith {p : ResetInputs} (h : InputsWf p) : Invariant (State.resetWith p) where
  mem := h.mem
  zero := by
    rw [State.resetWith_eq_writeReg]
    simp only [State.gpr_zero_writeReg]
    exact Vector.getElem_replicate _
  present := h.present
  record _ hr := by cases hr

/-- The model's own inputs list no byte and are tolerant (log entries 1 and 2). -/
theorem inputsWf_default : InputsWf Config.resetInputs := ⟨Memory.wf_nil, nofun⟩

/-- Settles O12: for inputs in good form, which the model's own are. -/
theorem invHoldsAtReset : Obligations.InvHoldsAtReset :=
  ⟨invariant_resetWith inputsWf_default, fun _ => invariant_resetWith⟩

/-! ### The alignment of `pc` (R29, D13) -/

theorem aligned_add_four {pc : Word} (h : pc.toNat % 4 = 0) : (pc + 4#32).toNat % 4 = 0 := by
  rw [BitVec.toNat_add, BitVec.toNat_ofNat]
  omega

/-- An instruction that retires leaves an aligned `pc` aligned: it moves on by 4, or jumps to an aligned target. -/
theorem Body.retire_aligned {i : Instr} {s u : State} {d : Directive} (hb : Body i s u d)
    (hi : jumpsByRegister i = false) (h : s.pc.toNat % 4 = 0) : (u.retire d).pc.toNat % 4 = 0 := by
  cases d with
  | noJump =>
    have hpc : (u.retire .noJump).pc = s.pc + 4#32 := congrArg (· + 4#32) hb.pc
    rw [hpc]
    exact aligned_add_four h
  | jumpTo p => exact hb.aligned hi h p rfl

/-- Settles O33: a step that retires no instruction leaves `pc` as it is. -/
theorem alignmentKeptButByRegisterJumps : Obligations.AlignmentKeptButByRegisterJumps := by
  intro s t hs hpc hi
  obtain ⟨-, rfl⟩ | ⟨-, c, rfl, -⟩ | ⟨-, i, u, d, -, hdec, rfl, hbody⟩ := step_effect hs
  · exact hpc
  · exact hpc
  · exact hbody.retire_aligned (hi i hdec) hpc

/-! ### The parameters of a run (R8, R225) -/

/-- Settles O56: by the effect of the step, and what an instruction leaves as it was before it retires. -/
theorem parametersConstant : Obligations.ParametersConstant := by
  intro s t hs
  obtain ⟨-, rfl⟩ | ⟨hr, c, rfl, -⟩ | ⟨hr, i, u, d, -, -, rfl, hbody⟩ := step_effect hs
  · exact ⟨rfl, Iff.rfl, fun _ => rfl⟩
  · exact ⟨rfl, Iff.rfl, fun hn => absurd hr hn⟩
  · exact ⟨hbody.bridge, hbody.strict, fun hn => absurd hr hn⟩

/-! ### The budget and the end of a run (R228, R232) -/

theorem Body.budget_retire {i : Instr} {s u : State} {d : Directive} (hb : Body i s u d) :
    (u.retire d).budget = s.budget - 1 := congrArg (· - 1) hb.budget

theorem Body.run_retire {i : Instr} {s u : State} {d : Directive} (hb : Body i s u d) : (u.retire d).run = s.run :=
  hb.run

/-- Settles O51: a halting step leaves the budget, and an instruction that retires takes one unit of it. -/
theorem budgetCountsCompleted : Obligations.BudgetCountsCompleted := by
  intro s t hr hs
  obtain ⟨hn, -⟩ | ⟨-, c, rfl, -⟩ | ⟨-, i, u, d, hb, -, rfl, hbody⟩ := step_effect hs
  · exact absurd hr hn
  · exact ⟨nofun, fun _ => rfl⟩
  · refine ⟨fun _ => ?_, fun hn => absurd (hbody.run_retire.trans hr) hn⟩
    rw [hbody.budget_retire]
    omega

/-- A run ends in a halted state within `n + 1` steps, after which it stays there. -/
def EndsWithin (s : State) (n : Nat) : Prop :=
  ∃ t r, t.run = .halted r ∧ ∀ k, n + 1 ≤ k → Host.Core.run core k s = .next t

theorem endsWithin_of_halted {s : State} {r : HaltRecord} (h : s.run = .halted r) (n : Nat) : EndsWithin s n :=
  ⟨s, r, h, fun k _ => run_halted h k⟩

/-- A step that halts ends the run. -/
theorem endsWithin_of_step_halted {s t : State} {r : HaltRecord} (hs : step s = .next t) (ht : t.run = .halted r)
    (n : Nat) : EndsWithin s n := by
  refine ⟨t, r, ht, fun k hk => ?_⟩
  obtain ⟨k, rfl⟩ := Nat.exists_eq_add_of_lt hk
  rw [run_succ hs, run_halted ht]

/-- A run that ends within `n + 1` steps of the next state ends within one more. -/
theorem EndsWithin.of_step {s t : State} {n : Nat} (hs : step s = .next t) (h : EndsWithin t n) :
    EndsWithin s (n + 1) := by
  obtain ⟨e, r, he, hrun⟩ := h
  refine ⟨e, r, he, fun k hk => ?_⟩
  obtain ⟨k, rfl⟩ := Nat.exists_eq_add_of_lt hk
  rw [run_succ hs]
  exact hrun _ (by omega)

/-- The budget bounds the run: a step that does not halt takes one unit of it, and at 0 a step halts. -/
theorem endsWithin_budget (n : Nat) (s : State) (h : s.budget = n) : EndsWithin s n := by
  induction n generalizing s with
  | zero =>
    cases hr : s.run with
    | halted r => exact endsWithin_of_halted hr 0
    | running => exact endsWithin_of_step_halted (step_budget_zero hr h) rfl 0
  | succ n ih =>
    cases hr : s.run with
    | halted r => exact endsWithin_of_halted hr (n + 1)
    | running =>
      obtain ⟨t, hs⟩ := everyStepAnswersNext s
      cases ht : t.run with
      | halted r => exact endsWithin_of_step_halted hs ht (n + 1)
      | running =>
        have hb : t.budget + 1 = s.budget := (budgetCountsCompleted s t hr hs).1 ht
        exact .of_step hs (ih t (by omega))

/-- Settles O57: by induction on the budget. -/
theorem everyRunEnds : Obligations.EveryRunEnds := fun s => endsWithin_budget s.budget s rfl

end Sys2Proof.Machine
end

section
/-! PROOF. What every instruction does and leaves alone, by the case split of `exec_cases`: its own causes, `pc`,
memory and the registers. -/

namespace Sys2Proof.Machine

/-- Settles O50: a halt is with the one cause that arises; an instruction that retires has none. -/
theorem onlyOwnCauseHalts : Obligations.OnlyOwnCauseHalts := by
  intro i s t hr he c
  obtain ⟨c₀, rfl, hraises, huniq⟩ | ⟨u, d, rfl, hbody, hnone⟩ := exec_cases he
  · refine ⟨?_, fun hc => ⟨⟨c₀, s.pc, some s.fetchWord⟩, rfl, (huniq c hc).symm⟩⟩
    rintro ⟨r, hrec, rfl⟩
    cases hrec
    exact hraises
  · refine ⟨?_, fun hc => absurd hc (hnone c)⟩
    rintro ⟨r, hrec, -⟩
    cases (hbody.run_retire.trans hr).symm.trans hrec

/-- Settles O53: an instruction that cannot jump retires with no jump. -/
theorem pcAdvancesByFour : Obligations.PcAdvancesByFour := by
  intro i s t hj _ he ht
  obtain ⟨c, rfl, -⟩ | ⟨u, d, rfl, hbody, -⟩ := exec_cases he
  · cases ht
  · obtain rfl := hbody.directive hj
    exact congrArg (· + 4#32) hbody.pc

/-- Settles O54: neither the halt nor the end of an instruction touches memory. -/
theorem onlyStoresWriteMemory : Obligations.OnlyStoresWriteMemory := by
  intro i s t hm he
  obtain ⟨c, rfl, -⟩ | ⟨u, d, rfl, hbody, -⟩ := exec_cases he
  · exact MemKept.refl s
  · obtain ⟨hmem, hpresent⟩ := hbody.mem hm
    exact ⟨fun a => congrArg (Memory.readByte · a) hmem, hpresent⟩

/-- Settles O55: neither the halt nor the end of an instruction touches a register. -/
theorem onlyNamedRegistersWritten : Obligations.OnlyNamedRegistersWritten := by
  intro i s t he
  obtain ⟨c, rfl, -⟩ | ⟨u, d, rfl, hbody, -⟩ := exec_cases he
  · exact ⟨fun _ _ => rfl, rfl, fun _ => rfl, fun _ => rfl⟩
  · exact ⟨hbody.regs, rfl, hbody.hi, hbody.lo⟩

/-! ### The budget is not read (R34) -/

/-- The state with another budget. -/
def State.withBudget (s : State) (b : Nat) : State := { s with budget := b }

/-- Two outcomes are next states that differ at most in the budget. -/
def SameButBudget (o o' : Host.Outcome State Fault Refusal) : Prop :=
  ∃ t u, o = .next t ∧ o' = .next u ∧ u.withBudget t.budget = t

theorem State.writeReg_withBudget (s : State) (b : Nat) (i : RegIdx) (v : Word) :
    (s.withBudget b).writeReg i v = (s.writeReg i v).withBudget b := by
  unfold State.writeReg
  split <;> rfl

theorem State.storeBytes_withBudget (s : State) (b : Nat) (ws : List (Word × Byte)) :
    (s.withBudget b).storeBytes ws = (s.storeBytes ws).withBudget b := by
  induction ws generalizing s with
  | nil => rfl
  | cons c ws ih => exact ih (s.store c.1 1 c.2.toNat)

theorem SameButBudget.retire (s : State) (b : Nat) (d : Directive) :
    SameButBudget (.next (s.retire d)) (.next ((s.withBudget b).retire d)) := ⟨_, _, rfl, rfl, rfl⟩

theorem SameButBudget.raise (s : State) (b : Nat) (c : Cause) :
    SameButBudget (.next (s.raise c)) (.next ((s.withBudget b).raise c)) := ⟨_, _, rfl, rfl, rfl⟩

theorem SameButBudget.writeReg_retire (s : State) (b : Nat) (rd : RegIdx) (v : Word) (d : Directive) :
    SameButBudget (.next ((s.writeReg rd v).retire d)) (.next (((s.withBudget b).writeReg rd v).retire d)) := by
  rw [State.writeReg_withBudget]
  exact .retire _ b d

theorem SameButBudget.writeBack (s : State) (b : Nat) (rd : RegIdx) (v : Word) :
    SameButBudget (s.writeBack rd v) ((s.withBudget b).writeBack rd v) := .writeReg_retire s b rd v _

/-- A choice that does not read the budget. -/
theorem SameButBudget.ite {p : Prop} [Decidable p] {o o' q q' : Host.Outcome State Fault Refusal}
    (h : SameButBudget o o') (h' : SameButBudget q q') :
    SameButBudget (if p then o else q) (if p then o' else q') := by
  split
  · exact h
  · exact h'

theorem SameButBudget.load (s : State) (b : Nat) (a : Word) (n : Nat) (rt : RegIdx) (f : Nat → Word) :
    SameButBudget (s.load a n rt f) ((s.withBudget b).load a n rt f) := .ite (.writeBack s b rt _) (.raise s b _)

theorem SameButBudget.branchIf (s : State) (b : Nat) (c : Bool) (imm : BitVec 16) :
    SameButBudget (s.branchIf c imm) ((s.withBudget b).branchIf c imm) := .retire s b _

theorem SameButBudget.branchLinkIf (s : State) (b : Nat) (c : Bool) (imm : BitVec 16) :
    SameButBudget (s.branchLinkIf c imm) ((s.withBudget b).branchLinkIf c imm) :=
  .ite (.writeReg_retire s b linkReg _ _) (.retire s b _)

theorem SameButBudget.resume (s : State) (b : Nat) (r : BridgeAnswer) :
    SameButBudget (.next (s.resume r)) (.next ((s.withBudget b).resume r)) := by
  cases r with
  | ret v ws =>
    simp only [State.resume, State.storeBytes_withBudget]
    exact .writeReg_retire _ b 2 v _
  | exit => exact .raise s b .exit

/-- No instruction reads the budget: every operand is read from the other fields of the state. -/
theorem exec_withBudget (i : Instr) (s : State) (b : Nat) :
    SameButBudget (exec i s) (exec i (s.withBudget b)) := by
  cases i
  case add | addu | sub | subu | and | or | xor | nor | slt | sltu | sll | srl | sra | sllv | srlv | srav | mfhi | mflo |
      addi | addiu | slti | sltiu | andi | ori | xori | lui =>
    exact .writeBack s b _ _
  case mult | multu => exact .retire (s.writeHiLo _ _) b _
  case div | divu => exact .ite (.raise s b _) (.retire (s.writeHiLo _ _) b _)
  case mthi => exact .retire (s.writeHi _) b _
  case mtlo => exact .retire (s.writeLo _) b _
  case j | jr => exact .retire s b _
  case jal | jalr => exact .writeReg_retire s b _ _ _
  case beq | bne | blez | bgtz | bltz | bgez => exact .branchIf s b _ _
  case bltzal | bgezal => exact .branchLinkIf s b _ _
  case lb | lbu | lh | lhu | lw | lwl | lwr => exact .load s b _ _ _ _
  case sb | sh | sw | swl | swr => exact .retire (s.store _ _ _) b _
  case syscall => exact .resume s b _
  case brk => exact .raise s b _

/-- Settles O52: with another budget an instruction answers the same next state but for the budget. -/
theorem budgetInvisible : Obligations.BudgetInvisible := by
  intro i s t b he
  obtain ⟨t', u, he', hu, hsame⟩ := exec_withBudget i s b
  obtain rfl : t = t' := Host.Outcome.next.inj (he.symm.trans he')
  exact ⟨u, hu, hsame⟩

end Sys2Proof.Machine
end

section
/-! PROOF. Which instruction the next step runs: the one that the four bytes at `pc` decode to, also when they were
stored there just before (R68, R226, R233); and what an observer sees between two steps (R231). -/

namespace Sys2Proof.Machine

/-! ### The instruction at `pc` -/

/-- The bytes that decode to an instruction and no bytes after it are the word of it. -/
theorem decodeWord_of_decodeBytes {b0 b1 b2 b3 : Byte} {i : Instr} (h : decodeBytes [b0, b1, b2, b3] = .ok (i, [])) :
    decodeWord (wordOfBytes b0 b1 b2 b3) = some i := by
  simp only [decodeBytes] at h
  split at h
  next j hj =>
    cases h
    exact hj
  next => cases h

/-- Settles O44: the bytes at `pc` are the word that is fetched. -/
theorem stepRunsDecodedInstruction : Obligations.StepRunsDecodedInstruction := by
  intro s i hr hb hc hd
  refine step_eq_exec hr hb hc ?_
  rw [State.fetchWord_eq]
  exact decodeWord_of_decodeBytes hd

/-- Settles O47: the word 0 is `sll` of register 0 into register 0, whose write is discarded. -/
theorem zeroWordIsNop : Obligations.ZeroWordIsNop := by
  intro s hr hb hc hw
  have hdec : decodeWord s.fetchWord = some (.sll 0 0 0#5) := by
    rw [State.fetchWord_eq, hw]
    decide
  rw [step_eq_exec hr hb hc hdec]
  rfl

/-! ### A word stored and then fetched (R68) -/

/-- What is stored can be read: in strict mode a store makes its addresses present (R243). -/
theorem State.readable_store (s : State) (a : Word) (n v : Nat) : Readable (s.store a n v) a n := by
  intro p hp k hk
  obtain ⟨q, -, rfl⟩ := Option.map_eq_some_iff.1 hp
  rw [mem_markPresent, BitVec.add_comm, BitVec.add_sub_cancel, BitVec.toNat_ofNat]
  exact .inr (Nat.lt_of_le_of_lt (Nat.mod_le _ _) hk)

/-- Settles O8: the store leaves at `pc + 4` the word of the register, in bytes that can be read. -/
theorem storeIntoNextFetch : Obligations.StoreIntoNextFetch := by
  intro rt imm rs s ha
  have hexec : exec (.sw rt imm rs) s = .next ((s.store (s.pc + 4#32) 4 (s.readReg rt).toNat).retire .noJump) := by
    rw [← ha]
    rfl
  have hfetch := Memory.readWord_memWrite s.mem (s.pc + 4#32) (s.readReg rt)
  have hread := s.readable_store (s.pc + 4#32) 4 (s.readReg rt).toNat
  refine ⟨_, hexec, hfetch, fun hr hb => ?_⟩
  rw [step_fetch hr hb, State.fetchAndExecute_of_readable hread]
  exact congrArg (State.execWord _) hfetch

/-- Settles O59: the placed word is fetched, and the bytes placed can be read. -/
theorem placedWordRunsNext : Obligations.PlacedWordRunsNext := by
  intro s i w hi
  have hread := s.readable_store s.pc 4 (BitVec.ofNat 32 (w % 2 ^ 32)).toNat
  have hfetch : (s.withFetchWord 32 w).fetchWord = BitVec.ofNat 32 (w % 2 ^ 32) := Memory.readWord_memWrite s.mem _ _
  have hdec : decodeWord (s.withFetchWord 32 w).fetchWord = some i := by rw [hfetch, ← decodeTableWord_eq, hi]
  exact step_eq_exec rfl (Nat.ne_of_gt (Nat.le_max_right _ _)) hread hdec

/-! ### The snapshot (R21, R231) -/

/-- Settles O58: slot by slot. -/
theorem snapshotShowsRegisters : Obligations.SnapshotShowsRegisters := by
  intro s
  refine ⟨rfl, ?hi, ?lo, fun r => ?reg⟩
  case hi => exact Vector.getElem_ofFn _
  case lo => exact Vector.getElem_ofFn _
  case reg => exact (Vector.getElem_ofFn _).trans (dif_pos r.isLt)

end Sys2Proof.Machine
end

section
/-! PROOF. Two laws of operands and comparisons that the spec marks as derived (40_alu.md §1, 45_unaligned.md §1). -/

namespace Sys2Proof.Machine

/-- Settles O34: the sum of an effective address, and the two parts of an address. -/
theorem effectiveAddress : Obligations.EffectiveAddress :=
  ⟨State.effAddr_toNat, fun a => ⟨wordOffset_lt a, wordBase_aligned a, wordBase_add_offset a⟩⟩

theorem negative_eq_msb (v : Word) : negative v = v.msb := (BitVec.msb_eq_getLsbD_last v).symm

/-- C1: the signed comparison is the unsigned one, turned round when the signs differ. -/
theorem lessSigned_eq (a b : Word) : lessSigned a b = ((negative a != negative b) ^^ lessUnsigned a b) := by
  rw [negative_eq_msb, negative_eq_msb]
  exact BitVec.slt_eq_ult

theorem flagWord_inj (c d : Bool) : flagWord c = flagWord d ↔ c = d := by
  revert c d
  decide

/-- Settles O19: the two results are the flag words of the two comparisons. -/
theorem sltSltuDifferBySign : Obligations.SltSltuDifferBySign := by
  intro rd rs rt s hrd
  refine ⟨_, _, rfl, rfl, ?_⟩
  simp only [State.readReg_retire, State.readReg_writeReg, if_neg hrd, if_true, ne_eq, flagWord_inj, lessSigned_eq]
  cases lessUnsigned (s.readReg rs) (s.readReg rt) <;> simp

end Sys2Proof.Machine
end

section
/-! PROOF. Accesses of several bytes (20_memory.md §2), in powers of 2. -/

namespace Sys2Proof

/-- `n` bytes are `8 * n` bits. -/
theorem pow_256_eq (n : Nat) : 256 ^ n = 2 ^ (8 * n) := (Nat.pow_mul 2 8 n).symm

/-- Canonical memories list nothing outside the address space, so those that read alike in it are equal. -/
theorem Memory.ext_of_readByte {m q : Memory} (hm : m.wf) (hq : q.wf) (h : ∀ a : Word, m.readByte a = q.readByte a) :
    m = q := by
  refine ext_of_wf hm hq fun a => ?_
  by_cases ha : a < 2 ^ 32
  · have haddr : (BitVec.ofNat 32 a).toNat = a := Nat.mod_eq_of_lt ha
    have hread := h (BitVec.ofNat 32 a)
    rwa [Memory.readByte, Memory.readByte, haddr] at hread
  · rw [read_of_ge hm (Nat.le_of_not_lt ha), read_of_ge hq (Nat.le_of_not_lt ha)]

/-- Settles O7: the recursion of `MemRead`, a write read back and byte by byte, and the two laws of the canonical
form. -/
theorem memoryMultiByteLaws : Obligations.MemoryMultiByteLaws := by
  refine ⟨fun m a n => ?compose, fun m a n v hn hv => ?readBack, fun m a x n v hn => ?bytes,
    fun m a n v hm => Memory.wf_memWrite hm a n v, fun m q hm hq h => Memory.ext_of_readByte hm hq h⟩
  case compose => rw [Memory.memRead_succ, pow_256_eq]
  case readBack => rw [Memory.memRead_memWrite m a n v (by omega), pow_256_eq, Nat.mod_eq_of_lt hv]
  case bytes => rw [Memory.readByte_memWrite m a x n v (by omega), pow_256_eq]

end Sys2Proof
end

section
/-! PROOF. Start-up from an image (70_reset_and_hazards.md §1): the memory that its segments give, segment by segment,
and the state after reset with it. -/

namespace Sys2Proof.Machine

/-! ### The memory of an image (R271) -/

/-- The byte at an offset of a segment is that of the file, or 0 past the bytes of the file. -/
theorem readByte_imageMemory_append {e : ExecutableImage} {gs : List Segment} {g : Segment}
    (he : e.segments = gs ++ [g]) (hlen : (segmentBytes e.file g).length ≤ 2 ^ 32) (a : Word) :
    (imageMemory e).readByte a =
      if (a - g.loadAddress).toNat < max g.fileLength g.memorySize then
        if (a - g.loadAddress).toNat < g.fileLength then
          e.file.getD (g.fileOffset + (a - g.loadAddress).toNat) 0#8 else 0#8
      else (imageMemory { e with segments := gs }).readByte a := by
  rw [imageMemory_append e gs g he, placeBytes_spec _ _ _ _ hlen, ← length_segmentBytes e.file g]
  split
  · exact getElem_segmentBytes ..
  · rfl

/-- Settles O11: the last segment over what those before it put there. -/
theorem imageMemoryBySegments : Obligations.ImageMemoryBySegments := by
  refine ⟨fun e he a => ?_, fun e gs g he hfile hmem a => ?_⟩
  · rw [imageMemory, he]
    rfl
  · have hlen : (segmentBytes e.file g).length ≤ 2 ^ 32 := by
      rw [length_segmentBytes]
      exact Nat.max_le.2 ⟨hfile, hmem⟩
    rw [readByte_imageMemory_append he hlen]
    by_cases hf : (a - g.loadAddress).toNat < g.fileLength
    · rw [if_pos (Nat.lt_of_lt_of_le hf (Nat.le_max_left _ _)), if_pos hf, if_pos hf]
    · rw [if_neg hf, if_neg hf]
      refine if_congr ?_ rfl rfl
      omega

/-! ### The inputs that an image gives (R8, R243, R271) -/

/-- Placing segments one after another keeps the canonical form. -/
theorem wf_foldl_placeBytes (file : List Byte) (gs : List Segment) {m : Memory} (h : m.wf) :
    (gs.foldl (fun m g => placeBytes m g.loadAddress (segmentBytes file g)) m).wf := by
  induction gs generalizing m with
  | nil => exact h
  | cons g gs ih => exact ih (wf_placeBytes h _ _)

/-- What the segments place is present when they are marked, if none places more bytes than its size. -/
theorem covered_foldl_placeBytes (file : List Byte) (gs : List Segment) (hgs : ∀ g ∈ gs, g.fileLength ≤ g.memorySize)
    {m : Memory} {p : List Nat} (h : ∀ c ∈ m, c.1 ∈ p) :
    ∀ c ∈ gs.foldl (fun m g => placeBytes m g.loadAddress (segmentBytes file g)) m,
      c.1 ∈ gs.foldl (fun p g => markPresent p g.loadAddress g.memorySize) p := by
  induction gs generalizing m p with
  | nil => exact h
  | cons g gs ih =>
    have hlen : (segmentBytes file g).length ≤ g.memorySize := by
      rw [length_segmentBytes]
      exact Nat.max_le.2 ⟨hgs g List.mem_cons_self, Nat.le_refl _⟩
    exact ih (fun g hg => hgs g (List.mem_cons_of_mem _ hg)) (covered_placeBytes h _ _ _ hlen)

/-- The addresses that are present: in order, in the address space, and those that a segment covers. -/
theorem imagePresent_spec (e : ExecutableImage) :
    (imagePresent e).Pairwise (· < ·) ∧ (∀ a ∈ imagePresent e, a < 2 ^ 32) ∧
    ∀ a : Word, a.toNat ∈ imagePresent e ↔ ∃ g ∈ e.segments, (a - g.loadAddress).toNat < g.memorySize := by
  obtain ⟨hord, hlt, hmem⟩ := markSegments_spec e.segments [] List.Pairwise.nil nofun
  refine ⟨hord, hlt, fun a => (hmem a).trans ?_⟩
  simp only [List.not_mem_nil, false_or]

/-- The inputs that an image gives are in good form, in strict mode when no segment has more bytes in the file than
in memory. -/
theorem inputsWf_resetInputs {e : ExecutableImage} {strict : Bool} (budget : Nat) (bridge : List BridgeRow)
    (h : strict = true → ∀ g ∈ e.segments, g.fileLength ≤ g.memorySize) :
    InputsWf (e.resetInputs budget strict bridge) where
  mem := wf_foldl_placeBytes e.file e.segments Memory.wf_nil
  present q hq := by
    cases strict with
    | false => cases hq
    | true =>
      obtain rfl : imagePresent e = q := Option.some.inj hq
      obtain ⟨hord, hlt, -⟩ := imagePresent_spec e
      exact ⟨hord, hlt, covered_foldl_placeBytes e.file e.segments (h rfl) nofun⟩

/-- Settles O10: start-up is the reset with the image's inputs, and a reset reads nothing of the state before it. -/
theorem bootFromImage : Obligations.BootFromImage := by
  refine ⟨fun _ _ => rfl, fun _ _ _ => rfl, fun e budget strict bridge => ⟨_, rfl, rfl, rfl, ?_, ?_, ?_, rfl, rfl, rfl,
    ?tolerant, ?strict, fun h => invariant_resetWith (inputsWf_resetInputs budget bridge h)⟩⟩
  case tolerant => rintro rfl; rfl
  case strict =>
    rintro rfl
    obtain ⟨-, -, hmem⟩ := imagePresent_spec e
    exact ⟨imagePresent e, rfl, hmem⟩
  all_goals
    rw [State.readReg_resetWith]
    rfl

end Sys2Proof.Machine
end

section
/-! PROOF. The partial-word stores, and the pairs of partial-word loads and stores (45_unaligned.md §2, §3). A pair
reaches every byte of the aligned word: `lwl` and `swl` those up to the offset, `lwr` and `swr` those from it on. -/

namespace Sys2Proof.Machine

/-! ### The bytes of a partial-word store (R208, R209) -/

/-- R208: byte `k` of what `swl` stores is byte `k` of the register. -/
theorem ofNat_storeLeft_eq_byteOf (v : Word) {off k : Nat} (ho : off < 4) (hk : k < off + 1) :
    BitVec.ofNat 8 (storeLeft v off / 256 ^ (off + 1 - 1 - k)) = byteOf v k := by
  have hplace : 3 - k = 3 - off + (off + 1 - 1 - k) := by omega
  rw [byteOf_eq_ofNat, storeLeft, ← pow_256_eq, Nat.div_div_eq_div_mul, ← Nat.pow_add, ← hplace]

/-- R209: byte `k` of what `swr` stores is byte `off + k` of the register. -/
theorem ofNat_storeRight_eq_byteOf (v : Word) {off k : Nat} (ho : off < 4) (hk : k < 4 - off) :
    BitVec.ofNat 8 (storeRight v off / 256 ^ (4 - off - 1 - k)) = byteOf v (off + k) := by
  have hlow : (v.extractLsb' 0 (8 * (4 - off))).toNat = storeRight v off := BitVec.extractLsb'_toNat ..
  have hplace : 4 - (4 - off) + k = off + k := by omega
  rw [← hlow, ofNat_low_eq_byteOf v (Nat.sub_le 4 off) hk, hplace]

theorem exec_swl_spec (rt : RegIdx) (imm : BitVec 16) (rs : RegIdx) (s : State) :
    Stores (exec (.swl rt imm rs) s) s (wordBase (s.effAddr rs imm)) (wordOffset (s.effAddr rs imm) + 1)
      (byteOf (s.readReg rt)) := by
  have ho := wordOffset_lt (s.effAddr rs imm)
  exact s.store_retire_spec _ _ _ (by omega) _ fun k hk => ofNat_storeLeft_eq_byteOf _ ho hk

theorem exec_swr_spec (rt : RegIdx) (imm : BitVec 16) (rs : RegIdx) (s : State) :
    Stores (exec (.swr rt imm rs) s) s (s.effAddr rs imm) (4 - wordOffset (s.effAddr rs imm))
      (fun k => byteOf (s.readReg rt) (wordOffset (s.effAddr rs imm) + k)) := by
  have ho := wordOffset_lt (s.effAddr rs imm)
  exact s.store_retire_spec _ _ _ (by omega) _ fun k hk => ofNat_storeRight_eq_byteOf _ ho hk

/-- Settles O39: the bytes stored are those of the register, from `base` on or from the address on. -/
theorem storePartialWord : Obligations.StorePartialWord :=
  ⟨opcodeWords (by decide) fun _ => rfl, opcodeWords (by decide) fun _ => rfl, fun rt imm rs s =>
    ⟨exec_swl_spec rt imm rs s, exec_swr_spec rt imm rs s⟩⟩

/-! ### A pair of stores (R211) -/

/-- The bytes from `base + off` on that lie in the word at `base`, by their distance from `base`. -/
theorem sub_toNat_lt_iff {x base a : Word} {off : Nat} (ha : base + BitVec.ofNat 32 off = a) (ho : off < 4) :
    (x - a).toNat < 4 - off ↔ off ≤ (x - base).toNat ∧ (x - base).toNat < 4 := by
  have := x.isLt
  have := base.isLt
  subst ha
  simp only [BitVec.toNat_sub, BitVec.toNat_add, BitVec.toNat_ofNat]
  omega

theorem add_sub_toNat {x base a : Word} {off : Nat} (ha : base + BitVec.ofNat 32 off = a) (ho : off < 4)
    (h : off ≤ (x - base).toNat) : off + (x - a).toNat = (x - base).toNat := by
  have := x.isLt
  have := base.isLt
  subst ha
  simp only [BitVec.toNat_sub, BitVec.toNat_add, BitVec.toNat_ofNat] at *
  omega

/-- `t` is `s` with those bytes of the word at `base` that `p` picks stored from `v`, and the registers kept. -/
def PartStored (s t : State) (base v : Word) (p : Nat → Prop) [DecidablePred p] : Prop :=
  RegsKept s t ∧ ∀ x : Word, t.mem.readByte x =
    if (x - base).toNat < 4 ∧ p (x - base).toNat then byteOf v (x - base).toNat else s.mem.readByte x

/-- R208: `swl` stores the bytes up to the offset. -/
theorem exec_swl_partStored (rt : RegIdx) (imm : BitVec 16) (rs : RegIdx) (s : State) :
    ∃ t, exec (.swl rt imm rs) s = .next t ∧
      PartStored s t (wordBase (s.effAddr rs imm)) (s.readReg rt) (· ≤ wordOffset (s.effAddr rs imm)) := by
  obtain ⟨t, he, ⟨hbytes, -⟩, hregs, -⟩ := exec_swl_spec rt imm rs s
  have ho := wordOffset_lt (s.effAddr rs imm)
  refine ⟨t, he, hregs, fun x => (hbytes x).trans (if_congr ?_ rfl rfl)⟩
  omega

/-- R209: `swr` stores the bytes from the offset on. -/
theorem exec_swr_partStored (rt : RegIdx) (imm : BitVec 16) (rs : RegIdx) (s : State) :
    ∃ t, exec (.swr rt imm rs) s = .next t ∧
      PartStored s t (wordBase (s.effAddr rs imm)) (s.readReg rt) (wordOffset (s.effAddr rs imm) ≤ ·) := by
  obtain ⟨t, he, ⟨hbytes, -⟩, hregs, -⟩ := exec_swr_spec rt imm rs s
  have ho := wordOffset_lt (s.effAddr rs imm)
  have ha := wordBase_add (s.effAddr rs imm)
  refine ⟨t, he, hregs, fun x => (hbytes x).trans (ite_congr ?_ (fun h => ?_) fun _ => rfl)⟩
  · rw [sub_toNat_lt_iff ha ho, and_comm]
  · exact congrArg (byteOf _) (add_sub_toNat ha ho h.2)

theorem RegsKept.effAddr {s t : State} (h : RegsKept s t) (rs : RegIdx) (imm : BitVec 16) :
    t.effAddr rs imm = s.effAddr rs imm := congrArg (· + sext16 imm) (h rs)

/-- Two stores of parts of one word that reach all its bytes store the word. -/
theorem PartStored.trans {s t u : State} {base v : Word} {p q : Nat → Prop} [DecidablePred p] [DecidablePred q]
    (h : PartStored s t base v p) (h' : PartStored t u base v q) (hpq : ∀ k, p k ∨ q k) (x : Word) :
    u.mem.readByte x = if (x - base).toNat < 4 then byteOf v (x - base).toNat else s.mem.readByte x := by
  rw [h'.2 x, h.2 x]
  by_cases hx : (x - base).toNat < 4
  · rcases hpq (x - base).toNat with hp | hq
    · simp only [hx, hp, and_self, if_true, ite_self]
    · simp only [hx, hq, and_self, if_true]
  · simp only [hx, false_and, if_false]

/-- The word at an address is `v` when the bytes there are those of `v`. -/
theorem wordAt_eq_of_bytes {m : Memory} {base v : Word}
    (h : ∀ k, k < 4 → m.readByte (base + BitVec.ofNat 32 k) = byteOf v k) : wordAt m base = v :=
  byteOf_ext fun k hk => by rw [byteOf_wordAt m base k hk, h k hk]

theorem wordAt_of_stored {m m' : Memory} {base v : Word} (h : ∀ x : Word, m'.readByte x =
    if (x - base).toNat < 4 then byteOf v (x - base).toNat else m.readByte x) : wordAt m' base = v := by
  refine wordAt_eq_of_bytes fun k hk => ?_
  have hdist : (base + BitVec.ofNat 32 k - base).toNat = k := by
    rw [BitVec.add_comm, BitVec.add_sub_cancel, BitVec.toNat_ofNat]
    omega
  rw [h, hdist, if_pos hk]

/-- Settles O41: the first store keeps the registers, so the second stores the rest of the same word. -/
theorem partialStorePair : Obligations.PartialStorePair := by
  intro rt rs imm s
  have hreach (k : Nat) : k ≤ wordOffset (s.effAddr rs imm) ∨ wordOffset (s.effAddr rs imm) ≤ k := Nat.le_total _ _
  obtain ⟨t, ht, hst⟩ := exec_swl_partStored rt imm rs s
  obtain ⟨u, hu, hsu⟩ := exec_swr_partStored rt imm rs s
  obtain ⟨t', ht', htt⟩ := exec_swr_partStored rt imm rs t
  obtain ⟨u', hu', huu⟩ := exec_swl_partStored rt imm rs u
  rw [hst.1.effAddr, hst.1] at htt
  rw [hsu.1.effAddr, hsu.1] at huu
  have hleft := hst.trans htt hreach
  have hright := hsu.trans huu fun k => (hreach k).symm
  exact ⟨t, t', u, u', ht, ht', hu, hu', wordAt_of_stored hleft, wordAt_of_stored hright,
    fun x hx => ⟨(hleft x).trans (if_neg hx), (hright x).trans (if_neg hx)⟩⟩

/-! ### A pair of loads (R210) -/

/-- `t` is `s` with those bytes of register `rt` that `p` picks loaded from the word at `base`, and memory kept. -/
def PartLoaded (s t : State) (rt : RegIdx) (base : Word) (p : Nat → Prop) [DecidablePred p] : Prop :=
  MemKept s t ∧ ∀ k, k < 4 → byteOf (t.readReg rt) k =
    if p k then s.mem.readByte (base + BitVec.ofNat 32 k) else byteOf (s.readReg rt) k

/-- A load whose bytes can be read, into a register that is not 0. -/
theorem Loads.reads {o : Host.Outcome State Fault Refusal} {s : State} {a : Word} {n : Nat} {rt : RegIdx}
    {P : Word → Prop} (h : Loads o s a n rt P) (hrt : rt ≠ 0) (hr : Readable s a n) :
    ∃ t, o = .next t ∧ MemKept s t ∧ P (t.readReg rt) := by
  obtain ⟨t, v, ho, hv, hregs, -, hmem, -⟩ := h.1 hr
  have hreg : t.readReg rt = v := by rw [hregs rt, if_neg hrt, if_pos rfl]
  exact ⟨t, ho, hmem, hreg ▸ hv⟩

/-- Bytes within bytes that can be read can be read. -/
theorem Readable.sub {s : State} {a b : Word} {n m off : Nat} (h : Readable s a n) (hb : a + BitVec.ofNat 32 off = b)
    (hm : off + m ≤ n) : Readable s b m := by
  intro p hp k hk
  have hk' := h p hp (off + k) (by omega)
  rwa [BitVec.ofNat_add, ← BitVec.add_assoc, hb] at hk'

theorem Readable.of_memKept {s t : State} {a : Word} {n : Nat} (h : Readable s a n) (hm : MemKept s t) :
    Readable t a n := fun p hp => h p (hm.2 ▸ hp)

section
variable {rt rs : RegIdx} {imm : BitVec 16} {s : State} (hrt : rt ≠ 0)
  (hr : Readable s (wordBase (s.effAddr rs imm)) 4)
include hrt hr

/-- R206: `lwl` loads the bytes up to the offset. -/
theorem exec_lwl_partLoaded : ∃ t, exec (.lwl rt imm rs) s = .next t ∧
    PartLoaded s t rt (wordBase (s.effAddr rs imm)) (· ≤ wordOffset (s.effAddr rs imm)) := by
  obtain ⟨-, -, hspec⟩ := loadPartialWord
  obtain ⟨-, -, -, ho, hload, -⟩ := hspec rt imm rs s
  exact hload.reads hrt (hr.sub (off := 0) (BitVec.add_zero _) (by omega))

/-- R207: `lwr` loads the bytes from the offset on. -/
theorem exec_lwr_partLoaded : ∃ t, exec (.lwr rt imm rs) s = .next t ∧
    PartLoaded s t rt (wordBase (s.effAddr rs imm)) (wordOffset (s.effAddr rs imm) ≤ ·) := by
  obtain ⟨-, -, hspec⟩ := loadPartialWord
  obtain ⟨-, -, -, ho, -, hload⟩ := hspec rt imm rs s
  exact hload.reads hrt (hr.sub (wordBase_add _) (by omega))

end

/-- Two loads of parts of one word that reach all its bytes load the word. -/
theorem PartLoaded.trans {s t u : State} {rt : RegIdx} {base : Word} {p q : Nat → Prop} [DecidablePred p]
    [DecidablePred q] (h : PartLoaded s t rt base p) (h' : PartLoaded t u rt base q) (hpq : ∀ k, p k ∨ q k) :
    u.readReg rt = wordAt s.mem base := by
  refine (wordAt_eq_of_bytes fun k hk => ?_).symm
  rw [h'.2 k hk, h.2 k hk, h.1.1]
  rcases hpq k with hp | hq
  · rw [if_pos hp, ite_self]
  · rw [if_pos hq]

/-- Settles O40: the first load keeps memory, so the second loads the rest of the same word, whatever base names the
address. -/
theorem partialLoadPair : Obligations.PartialLoadPair := by
  intro rt rs rs' imm imm' s hrt hr
  have hreach (k : Nat) : k ≤ wordOffset (s.effAddr rs imm) ∨ wordOffset (s.effAddr rs imm) ≤ k := Nat.le_total _ _
  obtain ⟨t, ht, hst⟩ := exec_lwl_partLoaded hrt hr
  obtain ⟨u, hu, hsu⟩ := exec_lwr_partLoaded hrt hr
  refine ⟨t, u, ht, hu, fun ha => ?_, fun ha => ?_⟩
  · obtain ⟨t', ht', htt⟩ := exec_lwr_partLoaded (rs := rs') (imm := imm') hrt (ha ▸ hr.of_memKept hst.1)
    rw [ha] at htt
    exact ⟨t', ht', hst.trans htt hreach⟩
  · obtain ⟨u', hu', huu⟩ := exec_lwl_partLoaded (rs := rs') (imm := imm') hrt (ha ▸ hr.of_memKept hsu.1)
    rw [ha] at huu
    exact ⟨u', hu', hsu.trans huu fun k => (hreach k).symm⟩

end Sys2Proof.Machine
end

section
/-! PROOF. `syscall` (46_system.md): the bridge's answer either writes memory and register 2 and retires, or is the
halt transition. -/

namespace Sys2Proof.Machine

/-- R215: after `Return(v, mem')` the writes of `mem'` stand in memory and `v` in register 2, and nothing else of the
state has changed. -/
theorem State.resume_ret_spec (s : State) (v : Word) (ws : List (Word × Byte)) :
    let t := s.resume (.ret v ws)
    RegsUpdated s t 2 v ∧ HiLoKept s t ∧ Completed s t (s.pc + 4#32) ∧
      t.mem = (s.storeBytes ws).mem ∧ t.present = (s.storeBytes ws).present := by
  obtain ⟨-, hhi, hlo, hpc, hrun, hbudget, hbridge, -⟩ := s.storeBytes_frame ws
  refine ⟨fun r => ?regs, ⟨?hi, ?lo⟩, ⟨?pc, ?budget, ?run, ?bridge⟩, State.writeReg_mem .., State.writeReg_present ..⟩
  case hi => exact (State.writeReg_hi ..).trans hhi
  case lo => exact (State.writeReg_lo ..).trans hlo
  case pc => exact congrArg (· + 4#32) ((State.writeReg_pc ..).trans hpc)
  case budget => exact congrArg (· - 1) ((State.writeReg_budget ..).trans hbudget)
  case run => exact (State.writeReg_run ..).trans hrun
  case bridge => exact (State.writeReg_bridge ..).trans hbridge
  case regs =>
    rw [State.resume, State.readReg_retire, State.readReg_writeReg, State.readReg_storeBytes]

theorem exec_syscall {s : State} {r : BridgeAnswer} (h : askBridge s.bridge s.bridgeQuery = r) :
    exec .syscall s = .next (s.resume r) := by rw [← h]; rfl

/-- Settles O42: one question to the bridge, and what the core does with each of its two answers. -/
theorem syscallFollowsBridge : Obligations.SyscallFollowsBridge := by
  refine ⟨specialWords fun _ => rfl, fun s => ⟨fun v ws hret => ?ret, fun hexit => ?exit⟩⟩
  case ret =>
    obtain ⟨hregs, hhilo, hdone, hmem, hpresent⟩ := s.resume_ret_spec v ws
    obtain ⟨-, -, -, -, -, -, -, hstrict⟩ := s.storeBytes_frame ws
    refine ⟨_, exec_syscall hret, hregs, hhilo, hdone, fun hp => ?_, fun p hp => ?_, fun x => ?_⟩
    · rw [hpresent, hstrict, hp]
    · rw [hpresent]
      exact s.storeBytes_present ws hp
    · rw [hmem]
      exact s.storeBytes_spec ws x
  case exit =>
    rw [exec_syscall hexit]
    exact s.raise_spec .exit

end Sys2Proof.Machine
end
